-- ==== Sys2Proof/Word.lean ====
section
/-! DEFINITION. The word and byte types.  Spec: 00_scope.md R8 (word, pc and address width 32) and R10. -/

namespace Sys2Proof

/-- A `u32`: an instruction word, an address, a pc or a register (R8, R10; 92 D9). -/
abbrev Word := BitVec 32

/-- The smallest unit the memory port moves (R61). -/
abbrev Byte := BitVec 8

/-- Memory as data: (address, byte) pairs; its canonical form is `Mem.wf` in Machine/Ops.lean. -/
abbrev Mem := List Host.Cell

end Sys2Proof
end

