-- ==== Sys2Proof/Syntax.lean ====
section
/-! DEFINITION. The abstract syntax: the twelve formats, their field names, and the field records as
the one inductive `Instr` (one constructor per row of spec/opcode_table.json).
Spec: 00_scope.md R14; 30_encoding.md R100 to R114; 40_codec.md R140 to R156. -/

namespace Sys2Proof

/-- The format tags of R14 and R100. -/
inductive Format where
  | r | rsop | i16 | i21 | i26 | j | i9 | rfpu | rifpu | ri | pcrel16 | pcrel19
deriving DecidableEq, Repr

/-- The field names of the tables R102 to R113. -/
inductive FieldName where
  | opcode | rs | rt | rd | shamt | funct | sop | imm | base | offset | zero | fmt | ft | fs | fd | sub | func
deriving DecidableEq, Repr

/-- R101: `u` unsigned, `s` signed, `z` unsigned and used by no instruction of the format. -/
inductive FieldKind where
  | u | s | z
deriving DecidableEq, Repr

/-- One row of a format's table: the field `w[hi:lo]` with its name and kind (R9, R101). -/
structure Field where
  name : FieldName
  hi   : Nat
  lo   : Nat
  kind : FieldKind
deriving DecidableEq, Repr

/-- Width of a field in bits (R9). -/
def Field.width (f : Field) : Nat := f.hi - f.lo + 1

/-- The field records of the codec, one constructor per format (R14), fields in table order.
A field holds an integer, not a bit pattern: `encode` is given arbitrary records and checks their
ranges (R142), and a signed field is a signed number (R140). -/
inductive Instr where
  /-- R102, R145. -/
  | r (opcode rs rt rd shamt funct : Int)
  /-- R103, R146. -/
  | rsop (opcode rs rt rd sop funct : Int)
  /-- R104, R147. -/
  | i16 (opcode rs rt imm : Int)
  /-- R105, R148. -/
  | i21 (opcode rs imm : Int)
  /-- R106, R149. -/
  | i26 (opcode imm : Int)
  /-- R107, R150. -/
  | j (opcode imm : Int)
  /-- R113, R151. -/
  | i9 (opcode base rt offset zero funct : Int)
  /-- R108, R152. -/
  | rfpu (opcode fmt ft fs fd funct : Int)
  /-- R109, R153. -/
  | rifpu (opcode sub rt fs zero : Int)
  /-- R110, R154. -/
  | ri (opcode rs func imm : Int)
  /-- R111, R155. -/
  | pcrel16 (opcode rs func imm : Int)
  /-- R112, R156. -/
  | pcrel19 (opcode rs func imm : Int)
deriving DecidableEq, Repr

/-- The tag of a record (R14). -/
def Instr.format : Instr → Format
  | .r .. => .r
  | .rsop .. => .rsop
  | .i16 .. => .i16
  | .i21 .. => .i21
  | .i26 .. => .i26
  | .j .. => .j
  | .i9 .. => .i9
  | .rfpu .. => .rfpu
  | .rifpu .. => .rifpu
  | .ri .. => .ri
  | .pcrel16 .. => .pcrel16
  | .pcrel19 .. => .pcrel19

/-- The field values of a record in the table order of its format. -/
def Instr.values : Instr → List Int
  | .r op rs rt rd shamt funct => [op, rs, rt, rd, shamt, funct]
  | .rsop op rs rt rd sop funct => [op, rs, rt, rd, sop, funct]
  | .i16 op rs rt imm => [op, rs, rt, imm]
  | .i21 op rs imm => [op, rs, imm]
  | .i26 op imm => [op, imm]
  | .j op imm => [op, imm]
  | .i9 op base rt offset zero funct => [op, base, rt, offset, zero, funct]
  | .rfpu op fmt ft fs fd funct => [op, fmt, ft, fs, fd, funct]
  | .rifpu op sub rt fs zero => [op, sub, rt, fs, zero]
  | .ri op rs func imm => [op, rs, func, imm]
  | .pcrel16 op rs func imm => [op, rs, func, imm]
  | .pcrel19 op rs func imm => [op, rs, func, imm]

/-- What `CodecFieldRange(F, name, v)` records (R142, R300, R302). -/
structure CodecFieldRange where
  format : Format
  field  : FieldName
  value  : Int
deriving DecidableEq, Repr

/-- R26: a 32-bit value with two opaque origin references (the logical instruction, and the basic
instruction of a pseudo/macro expansion); no rule reads the references (92 D37), so they are tokens. -/
structure AssembledInstruction where
  value  : Word
  origin : Option Nat
  basic  : Option Nat
deriving DecidableEq, Repr

/-- R26: "equality is by the 32-bit value alone". -/
def AssembledInstruction.same (a b : AssembledInstruction) : Bool := a.value == b.value

/-- R116: a register field names a general or an FPU register, by the field's name. -/
inductive RegRef where
  | general (n : Int)
  | fpu (n : Int)
deriving DecidableEq, Repr

/-- What the codec hands to the executable of an instruction: the decoded record, and the accessors
of R151 and R160 to R162 where the format has them (`none` where it has not). -/
structure Operands where
  fields  : Instr
  word    : Word
  pc      : Word
  regs    : List (FieldName × RegRef)
  uimm    : Option Int
  rel     : Option Int
  target  : Option Word
  soffset : Option Int
deriving DecidableEq, Repr

end Sys2Proof
end

