-- ==== Sys2Proof/WellFormed.lean ====
section
/-! DEFINITION. Which field records are well formed.  `Instr.wellFormed` is the range every field has
as decoded, `Instr.encodable` the range `encode` accepts.
Spec: 30_encoding.md R114; 40_codec.md R142 and the "check ranges" lines of R145 to R156. -/

namespace Sys2Proof

/-- Legal values of a `u` or `z` field below `bound` (R114). -/
def below (bound v : Int) : Bool := decide (0 ≤ v ∧ v < bound)

/-- A value between two bounds, both included. -/
def between (lo hi v : Int) : Bool := decide (lo ≤ v ∧ v ≤ hi)

/-- Every field is in the range it has as decoded (R114 "as decoded", R143 law 1). -/
def Instr.wellFormed : Instr → Bool
  | .r op rs rt rd shamt funct =>
    below 64 op && below 32 rs && below 32 rt && below 32 rd && below 32 shamt && below 64 funct
  | .rsop op rs rt rd sop funct =>
    below 64 op && below 32 rs && below 32 rt && below 32 rd && below 32 sop && below 64 funct
  | .i16 op rs rt imm => below 64 op && below 32 rs && below 32 rt && between (-32768) 32767 imm
  | .i21 op rs imm => below 64 op && below 32 rs && between (-1048576) 1048575 imm
  | .i26 op imm => below 64 op && between (-33554432) 33554431 imm
  | .j op imm => below 64 op && between (-33554432) 33554431 imm
  | .i9 op base rt offset zero funct =>
    below 64 op && below 32 base && below 32 rt && below 512 offset && below 2 zero && below 64 funct
  | .rfpu op fmt ft fs fd funct =>
    below 64 op && below 32 fmt && below 32 ft && below 32 fs && below 32 fd && below 64 funct
  | .rifpu op sub rt fs zero =>
    below 64 op && below 32 sub && below 32 rt && below 32 fs && below 2048 zero
  | .ri op rs func imm => below 64 op && below 32 rs && below 32 func && between (-32768) 32767 imm
  | .pcrel16 op rs func imm => below 64 op && below 32 rs && below 32 func && between (-32768) 32767 imm
  | .pcrel19 op rs func imm => below 64 op && below 32 rs && below 4 func && between (-262144) 262143 imm

/-- Every field is in the range `encode` accepts: as `wellFormed`, but a signed field also has the
unsigned spelling of its bits (R142, and the "check ranges" lines of R145 to R156). -/
def Instr.encodable : Instr → Bool
  | .r op rs rt rd shamt funct =>
    below 64 op && below 32 rs && below 32 rt && below 32 rd && below 32 shamt && below 64 funct
  | .rsop op rs rt rd sop funct =>
    below 64 op && below 32 rs && below 32 rt && below 32 rd && below 32 sop && below 64 funct
  | .i16 op rs rt imm => below 64 op && below 32 rs && below 32 rt && between (-32768) 65535 imm
  | .i21 op rs imm => below 64 op && below 32 rs && between (-1048576) 2097151 imm
  | .i26 op imm => below 64 op && between (-33554432) 67108863 imm
  | .j op imm => below 64 op && between (-33554432) 67108863 imm
  | .i9 op base rt offset zero funct =>
    below 64 op && below 32 base && below 32 rt && below 512 offset && below 2 zero && below 64 funct
  | .rfpu op fmt ft fs fd funct =>
    below 64 op && below 32 fmt && below 32 ft && below 32 fs && below 32 fd && below 64 funct
  | .rifpu op sub rt fs zero =>
    below 64 op && below 32 sub && below 32 rt && below 32 fs && below 2048 zero
  | .ri op rs func imm => below 64 op && below 32 rs && below 32 func && between (-32768) 65535 imm
  | .pcrel16 op rs func imm => below 64 op && below 32 rs && below 32 func && between (-32768) 65535 imm
  | .pcrel19 op rs func imm => below 64 op && below 32 rs && below 4 func && between (-262144) 524287 imm

end Sys2Proof
end

