-- ==== Sys2Proof/Config.lean ====
section
/-! DEFINITION. What an implementation fixes and what the spec leaves open.
`Setup` holds the OPEN parameters of 00_scope.md R8 that are plain data: it is a field of State that no
step changes, so a statement over all states is a statement over all parameters.  The `opaque` constants
are the open values that are functions, and the free values; nothing in Lean can compute them.
The record types an OPEN parameter or a free value mentions stand here too. -/

namespace Sys2Proof

/-! ## The decode table (R8, R118, R203, R204; 92 D8) -/

/-- An instruction definition: opaque but for the format it reads a word in (R118, R203). -/
structure Def where
  id     : Nat
  format : Format
deriving DecidableEq, Repr

/-- One row of `lookup`: words equal to `value` under `mask` have this definition, or none. -/
structure LookupRow where
  mask  : Word
  value : Word
  defn  : Option Def
deriving DecidableEq, Repr

/-- Words and pcs for which `generateExecution` of `defn` returns none (R203, 92 D17). -/
structure NoExecutionRow where
  defn     : Def
  rawMask  : Word
  rawValue : Word
  pcMask   : Word
  pcValue  : Word
deriving DecidableEq, Repr

/-- The injected `DecodeTable` as data: `lookup` is the first matching row; `generateExecution` gives an
executable unless a row of `noExecution` matches.  Both are then functions of their arguments, as R204
asks, and every pair of functions on 32-bit words is such a table. -/
structure DecodeTable where
  rows        : List LookupRow
  noExecution : List NoExecutionRow
deriving DecidableEq, Repr

/-- The executable `generateExecution(def, raw, pc)` returns.  `generateExecution` is a function
(R204), so its three arguments name the executable it builds. -/
structure Executable where
  defn : Def
  raw  : Word
  pc   : Word
deriving DecidableEq, Repr

/-- FREE VALUES.  The two origin references of the AssembledInstruction that a definition's
`assembleFromCode` makes of a word: opaque, and read by no rule (R26, R203; 92 D37). -/
opaque Config.origin (defn : Def) (raw : Word) : Option Nat
opaque Config.basic (defn : Def) (raw : Word) : Option Nat

/-! ## Registers of the environment (10_state.md section 3 and 4) -/

/-- The COP0 registers of R32 to R39, and ErrorEPC, which R322's return reads. -/
inductive Cop0Reg where
  | badVAddr | count | status | cause | epc | eBase | intCtl | srsCtl | errorEPC
deriving DecidableEq, Repr

/-- COP0 as whole words; software may read and write them whole, so reserved bits are kept.
R33 Status, R34 Cause, R36 EBase, R37 IntCtl and R38 SRSCtl have the fields of Machine/Flags.lean. -/
structure Cop0 where
  badVAddr : Word
  count    : Word
  status   : Word
  cause    : Word
  epc      : Word
  eBase    : Word
  intCtl   : Word
  srsCtl   : Word
  errorEPC : Word
deriving DecidableEq, Repr

/-- General registers (R27), FPU registers (R29: no width is given, so a register holds a number),
COP0 and the pc (R30). -/
structure Regs where
  gpr  : Vector Word 32
  fpr  : Vector Nat 32
  cop0 : Cop0
  pc   : Word
deriving DecidableEq, Repr

/-- Widths of a write as the snoop sees it: 1, 2, 4 or 8 bytes (R62). -/
inductive Width where
  | byte | half | word | double
deriving DecidableEq, Repr

/-- Bytes of a width (R62). -/
def Width.bytes : Width → Nat
  | .byte => 1
  | .half => 2
  | .word => 4
  | .double => 8

/-- A software request (R40). -/
structure SoftwareRequest where
  code        : BitVec 5
  badAddr     : Option Word
  pc          : Word
  inDelaySlot : Bool
deriving DecidableEq, Repr

/-- An item of the console's input queue: "blocking input pop (line or character)" (R345). -/
inductive InputItem where
  | line (text : List Nat)
  | character (code : Nat)
deriving DecidableEq, Repr

/-! ## Executables (R7, R144, R166: what an instruction does is its executable's) -/

/-- One thing an executable can do to the machine: the side effects the spec says executables have
("produces register/memory side effects", R330), the flag they set (R41), the software requests they
raise (R332), the exit they request (R347), and the return of R322; and `read`, a data read, an atomic step of
its own that changes nothing (R67, R68, R72). -/
inductive Effect where
  | read
  | writeGpr (i : Fin 32) (v : Word)
  | writeFpr (i : Fin 32) (v : Nat)
  | writeCop0 (c : Cop0Reg) (v : Word)
  | writePc (v : Word)
  | memWrite (addr : Word) (w : Width) (value : BitVec 64) (suppressEvents : Bool)
  | setNextInDelaySlot (b : Bool)
  | requestSoftware (q : SoftwareRequest)
  | requestExit (code : Int)
  | exceptionReturn
deriving DecidableEq, Repr

/-- How a run of an executable ends: completed after taking `consumed` input items; blocked for want
of input (R345); or with a worker-thread exception, which leaves FINISHED or READY (R349, 92 D46), after
taking `consumed` input items (log entry 14). -/
inductive Ending where
  | completed (consumed : Nat)
  | needsInput
  | raised (consumed : Nat) (finished : Bool)
deriving DecidableEq, Repr, Inhabited

/-- How a run that has begun ends: one that waits for input has not (log entry 12). -/
inductive Conclusion where
  | completed (consumed : Nat)
  | raised (consumed : Nat) (finished : Bool)
deriving DecidableEq, Repr, Inhabited

/-- The conclusion of a run that does not wait for input. -/
def Ending.conclusion : Ending → Option Conclusion
  | .completed consumed => some (.completed consumed)
  | .needsInput => none
  | .raised consumed finished => some (.raised consumed finished)

/-- One run of an executable: its effects in order, and how it ends, if no outside call lands within it. -/
structure Execution where
  effects : List Effect
  ending  : Ending
deriving DecidableEq, Repr, Inhabited

/-- The rest of a run that has begun. -/
structure Continuation where
  effects    : List Effect
  conclusion : Conclusion
deriving DecidableEq, Repr, Inhabited

/-- What an executable can see besides its operands.  Memory is bytes, so the byte order of the port is
part of the view: it decides what a wider read sees (R64). -/
structure View where
  regs            : Regs
  mem             : Mem
  bigEndian       : Bool
  nextInDelaySlot : Bool
  input           : List InputItem
deriving DecidableEq, Repr

/-- FREE VALUE.  What the executable of the instruction with these operands and this definition does,
seen from this view.  The spec puts it outside (R7, R144, R165, R166, N4, N36: "must not assume any
register effect of any word"), so it is not given a body.  The counter `index` makes every use fresh. -/
opaque Config.execution (index : Nat) (defn : Option Def) (ops : Operands) (view : View) : Execution

/-- FREE VALUE.  What the rest of that run does after outside calls have landed within it: `done` are the
effects so far, and `seen` is what the executable could see at its start and after each gap in which calls
landed, the newest first, so that its later reads give the latest writes (R72; log entry 9). -/
opaque Config.continuation (index : Nat) (defn : Option Def) (ops : Operands) (done : List Effect)
    (seen : List View) : Continuation

/-! ## The other OPEN parameters of R8 -/

/-- R8 `interruptEnabled` (92 D27): the MIPS32 condition R333 offers, two constant ones for the spec's
vectors, and every other function of the COP0 view and the level. -/
inductive InterruptPolicy where
  | mips32
  | always
  | never
  | other (k : Nat)
deriving DecidableEq, Repr

/-- OPEN (R8, R333, 92 D27): the enabling condition of policy `other k`. -/
opaque Config.interruptEnabled (k : Nat) (cop0 : Cop0) (level : Fin 64) : Bool

/-- OPEN (R8, R39, 92 D31): COP0 Count after a cycle, from its value before. -/
opaque Config.countBehaviour (index : Nat) (count : Word) : Word

/-- FREE VALUE (R341: the execution time is "otherwise not specified"): what one cycle adds to it. -/
opaque Config.executionTime (index : Nat) : Nat

/-- FREE VALUE (R423; 93 row 22: "any value for the next fetch of an affected word"): the word the next
fetch at `pc` decodes after a write that bypassed the synchronized entry point. -/
opaque Config.unsyncedWord (index : Nat) (pc : Word) : Word

/-- FREE VALUE (R344 calls `toggleBreakpoint` idempotent and states no other effect of it): whether address
`a` is in the breakpoint set after the call, by what the set holds beside `a`; `none`: as it was before. -/
opaque Config.toggleBreakpoint (a : Word) (rest : List Word) : Option Bool

/-- The OPEN parameters that are plain data (R8).  `textBase` and `textLimit` are cache state (R21);
`cop0Initial` is the first snapshot (R403).  `callEvents` and `undoConfigured` are the run's
configuration (R348, R424).  `nextLevels` is what the port's enumeration of next-level memories gives, by
name (R61, R402). -/
structure Setup where
  table                   : DecodeTable
  initialEntries          : Nat
  bigEndian               : Bool
  interruptPolicy         : InterruptPolicy
  softwarePendingCauseBit : Fin 32
  callEvents              : Bool
  undoConfigured          : Bool
  nextLevels              : List Nat
deriving DecidableEq, Repr

/-- R424: undo is available only in an undo-enabled run with 'call-events' mode active. -/
def Setup.undoEnabled (c : Setup) : Bool := c.callEvents && c.undoConfigured

end Sys2Proof
end

