-- ==== Sys2Proof/Decode.lean ====
section
/-! DEFINITION. The instruction codec: bit fields, sign extension, byte order, `decode` and `encode` of
every format, the accessors beyond fields, and the decode table's functions.
Spec: 00_scope.md R9 to R11; 30_encoding.md R100 to R121; 40_codec.md R140 to R166. -/

namespace Sys2Proof

/-! ## Bit fields and extension -/

/-- `w[hi:lo]` as an unsigned number (R9). -/
def fieldBits (w : Word) (hi lo : Nat) : Nat := (w.toNat >>> lo) % 2 ^ (hi - lo + 1)

/-- `mask(n) = 2^n - 1` (R10). -/
def maskBits (n : Nat) : Word := BitVec.ofNat 32 (2 ^ n - 1)

/-- `zext_n(x)` (R11). -/
def zext (x : Nat) : Int := x

/-- `sext_n(x)` by the document's method: shift left, then arithmetic shift right, by `32 - n`, read
as a signed number (R11; a logical shift is refused, R426). -/
def sext (n x : Nat) : Int :=
  (((BitVec.ofNat 32 x) <<< (32 - n)).sshiftRight (32 - n)).toInt

/-- A field of kind `u` or `z` as decoded (R140). -/
def ufield (w : Word) (hi lo : Nat) : Int := zext (fieldBits w hi lo)

/-- A field of kind `s` as decoded (R140). -/
def sfield (w : Word) (hi lo : Nat) : Int := sext (hi - lo + 1) (fieldBits w hi lo)

/-- `(v & mask(hi-lo+1)) << lo`, `v` as its 32-bit two's-complement pattern (R141). -/
def place (hi lo : Nat) (v : Int) : Word := (BitVec.ofInt 32 v &&& maskBits (hi - lo + 1)) <<< lo

/-! ## The formats' tables (R102 to R113) -/

/-- The field table of each format, in table order. -/
def Format.fields : Format → List Field
  | .r => [⟨.opcode, 31, 26, .u⟩, ⟨.rs, 25, 21, .u⟩, ⟨.rt, 20, 16, .u⟩, ⟨.rd, 15, 11, .u⟩,
      ⟨.shamt, 10, 6, .u⟩, ⟨.funct, 5, 0, .u⟩]
  | .rsop => [⟨.opcode, 31, 26, .u⟩, ⟨.rs, 25, 21, .u⟩, ⟨.rt, 20, 16, .u⟩, ⟨.rd, 15, 11, .u⟩,
      ⟨.sop, 10, 6, .u⟩, ⟨.funct, 5, 0, .u⟩]
  | .i16 => [⟨.opcode, 31, 26, .u⟩, ⟨.rs, 25, 21, .u⟩, ⟨.rt, 20, 16, .u⟩, ⟨.imm, 15, 0, .s⟩]
  | .i21 => [⟨.opcode, 31, 26, .u⟩, ⟨.rs, 25, 21, .u⟩, ⟨.imm, 20, 0, .s⟩]
  | .i26 => [⟨.opcode, 31, 26, .u⟩, ⟨.imm, 25, 0, .s⟩]
  | .j => [⟨.opcode, 31, 26, .u⟩, ⟨.imm, 25, 0, .s⟩]
  | .i9 => [⟨.opcode, 31, 26, .u⟩, ⟨.base, 25, 21, .u⟩, ⟨.rt, 20, 16, .u⟩, ⟨.offset, 15, 7, .u⟩,
      ⟨.zero, 6, 6, .z⟩, ⟨.funct, 5, 0, .u⟩]
  | .rfpu => [⟨.opcode, 31, 26, .u⟩, ⟨.fmt, 25, 21, .u⟩, ⟨.ft, 20, 16, .u⟩, ⟨.fs, 15, 11, .u⟩,
      ⟨.fd, 10, 6, .u⟩, ⟨.funct, 5, 0, .u⟩]
  | .rifpu => [⟨.opcode, 31, 26, .u⟩, ⟨.sub, 25, 21, .u⟩, ⟨.rt, 20, 16, .u⟩, ⟨.fs, 15, 11, .u⟩,
      ⟨.zero, 10, 0, .z⟩]
  | .ri => [⟨.opcode, 31, 26, .u⟩, ⟨.rs, 25, 21, .u⟩, ⟨.func, 20, 16, .u⟩, ⟨.imm, 15, 0, .s⟩]
  | .pcrel16 => [⟨.opcode, 31, 26, .u⟩, ⟨.rs, 25, 21, .u⟩, ⟨.func, 20, 16, .u⟩, ⟨.imm, 15, 0, .s⟩]
  | .pcrel19 => [⟨.opcode, 31, 26, .u⟩, ⟨.rs, 25, 21, .u⟩, ⟨.func, 20, 19, .u⟩, ⟨.imm, 18, 0, .s⟩]

/-- One field of a word, by its table row (R140). -/
def Field.decode (f : Field) (w : Word) : Int :=
  match f.kind with
  | .u => ufield w f.hi f.lo
  | .z => ufield w f.hi f.lo
  | .s => sfield w f.hi f.lo

/-- Whether a value is in a field's legal range at encode (R142). -/
def Field.inRange (f : Field) (v : Int) : Bool :=
  match f.kind with
  | .u => decide (0 ≤ v ∧ v ≤ 2 ^ f.width - 1)
  | .z => decide (0 ≤ v ∧ v ≤ 2 ^ f.width - 1)
  | .s => decide (-(2 ^ (f.width - 1)) ≤ v ∧ v ≤ 2 ^ f.width - 1)

/-- The generic decode of R140: the field values in table order. -/
def Format.decodeValues (F : Format) (w : Word) : List Int := F.fields.map (·.decode w)

/-- The generic packing of R141: the OR over the fields of the placed values. -/
def packFields : List Field → List Int → Word
  | f :: fs, v :: vs => place f.hi f.lo v ||| packFields fs vs
  | _, _ => 0

/-! ## `decode_F` (R145 to R156) -/

/-- R145. -/
def decodeR (w : Word) : Instr :=
  .r (ufield w 31 26) (ufield w 25 21) (ufield w 20 16) (ufield w 15 11) (ufield w 10 6) (ufield w 5 0)

/-- R146. -/
def decodeRsop (w : Word) : Instr :=
  .rsop (ufield w 31 26) (ufield w 25 21) (ufield w 20 16) (ufield w 15 11) (ufield w 10 6) (ufield w 5 0)

/-- R147. -/
def decodeI16 (w : Word) : Instr :=
  .i16 (ufield w 31 26) (ufield w 25 21) (ufield w 20 16) (sfield w 15 0)

/-- R148. -/
def decodeI21 (w : Word) : Instr := .i21 (ufield w 31 26) (ufield w 25 21) (sfield w 20 0)

/-- R149. -/
def decodeI26 (w : Word) : Instr := .i26 (ufield w 31 26) (sfield w 25 0)

/-- R150. -/
def decodeJ (w : Word) : Instr := .j (ufield w 31 26) (sfield w 25 0)

/-- R151: `offset` is unsigned (92 D5). -/
def decodeI9 (w : Word) : Instr :=
  .i9 (ufield w 31 26) (ufield w 25 21) (ufield w 20 16) (ufield w 15 7) (ufield w 6 6) (ufield w 5 0)

/-- R152. -/
def decodeRfpu (w : Word) : Instr :=
  .rfpu (ufield w 31 26) (ufield w 25 21) (ufield w 20 16) (ufield w 15 11) (ufield w 10 6) (ufield w 5 0)

/-- R153. -/
def decodeRifpu (w : Word) : Instr :=
  .rifpu (ufield w 31 26) (ufield w 25 21) (ufield w 20 16) (ufield w 15 11) (ufield w 10 0)

/-- R154. -/
def decodeRi (w : Word) : Instr :=
  .ri (ufield w 31 26) (ufield w 25 21) (ufield w 20 16) (sfield w 15 0)

/-- R155. -/
def decodePcrel16 (w : Word) : Instr :=
  .pcrel16 (ufield w 31 26) (ufield w 25 21) (ufield w 20 16) (sfield w 15 0)

/-- R156. -/
def decodePcrel19 (w : Word) : Instr :=
  .pcrel19 (ufield w 31 26) (ufield w 25 21) (ufield w 20 19) (sfield w 18 0)

/-- `decode(w, F)`: total on every word in every format (R20, R118, R140; 92 D41). -/
def decode : Format → Word → Instr
  | .r => decodeR
  | .rsop => decodeRsop
  | .i16 => decodeI16
  | .i21 => decodeI21
  | .i26 => decodeI26
  | .j => decodeJ
  | .i9 => decodeI9
  | .rfpu => decodeRfpu
  | .rifpu => decodeRifpu
  | .ri => decodeRi
  | .pcrel16 => decodePcrel16
  | .pcrel19 => decodePcrel19

/-! ## Accessors beyond fields (R151, R160 to R162) -/

/-- R160: the absolute jump target of J and I26; the carry out of bit 27 is dropped (92 D7). -/
def absTarget (w pc : Word) : Word :=
  (pc &&& 0xF0000000#32) ||| ((((w &&& 0x3FFFFFF#32) <<< 2) + 4#32) &&& 0x0FFFFFFF#32)

/-- R161: the raw relative-field accessor of J and I26. -/
def rel (w : Word) : Int := sext 26 (fieldBits w 25 0)

/-- R162: the unsigned immediate of I16, RI and PCREL16. -/
def uimm (w : Word) : Int := zext (fieldBits w 15 0)

/-- R151: the signed reading of the I9 offset (92 D5). -/
def soffsetI9 (w : Word) : Int := sext 9 (fieldBits w 15 7)

/-! ## The decode table (R203, R204) -/

/-- `lookup(rawWord)`: the definition of the first row that matches. -/
def DecodeTable.lookup (t : DecodeTable) (raw : Word) : Option Def :=
  match t.rows.find? (fun row => raw &&& row.mask == row.value) with
  | some row => row.defn
  | none => none

/-- `generateExecution(def, raw, pc)`. -/
def DecodeTable.generateExecution (t : DecodeTable) (d : Def) (raw pc : Word) : Option Executable :=
  if t.noExecution.any (fun row =>
      row.defn == d && raw &&& row.rawMask == row.rawValue && pc &&& row.pcMask == row.pcValue)
  then none
  else some ⟨d, raw, pc⟩

/-- `assembleFromCode`: the AssembledInstruction a definition makes of a word (R26, R203). -/
def assembleFromCode (d : Def) (raw : Word) : AssembledInstruction :=
  ⟨raw, Config.origin d raw, Config.basic d raw⟩

/-! ## Words as bytes (R64; the byte order is the parameter `bigEndian`) -/

/-- The number little-endian bytes stand for. -/
def littleEndianValue : List Byte → Nat
  | [] => 0
  | b :: bs => b.toNat + 256 * littleEndianValue bs

/-- The number bytes at rising addresses stand for. -/
def valueOfBytes (bigEndian : Bool) (bs : List Byte) : Nat :=
  littleEndianValue (if bigEndian then bs.reverse else bs)

/-- The low `n` bytes of a value, least significant first. -/
def littleEndianBytes : Nat → Nat → List Byte
  | 0, _ => []
  | n + 1, v => BitVec.ofNat 8 v :: littleEndianBytes n (v / 256)

/-- The low `n` bytes of a value, in the order of rising addresses.  DESIGN CHOICE, log entry 18, for
`n = 8`: the port sets words and bytes only (R61) and no rule lays out an 8-byte write, so all eight bytes
are one number in the byte order, not two words in some order. -/
def bytesOfValue (bigEndian : Bool) (n v : Nat) : List Byte :=
  if bigEndian then (littleEndianBytes n v).reverse else littleEndianBytes n v

/-- Why bytes decode to no instruction (R117, R120). -/
inductive DecodeReject where
  /-- Fewer than four bytes. -/
  | truncated
  /-- No definition of the table matches the word. -/
  | noDefinition (raw : Word)
deriving DecidableEq, Repr

/-- Reads one instruction from bytes at rising addresses: every instruction is one 32-bit word
(R117), and the table chooses the format (R118). -/
def decodeBytes (t : DecodeTable) (bigEndian : Bool) : List Byte → Except DecodeReject (Instr × List Byte)
  | b0 :: b1 :: b2 :: b3 :: rest =>
    let raw := BitVec.ofNat 32 (valueOfBytes bigEndian [b0, b1, b2, b3])
    match t.lookup raw with
    | some d => .ok (decode d.format raw, rest)
    | none => .error (.noDefinition raw)
  | _ => .error .truncated

/-! ## `encode_F` (R141, R142, R145 to R156) -/

/-- R145, the packing. -/
def packR (op rs rt rd shamt funct : Int) : Word :=
  place 31 26 op ||| place 25 21 rs ||| place 20 16 rt ||| place 15 11 rd ||| place 10 6 shamt ||| place 5 0 funct

/-- R146. -/
def packRsop (op rs rt rd sop funct : Int) : Word :=
  place 31 26 op ||| place 25 21 rs ||| place 20 16 rt ||| place 15 11 rd ||| place 10 6 sop ||| place 5 0 funct

/-- R147. -/
def packI16 (op rs rt imm : Int) : Word :=
  place 31 26 op ||| place 25 21 rs ||| place 20 16 rt ||| place 15 0 imm

/-- R148. -/
def packI21 (op rs imm : Int) : Word := place 31 26 op ||| place 25 21 rs ||| place 20 0 imm

/-- R149. -/
def packI26 (op imm : Int) : Word := place 31 26 op ||| place 25 0 imm

/-- R150. -/
def packJ (op imm : Int) : Word := place 31 26 op ||| place 25 0 imm

/-- R151. -/
def packI9 (op base rt offset zero funct : Int) : Word :=
  place 31 26 op ||| place 25 21 base ||| place 20 16 rt ||| place 15 7 offset ||| place 6 6 zero ||| place 5 0 funct

/-- R152. -/
def packRfpu (op fmt ft fs fd funct : Int) : Word :=
  place 31 26 op ||| place 25 21 fmt ||| place 20 16 ft ||| place 15 11 fs ||| place 10 6 fd ||| place 5 0 funct

/-- R153. -/
def packRifpu (op sub rt fs zero : Int) : Word :=
  place 31 26 op ||| place 25 21 sub ||| place 20 16 rt ||| place 15 11 fs ||| place 10 0 zero

/-- R154. -/
def packRi (op rs func imm : Int) : Word :=
  place 31 26 op ||| place 25 21 rs ||| place 20 16 func ||| place 15 0 imm

/-- R155. -/
def packPcrel16 (op rs func imm : Int) : Word :=
  place 31 26 op ||| place 25 21 rs ||| place 20 16 func ||| place 15 0 imm

/-- R156. -/
def packPcrel19 (op rs func imm : Int) : Word :=
  place 31 26 op ||| place 25 21 rs ||| place 20 19 func ||| place 18 0 imm

/-- The word a record packs to, before any range check. -/
def Instr.pack : Instr → Word
  | .r op rs rt rd shamt funct => packR op rs rt rd shamt funct
  | .rsop op rs rt rd sop funct => packRsop op rs rt rd sop funct
  | .i16 op rs rt imm => packI16 op rs rt imm
  | .i21 op rs imm => packI21 op rs imm
  | .i26 op imm => packI26 op imm
  | .j op imm => packJ op imm
  | .i9 op base rt offset zero funct => packI9 op base rt offset zero funct
  | .rfpu op fmt ft fs fd funct => packRfpu op fmt ft fs fd funct
  | .rifpu op sub rt fs zero => packRifpu op sub rt fs zero
  | .ri op rs func imm => packRi op rs func imm
  | .pcrel16 op rs func imm => packPcrel16 op rs func imm
  | .pcrel19 op rs func imm => packPcrel19 op rs func imm

/-- A field whose value is outside its range (R142).  DESIGN CHOICE, log entry 28: of several, the first in
table order; R121 and R142 do not say which one `CodecFieldRange` names. -/
def firstOutOfRange (F : Format) : List Field → List Int → Option CodecFieldRange
  | f :: fs, v :: vs => if f.inRange v then firstOutOfRange F fs vs else some ⟨F, f.name, v⟩
  | _, _ => none

/-- `encode_F(f)`: the range check, then the packing; a record out of range raises `CodecFieldRange`
and gives no word (R141, R142, R121). -/
def encode (i : Instr) : Except CodecFieldRange Word :=
  match firstOutOfRange i.format i.format.fields i.values with
  | some e => .error e
  | none => .ok i.pack

/-- The four bytes of an instruction at rising addresses. -/
def encodeBytes (bigEndian : Bool) (i : Instr) : Except CodecFieldRange (List Byte) :=
  match encode i with
  | .ok w => .ok (bytesOfValue bigEndian 4 w.toNat)
  | .error e => .error e

/-! ## The decode table the reset state holds

PRESUMED, log entry 6: the informative MIPS32 Release 6 opcode map of R119, which "a model must not
take as normative".  It is only the value of an OPEN parameter at `State.reset`; every statement over
all states is over all tables. -/

/-- Words with operation code `op` read in format `F`. -/
def opcodeRow (op id : Nat) (F : Format) : LookupRow :=
  ⟨0xFC000000#32, BitVec.ofNat 32 (op <<< 26), some ⟨id, F⟩⟩

/-- Words with operation code `op` and the bits `sel` under `selMask` read in format `F`. -/
def selectRow (op selMask sel id : Nat) (F : Format) : LookupRow :=
  ⟨0xFC000000#32 ||| BitVec.ofNat 32 selMask, BitVec.ofNat 32 (op <<< 26 ||| sel), some ⟨id, F⟩⟩

/-- SPECIAL: the Release 6 multiplies and divides (SOP 2 and 3) in RSOP, the rest in R. -/
def specialRows : List LookupRow :=
  [0x18, 0x19, 0x1A, 0x1B].flatMap (fun funct =>
    [2, 3].map (fun sop => selectRow 0x00 0x7FF (sop <<< 6 ||| funct) 1 .rsop))
  ++ [opcodeRow 0x00 0 .r]

/-- COP1: arithmetic by `fmt` in RFPU, moves by `sub` in RIFPU, BC1EQZ and BC1NEZ in I16. -/
def cop1Rows : List LookupRow :=
  [0x10, 0x11, 0x14, 0x15].map (fun f => selectRow 0x11 (31 <<< 21) (f <<< 21) 0x111 .rfpu)
  ++ [0x00, 0x02, 0x03, 0x04, 0x06, 0x07].map (fun f => selectRow 0x11 (31 <<< 21) (f <<< 21) 0x112 .rifpu)
  ++ [0x09, 0x0D].map (fun f => selectRow 0x11 (31 <<< 21) (f <<< 21) 0x113 .i16)

/-- SPECIAL3: LL, SC, CACHE and PREF in I9, the rest R-like. -/
def special3Rows : List LookupRow :=
  [0x36, 0x26, 0x25, 0x35].map (fun funct => selectRow 0x1F 0x3F funct 0x11F .i9)
  ++ [opcodeRow 0x1F 0x1F .r]

/-- PCREL: AUIPC and ALUIPC in PCREL16, ADDIUPC and LWPC in PCREL19. -/
def pcrelRows : List LookupRow :=
  [0x1E, 0x1F].map (fun f => selectRow 0x3B (31 <<< 16) (f <<< 16) 0x13B .pcrel16)
  ++ [0, 1].map (fun f => selectRow 0x3B (3 <<< 19) (f <<< 19) 0x3B .pcrel19)

/-- The compact zero branches: I16 when rs = 0 (JIC, JIALC), I21 otherwise (BEQZC, BNEZC). -/
def compactRows : List LookupRow :=
  [0x36, 0x3E].flatMap (fun op =>
    [selectRow op (31 <<< 21) 0 (0x100 + op) .i16, opcodeRow op op .i21])

/-- The table of R119.  Where R119 says only "R-like", for COP0 and for SPECIAL3 outside I9, the words are read in
format R: PRESUMED, log entry 6. -/
def informativeTable : DecodeTable where
  rows := specialRows ++ [opcodeRow 0x01 0x01 .ri, opcodeRow 0x02 0x02 .j, opcodeRow 0x03 0x03 .j]
    ++ [0x04, 0x05, 0x06, 0x07, 0x08, 0x09, 0x0A, 0x0B, 0x0C, 0x0D, 0x0E, 0x0F].map (fun op => opcodeRow op op .i16)
    ++ [opcodeRow 0x10 0x10 .r] ++ cop1Rows
    ++ [0x16, 0x17, 0x18].map (fun op => opcodeRow op op .i16) ++ special3Rows
    ++ [0x20, 0x21, 0x23, 0x24, 0x25, 0x28, 0x29, 0x2B, 0x31, 0x35, 0x39, 0x3D].map (fun op => opcodeRow op op .i16)
    ++ [opcodeRow 0x32 0x32 .i26, opcodeRow 0x3A 0x3A .i26] ++ compactRows ++ pcrelRows
  noExecution := []

/-- What the decoder reads from a table word `w` of `nbits` bits (its higher bits zero), with the
decode table the reset state holds; bytes are laid out little-endian, as the reset state's
`bigEndian` says. -/
def decodeTableWord (nbits w : Nat) : Option Instr :=
  match decodeBytes informativeTable false (bytesOfValue false 4 (w % 2 ^ nbits)) with
  | .ok (i, _) => some i
  | .error _ => none

end Sys2Proof
end

