-- ==== Sys2Proof/Machine/State.lean ====
section
/-! DEFINITION. The state of the unit and of its environment, as plain data, and the state at reset.
Spec: 10_state.md R20 to R42; 60_exceptions.md R331 to R349; 70_reset_and_hazards.md R401 to R404. -/

namespace Sys2Proof.Machine

/-! ## The instruction cache (R21, R22) -/

/-- A decoded instruction the cache stores (R22, R26). -/
structure Entry where
  raw  : AssembledInstruction
  defn : Def
  exec : Executable
deriving DecidableEq, Repr

/-- Two entries are equal when their raw values are (R22). -/
def Entry.same (a b : Entry) : Bool := a.raw.same b.raw

/-- The cache's state (R21).  The number `n` of entries is the length of `entries`. -/
structure ICache where
  textBase  : Word
  textLimit : Word
  endAddr   : Word
  entries   : List (Option Entry)
deriving DecidableEq, Repr

/-- R21 `n`. -/
def ICache.size (c : ICache) : Nat := c.entries.length

/-! ## The engine -/

/-- R41, R346. -/
inductive RunState where
  | ready | running | lockedOnInput | finished
deriving DecidableEq, Repr

/-- What `reset()` restores: every register, the pc, and all memory (R401). -/
structure Snapshot where
  regs : Regs
  mem  : Mem
deriving DecidableEq, Repr

/-- A recorded register or memory change: where, and the value before (R348). -/
inductive Delta where
  | gpr (i : Fin 32) (old : Word)
  | fpr (i : Fin 32) (old : Nat)
  | cop0 (c : Cop0Reg) (old : Word)
  | pc (old : Word)
  | mem (addr : Word) (w : Width) (old : BitVec 64)
deriving DecidableEq, Repr

/-- One cycle's recorded changes, the newest first, and whether the cycle was counted (R341, R348). -/
structure CycleRecord where
  deltas  : List Delta
  counted : Bool
deriving DecidableEq, Repr

/-- A request the interrupt check can take (R334). -/
inductive Request where
  | hardware (level : Fin 64)
  | software (q : SoftwareRequest)
deriving DecidableEq, Repr

/-- The trap entry at the top of the cycle in progress: the request it took, and COP0 and the pc before it.
A cycle that is stopped does not commit it (R349). -/
structure OpenEntry where
  request : Request
  cop0    : Cop0
  pc      : Word
deriving DecidableEq, Repr

/-- A memory below the port, as its enumeration of next-level memories names it, with the number of resets
propagated to it; what it holds is outside the unit (R61, R78, R402). -/
structure MemoryLevel where
  name   : Nat
  resets : Nat
deriving DecidableEq, Repr

/-- A call from outside the worker that may land while a cycle is in progress, and a codec call.  Each is
one atomic step between the worker's (R67, R71).  `bypassWrite` is a memory write that does not go through
the synchronized entry point (R423; 93 row 22). -/
inductive OutsideCall where
  | requestHardware (level : Nat)
  | requestSoftware (q : SoftwareRequest)
  | input (x : InputItem)
  | mutate (e : Effect)
  | bypassWrite (addr : Word) (w : Width) (value : BitVec 64)
  | cachesReset
  | addBreakpoint (a : Word)
  | removeBreakpoint (a : Word)
  | toggleBreakpoint (a : Word)
  | encode (i : Instr)
  | decode (F : Format) (w : Word)
deriving DecidableEq, Repr

/-- The controller's calls, which find no cycle in progress or wait until there is none (R349, R401), and
the outside calls made between two cycles.  `cancelBeforeCycle` is a cycle whose before-cycle
notification is cancelled (R428). -/
inductive Command where
  | step
  | runToCompletion
  | stop
  | reset
  | undo (cycles : Nat)
  | cancelBeforeCycle
  | outside (c : OutsideCall)
deriving DecidableEq, Repr

/-- What the engine or the codec last reported to its caller or its log. -/
inductive Report where
  /-- R316: the fatal trap entry, with its cause code. -/
  | unmappedVector (code : BitVec 5)
  /-- R348: undo on a run without it, or with no recorded cycle left. -/
  | undoUnavailable
  /-- 93 row 20: undo of a number of cycles other than one. -/
  | undoNotSingleCycle
  /-- R349: "normal, not an error". -/
  | cancelled
  /-- R331: a hardware level outside 0..63. -/
  | levelRefused (level : Nat)
  /-- R346: `step()` or `runToCompletion()` outside READY. -/
  | notReady
  /-- R349: an exception of the worker thread. -/
  | workerException
  /-- R141: the word of an `encode` call. -/
  | encoded (w : Word)
  /-- R302: an `encode` call with a field out of range. -/
  | fieldRange (e : CodecFieldRange)
  /-- R140: the record of a `decode` call. -/
  | decoded (i : Instr)
deriving DecidableEq, Repr

/-- The words out of step since a write bypassed the synchronized entry point (R423), until a snooped write
touches them or the cache is cleared: two sets, as rising lists.  `next` holds those whose next fetch gives
any value (93 row 22); `stale` those whose next fetch has left an entry in the cache, which a hit returns
(R206) whatever memory holds. -/
structure OutOfStep where
  next  : List Word
  stale : List Word
deriving DecidableEq, Repr

/-- The machine.  The last eight fields are the model's own: the worker's current cycle (`singleStep`,
`executing`, `deltas`, `openEntry`), the calls still to come between cycles (`commands`) and within a cycle
(`interleaved`: one list for each gap between two of the worker's atomic steps, R71), what was reported
last (`report`), and the counter that makes free values fresh (`freeIndex`). -/
structure State where
  regs            : Regs
  mem             : Mem
  cache           : ICache
  hwPending       : List (Fin 64)
  swPending       : List SoftwareRequest
  runState        : RunState
  cycles          : Nat
  execTime        : Nat
  exitCode        : Option Int
  breakpoints     : List Word
  nextInDelaySlot : Bool
  snapshot        : Snapshot
  setup           : Setup
  inputQueue      : List InputItem
  undoLog         : List CycleRecord
  memoryLevels    : List MemoryLevel
  unsynced        : OutOfStep
  singleStep      : Bool
  executing       : Option Instr
  deltas          : List Delta
  openEntry       : Option OpenEntry
  commands        : List Command
  interleaved     : List (List OutsideCall)
  report          : Option Report
  freeIndex       : Nat
deriving DecidableEq, Repr

/-- Why the machine stops. -/
inductive Fault where
  /-- R301, raised by `step` when no definition, or no executable, exists for the fetched word.
  `final` is the state it leaves: FINISHED, nothing else changed by the fetch, and no exit code.
  Safe: R301 says a model treats it as a fault. -/
  | decodeFailure (pc raw : Word) (final : State)
deriving DecidableEq, Repr

/-- Why the model gives no meaning. -/
inductive Refusal where
  /-- Raised by the dispatcher for an instruction without a meaning; safe. No arm uses it. -/
  | notModelled (mnemonic : String)
  /-- R302, R121: raised by a meaning given a record that encodes to no word; safe. No fetched
  instruction is such a record. -/
  | codecFieldRange (e : CodecFieldRange)
  /-- R346: raised by `step` when the run is FINISHED, a terminal state, and no call is waiting; safe. -/
  | runFinished
deriving DecidableEq, Repr

/-- A step's outcome. -/
abbrev Result := Host.Outcome State Fault Refusal

/-! ## Creation and reset -/

/-- The value of `endAddr` at creation: `textBase + 4*initialEntries - 4` modulo 2^32 (R21). -/
def ICache.initialEnd (textBase : Word) (initialEntries : Nat) : Word :=
  textBase + BitVec.ofNat 32 (4 * initialEntries) - 4#32

/-- The cache at creation: every entry empty (R21, R42). -/
def ICache.create (textBase textLimit : Word) (initialEntries : Nat) : ICache where
  textBase := textBase
  textLimit := textLimit
  endAddr := ICache.initialEnd textBase initialEntries
  entries := List.replicate initialEntries none

/-- The state at creation, from the OPEN parameters; `initial` is `cop0Initial` and the program
image, and is the first snapshot (R403, R404, R410).  DESIGN CHOICE, log entry 26: no rule gives the console
input queue's first value, and it starts empty. -/
def State.create (setup : Setup) (textBase textLimit : Word) (initial : Snapshot) : State where
  regs := initial.regs
  mem := initial.mem
  cache := ICache.create textBase textLimit setup.initialEntries
  hwPending := []
  swPending := []
  runState := .ready
  cycles := 0
  execTime := 0
  exitCode := none
  breakpoints := []
  nextInDelaySlot := false
  snapshot := initial
  setup := setup
  inputQueue := []
  undoLog := []
  memoryLevels := setup.nextLevels.map (fun name => ⟨name, 0⟩)
  unsynced := ⟨[], []⟩
  singleStep := false
  executing := none
  deltas := []
  openEntry := none
  commands := []
  interleaved := []
  report := none
  freeIndex := 0

/-- DESIGN CHOICE, log entry 1: `cop0Initial` is OPEN (R8, R404), so every register is zero, but
EBase, whose bit 31 R36 gives as 1. -/
def Regs.initial : Regs where
  gpr := Vector.replicate 32 0#32
  fpr := Vector.replicate 32 0
  cop0 := ⟨0#32, 0#32, 0#32, 0#32, 0#32, 0x80000000#32, 0#32, 0#32, 0#32⟩
  pc := 0#32

/-- DESIGN CHOICE, log entries 2, 3, 5, 6, 7, 23: the OPEN parameters at reset. -/
def Setup.initial : Setup where
  table := informativeTable
  initialEntries := 4
  bigEndian := false
  interruptPolicy := .mips32
  softwarePendingCauseBit := 8
  callEvents := true
  undoConfigured := true
  nextLevels := []

/-- The machine right after reset: creation with the OPEN parameters at the values the log names.
The text segment is the one of the spec's vectors (log entry 2); memory lists nothing. -/
def State.reset : State :=
  State.create Setup.initial 0x00400000#32 0x00500000#32 ⟨Regs.initial, []⟩

end Sys2Proof.Machine
end

