-- ==== Sys2Proof/Machine/Flags.lean ====
section
/-! DEFINITION. The bit fields of the COP0 registers.  The unit has no condition codes (R31); these are
the fields the rules of the environment read or write.
Spec: 10_state.md R31, R33, R34, R36, R37; layouts [from general knowledge, not in source] there. -/

namespace Sys2Proof.Machine

/-- Replaces `w[hi:lo]` by the low bits of `v` and keeps every other bit. -/
def setField (w : Word) (hi lo : Nat) (v : Word) : Word :=
  (w &&& ~~~(maskBits (hi - lo + 1) <<< lo)) ||| ((v &&& maskBits (hi - lo + 1)) <<< lo)

/-- `w` with its field `[hi:lo]` as in `old`. -/
def copyField (w old : Word) (hi lo : Nat) : Word := setField w hi lo (old >>> lo)

/-- A Boolean as a one-bit value. -/
def bitOf (b : Bool) : Word := if b then 1#32 else 0#32

/-- Status.EXL, bit 1 (R33). -/
def statusEXL (status : Word) : Bool := status.getLsbD 1

/-- Status.ERL, bit 2 (R33). -/
def statusERL (status : Word) : Bool := status.getLsbD 2

/-- Status.IE, bit 0 (R33). -/
def statusIE (status : Word) : Bool := status.getLsbD 0

/-- Status.IM[l], bit 8 + l for l up to 7 (R33). -/
def statusIM (status : Word) (l : Nat) : Bool := decide (l ≤ 7) && status.getLsbD (8 + l)

/-- Status with EXL set to `b`. -/
def setStatusEXL (status : Word) (b : Bool) : Word := setField status 1 1 (bitOf b)

/-- Status with ERL set to `b`. -/
def setStatusERL (status : Word) (b : Bool) : Word := setField status 2 2 (bitOf b)

/-- Cause.BD, bit 31 (R34). -/
def causeBD (cause : Word) : Bool := cause.getLsbD 31

/-- Cause.ExcCode, bits 6:2 (R34). -/
def causeExcCode (cause : Word) : BitVec 5 := cause.extractLsb' 2 5

/-- The interrupt level, Cause bits 15:10 (R34; 92 D22). -/
def causeLevel (cause : Word) : BitVec 6 := cause.extractLsb' 10 6

/-- Cause with BD set to `b`. -/
def setCauseBD (cause : Word) (b : Bool) : Word := setField cause 31 31 (bitOf b)

/-- Cause with ExcCode set to `code`. -/
def setCauseExcCode (cause : Word) (code : BitVec 5) : Word := setField cause 6 2 (code.zeroExtend 32)

/-- Cause with the interrupt level set to `level`. -/
def setCauseLevel (cause : Word) (level : Fin 64) : Word :=
  setField cause 15 10 (BitVec.ofNat 32 level.val)

/-- Cause with the bit a software request flags set to 1 (R332; 92 D28). -/
def setCauseBit (cause : Word) (bit : Fin 32) : Word := setField cause bit.val bit.val 1#32

/-- `EBase_base = EBase & 0xFFFFF000` (R36; 92 D21). -/
def eBaseBase (eBase : Word) : Word := eBase &&& 0xFFFFF000#32

/-- IntCtl.VS, bits 9:5 (R37). -/
def intCtlVS (intCtl : Word) : Nat := fieldBits intCtl 9 5

end Sys2Proof.Machine
end

