-- ==== Sys2Proof/Machine/Ops.lean ====
section
/-! DEFINITION. The named operations: memory, the cache's write snoop, registers with their undo
records, the trap entry, and the return beside it.
Spec: 20_memory.md R60 to R77; 41_icache.md R210 to R215; 60_exceptions.md R310 to R318, R322, R332. -/

namespace Sys2Proof.Machine

/-! ## Memory (R60 to R68) -/

/-- What an unlisted address reads as: DESIGN CHOICE, log entry 4. -/
def Mem.unlisted : Byte := 0#8

/-- The byte at an address. -/
def Mem.readByte : Mem → Nat → Byte
  | [], _ => Mem.unlisted
  | (k, b) :: m, a => if k = a then b else Mem.readByte m a

/-- Stores a byte and keeps the canonical form. -/
def Mem.writeByte : Mem → Nat → Byte → Mem
  | [], a, v => if v = Mem.unlisted then [] else [(a, v)]
  | (k, b) :: m, a, v =>
    if a < k then (if v = Mem.unlisted then (k, b) :: m else (a, v) :: (k, b) :: m)
    else if a = k then (if v = Mem.unlisted then m else (a, v) :: m)
    else (k, b) :: Mem.writeByte m a v

/-- The canonical form from address `lo` on: addresses strictly rising within the 32-bit space, and no
byte listed that an unlisted address would read as. -/
def Mem.wfFrom : Nat → Mem → Bool
  | _, [] => true
  | lo, (k, b) :: m => decide (lo ≤ k) && decide (k < 2 ^ 32) && decide (b ≠ Mem.unlisted) && Mem.wfFrom (k + 1) m

/-- The canonical form of memory. -/
def Mem.wf (m : Mem) : Bool := Mem.wfFrom 0 m

/-- `n` bytes from `a` on, addresses modulo 2^32 (R10, R12). -/
def Mem.readBytes (m : Mem) (a : Word) : Nat → List Byte
  | 0 => []
  | n + 1 => Mem.readByte m a.toNat :: Mem.readBytes m (a + 1#32) n

/-- Stores bytes from `a` on, addresses modulo 2^32 (R10, R12). -/
def Mem.writeBytes (m : Mem) (a : Word) : List Byte → Mem
  | [] => m
  | b :: bs => Mem.writeBytes (Mem.writeByte m a.toNat b) (a + 1#32) bs

/-- `MemRead(a, n)`, zero-extended (R12, R64). -/
def State.memRead (s : State) (a : Word) (w : Width) : BitVec 64 :=
  BitVec.ofNat 64 (valueOfBytes s.setup.bigEndian (Mem.readBytes s.mem a w.bytes))

/-- `MemRead(a, 4)`, the port's word get (R63; 92 D45). -/
def State.readWord (s : State) (a : Word) : Word :=
  BitVec.ofNat 32 (valueOfBytes s.setup.bigEndian (Mem.readBytes s.mem a 4))

/-- The bytes a write of width `w` stores, in the order of rising addresses. -/
def State.storedBytes (s : State) (w : Width) (v : BitVec 64) : List Byte :=
  bytesOfValue s.setup.bigEndian w.bytes v.toNat

/-! ## The write snoop (R210 to R212) -/

/-- The index of the entry that covers a text address (R23). -/
def ICache.index (c : ICache) (a : Word) : Nat := (a.toNat - c.textBase.toNat) >>> 2

/-- Whether `wa` is a text-segment word: `textBase <= wa < textLimit` (R210, R212). -/
def ICache.isText (c : ICache) (wa : Word) : Bool :=
  decide (c.textBase.toNat ≤ wa.toNat ∧ wa.toNat < c.textLimit.toNat)

/-- `grow(i, a)` (R211). -/
def ICache.grow (c : ICache) (i : Nat) (a : Word) : ICache :=
  { c with entries := c.entries ++ List.replicate (i + 1 - c.size) none, endAddr := a }

/-- `addr & ~3`: the word that contains an address (R210). -/
def containingWord (addr : Word) : Word := addr &&& 0xFFFFFFFC#32

/-- The boundary growth for the touched word `wa` of a write at `addr` moves to: the write address for the
word that contains it, and `wa` itself for a later word of the write (R211; 92 D12).  It is R210's
`max(addr, wa)` in the order the write's words are visited, which is modulo 2^32 (log entry 20). -/
def growthEnd (addr wa : Word) : Word := if wa = containingWord addr then addr else wa

/-- The snoop's work for one touched word `wa` of a write at `addr` (R210 to R212). -/
def ICache.snoopWord (c : ICache) (addr wa : Word) : ICache :=
  if c.isText wa then
    (if c.index wa < c.size then { c with entries := c.entries.set (c.index wa) none }
     else c.grow (c.index wa) (growthEnd addr wa))
  else c

/-- The words the bytes `addr .. addr+n-1` touch, ascending modulo 2^32 (R210: `first` to `last`). -/
def touchedWords (addr : Word) (n : Nat) : List Word :=
  (List.range ((addr.toNat % 4 + n + 3) / 4)).map (fun k => containingWord addr + BitVec.ofNat 32 (4 * k))

/-- `snoopWrite(addr, n)` (R210). -/
def ICache.snoopWrite (c : ICache) (addr : Word) (n : Nat) : ICache :=
  (touchedWords addr n).foldl (fun c wa => c.snoopWord addr wa) c

/-- `clear()` (R213): every entry empty, and size and end as at creation. -/
def ICache.clear (c : ICache) (initialEntries : Nat) : ICache :=
  ICache.create c.textBase c.textLimit initialEntries

/-- An address added to a set of addresses, kept in rising order without repeats (R344). -/
def insertAddress (a : Word) : List Word → List Word
  | [] => [a]
  | b :: bs =>
    if a.toNat < b.toNat then a :: b :: bs else if a = b then b :: bs else b :: insertAddress a bs

/-- Words a bypassing write touched: the next fetch of each gives any value (R423; 93 row 22). -/
def OutOfStep.bypassed (o : OutOfStep) (words : List Word) : OutOfStep :=
  { o with next := words.foldr insertAddress o.next }

/-- Words a snooped write touched: they are in step with the cache again. -/
def OutOfStep.snooped (o : OutOfStep) (words : List Word) : OutOfStep where
  next := o.next.filter (fun wa => wa ∉ words)
  stale := o.stale.filter (fun wa => wa ∉ words)

/-- A word after the one fetch of it that gives any value, which left an entry in the cache or did not. -/
def OutOfStep.fetched (o : OutOfStep) (pc : Word) (stored : Bool) : OutOfStep where
  next := o.next.filter (fun wa => wa ≠ pc)
  stale := if stored then insertAddress pc o.stale else o.stale

/-- A store of bytes through the memory port, with its snoop, in one step (R61, R67, R210).  The words it
touches are in step with the cache again. -/
def State.portWrite (s : State) (a : Word) (bytes : List Byte) : State :=
  { s with
    mem := Mem.writeBytes s.mem a bytes
    cache := s.cache.snoopWrite a bytes.length
    unsynced := s.unsynced.snooped (touchedWords a bytes.length) }

/-- A store of bytes that bypasses the synchronized entry point: memory changes, the cache stays, and the
next fetch of a word it touches gives any value (R423; 93 row 22). -/
def State.bypassWrite (s : State) (a : Word) (bytes : List Byte) : State :=
  { s with
    mem := Mem.writeBytes s.mem a bytes
    unsynced := s.unsynced.bypassed (touchedWords a bytes.length) }

/-- `clear()` of the instruction cache, which then disagrees with no word (R213). -/
def State.clearCache (s : State) : State :=
  { s with cache := s.cache.clear s.setup.initialEntries, unsynced := ⟨[], []⟩ }

/-! ## Register storage (R27, R29, R30, R32 to R39) -/

/-- General register `i` as read; register 0 reads as zero (R27, log entry 8). -/
def Regs.readGpr (g : Regs) (i : Fin 32) : Word := if i = 0 then 0#32 else g.gpr[i]

/-- Writes general register `i`; register 0 ignores writes (R27, log entry 8). -/
def Regs.writeGpr (g : Regs) (i : Fin 32) (v : Word) : Regs :=
  if i = 0 then g else { g with gpr := g.gpr.set i v }

/-- Writes FPU register `i` (R29). -/
def Regs.writeFpr (g : Regs) (i : Fin 32) (v : Nat) : Regs := { g with fpr := g.fpr.set i v }

/-- Reads a COP0 register. -/
def Cop0.read (c : Cop0) : Cop0Reg → Word
  | .badVAddr => c.badVAddr
  | .count => c.count
  | .status => c.status
  | .cause => c.cause
  | .epc => c.epc
  | .eBase => c.eBase
  | .intCtl => c.intCtl
  | .srsCtl => c.srsCtl
  | .errorEPC => c.errorEPC

/-- Writes a COP0 register whole. -/
def Cop0.write (c : Cop0) (r : Cop0Reg) (v : Word) : Cop0 :=
  match r with
  | .badVAddr => { c with badVAddr := v }
  | .count => { c with count := v }
  | .status => { c with status := v }
  | .cause => { c with cause := v }
  | .epc => { c with epc := v }
  | .eBase => { c with eBase := v }
  | .intCtl => { c with intCtl := v }
  | .srsCtl => { c with srsCtl := v }
  | .errorEPC => { c with errorEPC := v }

/-- Writes a COP0 register of the register file. -/
def Regs.writeCop0 (g : Regs) (c : Cop0Reg) (v : Word) : Regs := { g with cop0 := Cop0.write g.cop0 c v }

/-- Writes the pc (R30). -/
def Regs.writePc (g : Regs) (v : Word) : Regs := { g with pc := v }

/-! ## Recorded writes: a register or memory write of the worker's cycle (R200, R348) -/

/-- The undo records after recording `d`: kept only in an undo-enabled run (R348, R424). -/
def State.recorded (s : State) (d : Delta) : List Delta :=
  if s.setup.undoEnabled then d :: s.deltas else s.deltas

/-- A write of general register `i` by the worker. -/
def State.setGpr (s : State) (i : Fin 32) (v : Word) : State :=
  { s with regs := Regs.writeGpr s.regs i v, deltas := s.recorded (.gpr i (Regs.readGpr s.regs i)) }

/-- A write of FPU register `i` by the worker. -/
def State.setFpr (s : State) (i : Fin 32) (v : Nat) : State :=
  { s with regs := Regs.writeFpr s.regs i v, deltas := s.recorded (.fpr i s.regs.fpr[i]) }

/-- A write of a COP0 register by the worker or the engine. -/
def State.setCop0 (s : State) (c : Cop0Reg) (v : Word) : State :=
  { s with regs := Regs.writeCop0 s.regs c v, deltas := s.recorded (.cop0 c (Cop0.read s.regs.cop0 c)) }

/-- A write of the pc by the worker or the engine. -/
def State.setPc (s : State) (v : Word) : State :=
  { s with regs := Regs.writePc s.regs v, deltas := s.recorded (.pc s.regs.pc) }

/-- A write through the memory port by the worker.  The event-suppression flag stops the undo record
and not the snoop (R77, R215; 92 D15). -/
def State.memWrite (s : State) (a : Word) (w : Width) (v : BitVec 64) (suppressEvents : Bool) : State :=
  { s.portWrite a (s.storedBytes w v) with
    deltas := if suppressEvents then s.deltas else s.recorded (.mem a w (s.memRead a w)) }

/-- `requestSoftware(exc)`: appended to the queue, and the OPEN Cause bit set (R332). -/
def State.requestSoftware (s : State) (q : SoftwareRequest) : State :=
  { s.setCop0 .cause (setCauseBit s.regs.cop0.cause s.setup.softwarePendingCauseBit) with
    swPending := s.swPending ++ [q] }

/-- `requestExit(code)`: FINISHED, the code recorded, no register side effect (R347).  DESIGN CHOICE, log
entry 30: no rule gives the code's width or range (R304 bounds R316's codes only), and any integer is
recorded as it is. -/
def State.requestExit (s : State) (code : Int) : State :=
  { s with runState := .finished, exitCode := some code }

/-! ## Taking an exception or interrupt (R310 to R316), and the return (R322) -/

/-- The offset of the vector, first match wins (R313; 92 D23, D24). -/
def vectorOffset (wasEXL : Bool) (code : BitVec 5) (level : Fin 64) (intCtl : Word) : Word :=
  if wasEXL then 0x180#32
  else if code = 30#5 then 0x100#32
  else if code = 0#5 then 0x200#32 + BitVec.ofNat 32 (level.val * (intCtlVS intCtl <<< 5))
  else 0x180#32

/-- The vector's address: `EBase_base + offset` modulo 2^32 (R313). -/
def vectorTarget (c : Cop0) (code : BitVec 5) (level : Fin 64) : Word :=
  eBaseBase c.eBase + vectorOffset (statusEXL c.status) code level c.intCtl

/-- R311: EPC and Cause.BD, written only when Status.EXL was 0 at entry. -/
def State.saveRestart (s : State) (inDelaySlot : Bool) (pc : Word) : State :=
  if statusEXL s.regs.cop0.status then s
  else (s.setCop0 .epc (if inDelaySlot then pc - 4#32 else pc)).setCop0 .cause
    (setCauseBD s.regs.cop0.cause inDelaySlot)

/-- R312: Cause.ExcCode, the interrupt level in Cause, and Status.EXL, written at every entry. -/
def State.recordCause (s : State) (code : BitVec 5) (level : Fin 64) : State :=
  (s.setCop0 .cause (setCauseLevel (setCauseExcCode s.regs.cop0.cause code) level)).setCop0 .status
    (setStatusEXL s.regs.cop0.status true)

/-- R315: BadVAddr, written only if the exception carries a bad address. -/
def State.recordBadAddr (s : State) : Option Word → State
  | some b => s.setCop0 .badVAddr b
  | none => s

/-- R316: a zero word at the vector ends the run; the entry's writes stay. -/
def State.checkVector (s : State) (target : Word) (code : BitVec 5) : State :=
  if s.readWord target = 0#32 then
    { s with runState := .finished, exitCode := some (0x1000 + (code.toNat : Int)), report := some (.unmappedVector code) }
  else s

/-- `invokeInterrupt(code, exc, inDelaySlot, pc, level)`: the one entry point of every exception and
interrupt (R310).  EXL is read at entry (R311, 90 C1); `badAddr` is the bad address `exc` carries. -/
def State.invokeInterrupt (s : State) (code : BitVec 5) (badAddr : Option Word) (inDelaySlot : Bool)
    (pc : Word) (level : Fin 64) : State :=
  ((((s.saveRestart inDelaySlot pc).recordCause code level).setPc
    (vectorTarget s.regs.cop0 code level)).recordBadAddr badAddr).checkVector
    (vectorTarget s.regs.cop0 code level) code

/-- What a trap entry wrote, taken back: the registers and the fields of Status and Cause that R311 to R315
name are as in `old`, and every other bit stays. -/
def Cop0.withoutEntry (now old : Cop0) : Cop0 :=
  { now with
    epc := old.epc
    badVAddr := old.badVAddr
    status := copyField now.status old.status 1 1
    cause := copyField (copyField (copyField now.cause old.cause 31 31) old.cause 15 10) old.cause 6 2 }

/-- The return of R322: from ErrorEPC, clearing ERL, when ERL is 1, else from EPC, clearing EXL. -/
def State.returnFromException (s : State) : State :=
  if statusERL s.regs.cop0.status then
    (s.setPc s.regs.cop0.errorEPC).setCop0 .status (setStatusERL s.regs.cop0.status false)
  else (s.setPc s.regs.cop0.epc).setCop0 .status (setStatusEXL s.regs.cop0.status false)

end Sys2Proof.Machine
end

