-- ==== Sys2Proof/Machine/Operands.lean ====
section
/-! DEFINITION. The operand forms: what the codec hands to an executable, per format.
Spec: 30_encoding.md R115, R116; 40_codec.md R151, R160 to R165. -/

namespace Sys2Proof.Machine

/-- R116: which register file a field's number names, by the field's name. -/
def regRef : FieldName → Int → Option RegRef
  | .rs, n => some (.general n)
  | .rt, n => some (.general n)
  | .rd, n => some (.general n)
  | .base, n => some (.general n)
  | .fs, n => some (.fpu n)
  | .ft, n => some (.fpu n)
  | .fd, n => some (.fpu n)
  | .opcode, _ => none
  | .shamt, _ => none
  | .funct, _ => none
  | .sop, _ => none
  | .imm, _ => none
  | .offset, _ => none
  | .zero, _ => none
  | .fmt, _ => none
  | .sub, _ => none
  | .func, _ => none

/-- The register operands of a word in a format, in table order (R116). -/
def regOperands (F : Format) (w : Word) : List (FieldName × RegRef) :=
  F.fields.filterMap (fun f => (regRef f.name (f.decode w)).map (fun r => (f.name, r)))

/-- The operands of a format without accessors beyond its fields. -/
def plainOperands (F : Format) (w pc : Word) : Operands where
  fields := decode F w
  word := w
  pc := pc
  regs := regOperands F w
  uimm := none
  rel := none
  target := none
  soffset := none

/-- The operands of I16, RI and PCREL16: with the unsigned immediate (R162). -/
def immediateOperands (F : Format) (w pc : Word) : Operands :=
  { plainOperands F w pc with uimm := some (uimm w) }

/-- The operands of J and I26: with the raw relative field and the absolute target (R160, R161). -/
def jumpOperands (F : Format) (w pc : Word) : Operands :=
  { plainOperands F w pc with rel := some (rel w), target := some (absTarget w pc) }

/-- The operands of I9: with the signed offset (R151). -/
def offsetOperands (w pc : Word) : Operands :=
  { plainOperands .i9 w pc with soffset := some (soffsetI9 w) }

/-- The operands each format's arm hands over. -/
def operandsOf : Format → Word → Word → Operands
  | .r => plainOperands .r
  | .rsop => plainOperands .rsop
  | .i16 => immediateOperands .i16
  | .i21 => plainOperands .i21
  | .i26 => jumpOperands .i26
  | .j => jumpOperands .j
  | .i9 => offsetOperands
  | .rfpu => plainOperands .rfpu
  | .rifpu => plainOperands .rifpu
  | .ri => immediateOperands .ri
  | .pcrel16 => immediateOperands .pcrel16
  | .pcrel19 => plainOperands .pcrel19

end Sys2Proof.Machine
end

