-- ==== Sys2Proof/Machine/Interrupt.lean ====
section
/-! DEFINITION. The interrupt controller and the interrupt check.  Spec: 60_exceptions.md R331 to R335. -/

namespace Sys2Proof.Machine

/-- A level added to the set of pending levels, kept in rising order without repeats (R331). -/
def insertLevel (l : Fin 64) : List (Fin 64) → List (Fin 64)
  | [] => [l]
  | k :: ks => if l < k then l :: k :: ks else if l = k then k :: ks else k :: insertLevel l ks

/-- `requestHardware(level)`: a level outside 0..63 is refused and changes nothing (R331). -/
def State.requestHardware (s : State) (level : Nat) : State :=
  if h : level < 64 then { s with hwPending := insertLevel ⟨level, h⟩ s.hwPending }
  else { s with report := some (.levelRefused level) }

/-- `interruptEnabled(view, level)`: the parameter of R333; `mips32` is the condition it offers. -/
def State.interruptEnabled (s : State) (l : Fin 64) : Bool :=
  match s.setup.interruptPolicy with
  | .mips32 =>
    statusIE s.regs.cop0.status && !statusEXL s.regs.cop0.status && !statusERL s.regs.cop0.status
      && statusIM s.regs.cop0.status l.val
  | .always => true
  | .never => false
  | .other k => Config.interruptEnabled k s.regs.cop0 l

/-- `hasPending(view)` (R333). -/
def State.hasPending (s : State) : Bool :=
  !s.swPending.isEmpty || s.hwPending.any s.interruptEnabled

/-- The enabled level R334 takes: the highest. -/
def State.highestEnabled (s : State) : Option (Fin 64) :=
  (s.hwPending.filter s.interruptEnabled).getLast?

/-- `s` with the entry it is about to make for `request` noted, so that a cycle that is stopped does not
commit it (R349). -/
def State.openFor (s : State) (request : Request) : State :=
  { s with openEntry := some ⟨request, s.regs.cop0, s.regs.pc⟩ }

/-- Takes one request: the oldest software request if any, else the highest enabled hardware level; the
request is removed and its entry made (R334). -/
def State.takeRequest (s : State) : State :=
  match s.swPending with
  | q :: qs =>
    ({ s.openFor (.software q) with swPending := qs }).invokeInterrupt q.code q.badAddr q.inDelaySlot q.pc 0
  | [] =>
    match s.highestEnabled with
    | some l =>
      ({ s.openFor (.hardware l) with hwPending := s.hwPending.erase l }).invokeInterrupt 0#5 none
        s.nextInDelaySlot s.regs.pc l
    | none => s

/-- The interrupt check at the top of a cycle (R330). -/
def State.interruptCheck (s : State) : State := if s.hasPending then s.takeRequest else s

/-- The request an open entry took, pending again: at the head of the queue, or in the set. -/
def State.putBack (s : State) : Request → State
  | .hardware l => { s with hwPending := insertLevel l s.hwPending }
  | .software q => { s with swPending := q :: s.swPending }

/-- `reset()` of the controller (R335). -/
def State.resetController (s : State) : State := { s with hwPending := [], swPending := [] }

end Sys2Proof.Machine
end

