-- ==== Sys2Proof/Machine/Outside.lean ====
section
/-! DEFINITION. What acts on the machine by single atomic steps: one effect of an executable, and one call
from outside the worker, which may land between two of the worker's atomic steps.
Spec: 20_memory.md R67, R71; 40_codec.md R166; 41_icache.md R213, R215; 60_exceptions.md R331, R332,
R344, R345, R347; 70_reset_and_hazards.md R402, R423. -/

namespace Sys2Proof.Machine

/-- One effect of an executable.  Its memory writes go through the port and are snooped (R12, R66). -/
def State.applyEffect (s : State) : Effect → State
  | .read => s
  | .writeGpr i v => s.setGpr i v
  | .writeFpr i v => s.setFpr i v
  | .writeCop0 c v => s.setCop0 c v
  | .writePc v => s.setPc v
  | .memWrite a w v suppressEvents => s.memWrite a w v suppressEvents
  | .setNextInDelaySlot b => { s with nextInDelaySlot := b }
  | .requestSoftware q => s.requestSoftware q
  | .requestExit code => s.requestExit code
  | .exceptionReturn => s.returnFromException

/-! ## The outside calls -/

/-- Whether an effect is a register or memory write, which is all an outside mutation can be (R71; log
entry 22): a request has its own call, and an exit or a return is an executable's. -/
def Effect.isMutation : Effect → Bool
  | .read => false
  | .writeGpr .. => true
  | .writeFpr .. => true
  | .writeCop0 .. => true
  | .writePc _ => true
  | .memWrite .. => true
  | .setNextInDelaySlot _ => false
  | .requestSoftware _ => false
  | .requestExit _ => false
  | .exceptionReturn => false

/-- A mutation from outside the worker through the synchronized entry point: one write, snooped but
not recorded for undo (R71, R215; log entry 22). -/
def State.mutate (s : State) (e : Effect) : State :=
  if Effect.isMutation e then { s.applyEffect e with deltas := s.deltas } else s

/-- A caches-reset: every level the port enumerates is reset, and the instruction cache cleared (R402). -/
def State.cachesReset (s : State) : State :=
  { s.clearCache with memoryLevels := s.memoryLevels.map (fun m => { m with resets := m.resets + 1 }) }

/-- The result of an `encode` call (R142, R302). -/
def encodeReport (i : Instr) : Report :=
  match encode i with
  | .ok w => .encoded w
  | .error e => .fieldRange e

/-- The breakpoint set after `toggleBreakpoint(a)`: an idempotent change of whether `a` is in it (R344).
Which one is the free value `Config.toggleBreakpoint` (DESIGN CHOICE, log entry 27). -/
def toggled (a : Word) (bs : List Word) : List Word :=
  match Config.toggleBreakpoint a (bs.erase a) with
  | some true => insertAddress a bs
  | some false => bs.erase a
  | none => bs

/-- One outside call, as one atomic step (R67, R71). -/
def State.outside (s : State) : OutsideCall → State
  | .requestHardware level => s.requestHardware level
  | .requestSoftware q => { s.requestSoftware q with deltas := s.deltas }
  | .input x => { s with inputQueue := s.inputQueue ++ [x] }
  | .mutate e => s.mutate e
  | .bypassWrite a w v => s.bypassWrite a (s.storedBytes w v)
  | .cachesReset => s.cachesReset
  | .addBreakpoint a => { s with breakpoints := insertAddress a s.breakpoints }
  | .removeBreakpoint a => { s with breakpoints := s.breakpoints.erase a }
  | .toggleBreakpoint a => { s with breakpoints := toggled a s.breakpoints }
  | .encode i => { s with report := some (encodeReport i) }
  | .decode F w => { s with report := some (.decoded (decode F w)) }

/-- Whether a call is input, which wakes a blocked execute (R345). -/
def OutsideCall.isInput : OutsideCall → Bool
  | .input _ => true
  | .requestHardware _ => false
  | .requestSoftware _ => false
  | .mutate _ => false
  | .bypassWrite .. => false
  | .cachesReset => false
  | .addBreakpoint _ => false
  | .removeBreakpoint _ => false
  | .toggleBreakpoint _ => false
  | .encode _ => false
  | .decode .. => false

/-- Outside calls in the order they are made. -/
def State.outsideAll (s : State) : List OutsideCall → State
  | [] => s
  | c :: cs => (s.outside c).outsideAll cs

/-- A gap between two of the worker's atomic steps: the outside calls that land in it (R71). -/
def State.gap (s : State) : State :=
  match s.interleaved with
  | [] => s
  | calls :: later => ({ s with interleaved := later }).outsideAll calls

end Sys2Proof.Machine
end

