-- ==== Sys2Proof/Machine/Execute.lean ====
section
/-! DEFINITION. Running an executable: the effects it has, and how its run ends.  What an executable
does is the free value `Config.execution` (and `Config.continuation`); that its effects land is written here.
Spec: 00_scope.md R7; 20_memory.md R71, R72; 40_codec.md R144, R165; 60_exceptions.md R330, R332, R345, R347, R349. -/

namespace Sys2Proof.Machine

/-- What an executable can see: the registers as they read, memory, the delay-slot flag, the input. -/
def State.view (s : State) : View where
  regs := { s.regs with gpr := s.regs.gpr.set 0 (Regs.readGpr s.regs 0) }
  mem := s.mem
  bigEndian := s.setup.bigEndian
  nextInDelaySlot := s.nextInDelaySlot
  input := s.inputQueue

/-- What an executable goes on to do, from the effects of its run so far and what it has seen. -/
abbrev Continue := List Effect → List View → Continuation

/-- A run of effects, in order, with the outside calls that land after each, one batch for each gap (R71).
Where calls have landed, what remains of the run is what the executable makes of the state as it is then,
so that its reads give the latest writes (R72); where none has, the run goes on as it was. -/
def State.runBatches (next : Continue) :
    List (List OutsideCall) → List Effect → List View → Continuation → State → State × Conclusion
  | [], _, _, rest, s => (rest.effects.foldl State.applyEffect s, rest.conclusion)
  | _ :: _, _, _, ⟨[], conclusion⟩, s => (s, conclusion)
  | [] :: later, done, seen, ⟨e :: es, conclusion⟩, s =>
    State.runBatches next later (done ++ [e]) seen ⟨es, conclusion⟩ (s.applyEffect e).gap
  | (_ :: _) :: later, done, seen, ⟨e :: _, _⟩, s =>
    State.runBatches next later (done ++ [e]) ((s.applyEffect e).gap.view :: seen)
      (next (done ++ [e]) ((s.applyEffect e).gap.view :: seen)) (s.applyEffect e).gap

/-- A run that has begun: its effects, with the batches of calls that land between them. -/
def State.runEffects (s : State) (next : Continue) (rest : Continuation) : State × Conclusion :=
  State.runBatches next s.interleaved [] [s.view] rest s

/-- The end of a run that has begun: the input it consumed is taken, and a worker-thread exception leaves
FINISHED or READY (R349).  `executing` is the instruction whose run did not complete. -/
def State.conclude (s : State) (i : Instr) : Conclusion → State
  | .completed consumed => { s with executing := none, inputQueue := s.inputQueue.drop consumed }
  | .raised consumed finished =>
    { s with
      executing := some i
      inputQueue := s.inputQueue.drop consumed
      runState := if finished then .finished else .ready
      report := some .workerException }

/-- The state a run of an executable leaves.  A run that needs more input has no effect yet, and
waits (R345, R349 "no partial cycle committed"); a completed run has its effects; a worker-thread exception
leaves any registers, memory and run state (its effects are free: R349, 92 D46, 93 row 17), and the input it
popped before is gone, how much being free too (DESIGN CHOICE, log entry 14).  DESIGN CHOICE, log entry 14:
R349 says "during a cycle", and only an executable's run raises such an exception, never the interrupt check
or the fetch. -/
def State.settle (s : State) (i : Instr) (next : Continue) (x : Execution) : State :=
  match x.ending.conclusion with
  | none => { s with runState := .lockedOnInput, executing := some i }
  | some conclusion =>
    (s.runEffects next ⟨x.effects, conclusion⟩).1.conclude i (s.runEffects next ⟨x.effects, conclusion⟩).2

/-- The free value that says what the executable of a word with these operands does from here. -/
def State.execution (s : State) (ops : Operands) : Execution :=
  Config.execution s.freeIndex (s.setup.table.lookup ops.word) ops s.view

/-- The free value that says what it goes on to do after outside calls. -/
def State.continuation (s : State) (ops : Operands) : Continue :=
  Config.continuation s.freeIndex (s.setup.table.lookup ops.word) ops

/-- Runs the executable of an instruction with the operands the codec gives it. -/
def State.runExecutable (s : State) (i : Instr) (ops : Operands) : State :=
  ({ s with freeIndex := s.freeIndex + 1 }).settle i (s.continuation ops) (s.execution ops)

/-- An instruction of any format: the codec packs the record, refusing one out of range (R142,
R302), and the executable of the word runs with the operands its format has.  DESIGN CHOICE, log entry
29: the pc it is handed is the pc register at the execute. -/
def State.execute (s : State) (i : Instr) (operands : Word → Word → Operands) : Result :=
  match encode i with
  | .ok w => .next (s.runExecutable i (operands w s.regs.pc))
  | .error e => .refused (.codecFieldRange e)

end Sys2Proof.Machine
end

