-- ==== Sys2Proof/Machine/FpuForm.lean ====
section
/-! DEFINITION. The meanings of the formats RFPU, RIFPU and I9 ("FPU memory ops").  The codec carries
FPU register numbers and codes and does no floating-point arithmetic (R164).
Spec: 40_codec.md R151, R152, R153, R164. -/

namespace Sys2Proof.Machine

/-- `codec.I9` (R113, R151): the raw 9-bit offset and its signed reading. -/
def execI9 (opcode base rt offset zero funct : Int) (s : State) : Result :=
  s.execute (.i9 opcode base rt offset zero funct) offsetOperands

/-- `codec.RFPU` (R108, R152). -/
def execRfpu (opcode fmt ft fs fd funct : Int) (s : State) : Result :=
  s.execute (.rfpu opcode fmt ft fs fd funct) (plainOperands .rfpu)

/-- `codec.RIFPU` (R109, R153). -/
def execRifpu (opcode sub rt fs zero : Int) (s : State) : Result :=
  s.execute (.rifpu opcode sub rt fs zero) (plainOperands .rifpu)

end Sys2Proof.Machine
end

