-- ==== Sys2Proof/Machine/ImmediateForm.lean ====
section
/-! DEFINITION. The meanings of the formats with an immediate and no jump target: I16, I21, RI, PCREL16
and PCREL19.  The immediates are unscaled and no pc is added (R115, R165).
Spec: 40_codec.md R147, R148, R154, R155, R156, R162. -/

namespace Sys2Proof.Machine

/-- `codec.I16` (R104, R147): signed 16-bit immediate, and its unsigned reading (R162). -/
def execI16 (opcode rs rt imm : Int) (s : State) : Result :=
  s.execute (.i16 opcode rs rt imm) (immediateOperands .i16)

/-- `codec.I21` (R105, R148). -/
def execI21 (opcode rs imm : Int) (s : State) : Result :=
  s.execute (.i21 opcode rs imm) (plainOperands .i21)

/-- `codec.RI` (R110, R154), with the unsigned reading of R162. -/
def execRi (opcode rs func imm : Int) (s : State) : Result :=
  s.execute (.ri opcode rs func imm) (immediateOperands .ri)

/-- `codec.PCREL16` (R111, R155), with the unsigned reading of R162. -/
def execPcrel16 (opcode rs func imm : Int) (s : State) : Result :=
  s.execute (.pcrel16 opcode rs func imm) (immediateOperands .pcrel16)

/-- `codec.PCREL19` (R112, R156). -/
def execPcrel19 (opcode rs func imm : Int) (s : State) : Result :=
  s.execute (.pcrel19 opcode rs func imm) (plainOperands .pcrel19)

end Sys2Proof.Machine
end

