-- ==== Sys2Proof/Machine/JumpForm.lean ====
section
/-! DEFINITION. The meanings of the 26-bit formats I26 and J: the raw relative field and the absolute
target from the pc of the instruction itself (92 D7).  Spec: 40_codec.md R149, R150, R160, R161, R165. -/

namespace Sys2Proof.Machine

/-- `codec.I26` (R106, R149). -/
def execI26 (opcode imm : Int) (s : State) : Result :=
  s.execute (.i26 opcode imm) (jumpOperands .i26)

/-- `codec.J` (R107, R150). -/
def execJ (opcode imm : Int) (s : State) : Result :=
  s.execute (.j opcode imm) (jumpOperands .j)

end Sys2Proof.Machine
end

