-- ==== Sys2Proof/Machine/RegisterForm.lean ====
section
/-! DEFINITION. The meanings of the register formats R and RSOP.  Spec: 40_codec.md R145, R146, R163. -/

namespace Sys2Proof.Machine

/-- `codec.R` (R102, R145): the six fields of the word, no accessor. -/
def execR (opcode rs rt rd shamt funct : Int) (s : State) : Result :=
  s.execute (.r opcode rs rt rd shamt funct) (plainOperands .r)

/-- `codec.RSOP` (R103, R146): as R, with bits 10:6 read as the sub-operation code. -/
def execRsop (opcode rs rt rd sop funct : Int) (s : State) : Result :=
  s.execute (.rsop opcode rs rt rd sop funct) (plainOperands .rsop)

end Sys2Proof.Machine
end

