-- ==== Sys2Proof/Machine/Dispatch.lean ====
section
/-! DEFINITION. The dispatcher: one arm per constructor of `Instr`, each one call of its meaning. -/

namespace Sys2Proof.Machine

def exec (i : Instr) (s : State) : Host.Outcome State Fault Refusal :=
  match i with
  | .r opcode rs rt rd shamt funct => Sys2Proof.Machine.execR opcode rs rt rd shamt funct s
  | .rsop opcode rs rt rd sop funct => Sys2Proof.Machine.execRsop opcode rs rt rd sop funct s
  | .i16 opcode rs rt imm => Sys2Proof.Machine.execI16 opcode rs rt imm s
  | .i21 opcode rs imm => Sys2Proof.Machine.execI21 opcode rs imm s
  | .i26 opcode imm => Sys2Proof.Machine.execI26 opcode imm s
  | .j opcode imm => Sys2Proof.Machine.execJ opcode imm s
  | .i9 opcode base rt offset zero funct => Sys2Proof.Machine.execI9 opcode base rt offset zero funct s
  | .rfpu opcode fmt ft fs fd funct => Sys2Proof.Machine.execRfpu opcode fmt ft fs fd funct s
  | .rifpu opcode sub rt fs zero => Sys2Proof.Machine.execRifpu opcode sub rt fs zero s
  | .ri opcode rs func imm => Sys2Proof.Machine.execRi opcode rs func imm s
  | .pcrel16 opcode rs func imm => Sys2Proof.Machine.execPcrel16 opcode rs func imm s
  | .pcrel19 opcode rs func imm => Sys2Proof.Machine.execPcrel19 opcode rs func imm s

end Sys2Proof.Machine
end

