-- ==== Sys2Proof/Machine/Fetch.lean ====
section
/-! DEFINITION. The instruction cache's fetch.  Spec: 41_icache.md R200 to R206; 10_state.md R23;
70_reset_and_hazards.md R423. -/

namespace Sys2Proof.Machine

/-- Whether an address is in the cache's bounds (R23). -/
def ICache.inBounds (c : ICache) (a : Word) : Bool :=
  decide (c.textBase.toNat ≤ a.toNat) && decide (c.index a < c.size)

/-- The cache with entry `i` filled (R202). -/
def ICache.fill (c : ICache) (i : Nat) (e : Entry) : ICache := { c with entries := c.entries.set i (some e) }

/-- The decode of a raw word at a pc by the table: the entry, or the raw word of a DecodeFailure (R203). -/
def decodeRaw (t : DecodeTable) (pc raw : Word) : Except Word Entry :=
  match t.lookup raw with
  | none => .error raw
  | some d =>
    match t.generateExecution d raw pc with
    | none => .error raw
    | some x => .ok ⟨assembleFromCode d raw, d, x⟩

/-- `freshDecode(pc)` (R203): the decode of the word memory holds at `pc`. -/
def State.freshDecode (s : State) (pc : Word) : Except Word Entry := decodeRaw s.setup.table pc (s.readWord pc)

/-- The outcomes of `fetch` (R201). -/
inductive FetchResult where
  | fetched (s : State) (e : Entry)
  | misaligned
  | failed (raw : Word)
deriving DecidableEq, Repr

/-- The state after the one fetch whose value R423 leaves free gave `e`: in bounds the cache holds `e`, as
a hit found it there (R206) or a miss stored it (R202); out of bounds nothing is stored (R205). -/
def State.freeFetched (s : State) (pc : Word) (e : Entry) : State :=
  { s with
    cache := if s.cache.inBounds pc then s.cache.fill (s.cache.index pc) e else s.cache
    unsynced := s.unsynced.fetched pc (s.cache.inBounds pc)
    freeIndex := s.freeIndex + 1 }

/-- The next fetch of a word a bypassing write touched: the decode of any word, or its failure, which leaves
the state (R423; 93 row 22; DESIGN CHOICE, log entry 22). -/
def State.fetchUnsynced (s : State) (pc : Word) : FetchResult :=
  match decodeRaw s.setup.table pc (Config.unsyncedWord s.freeIndex pc) with
  | .ok e => .fetched (s.freeFetched pc e) e
  | .error raw => .failed raw

/-- `fetch(pc)`: the alignment check, then bypass, hit or miss (R201, R202, R205, R206); only the next fetch
of a word a bypassing write touched is apart (R423). -/
def State.fetch (s : State) (pc : Word) : FetchResult :=
  if pc.toNat % 4 ≠ 0 then .misaligned
  else if pc ∈ s.unsynced.next then s.fetchUnsynced pc
  else if s.cache.inBounds pc then
    match s.cache.entries[s.cache.index pc]? with
    | some (some e) => .fetched s e
    | _ =>
      match s.freshDecode pc with
      | .ok e => .fetched { s with cache := s.cache.fill (s.cache.index pc) e } e
      | .error raw => .failed raw
  else
    match s.freshDecode pc with
    | .ok e => .fetched s e
    | .error raw => .failed raw

end Sys2Proof.Machine
end

