-- ==== Sys2Proof/Machine/Cycle.lean ====
section
/-! DEFINITION. One cycle of the engine: interrupt check, fetch, execute, count, breakpoints.
Spec: 60_exceptions.md R301, R303, R317, R330, R341, R344; 92 D34, D42. -/

namespace Sys2Proof.Machine

/-- The worker starts a cycle of a `step()` call or of a run (R346); nothing is recorded yet. -/
def State.beginCycle (s : State) (single : Bool) : State :=
  { s with runState := .running, singleStep := single, deltas := [], openEntry := none }

/-- COP0 Count after a cycle: the OPEN `countBehaviour` (R39, R341). -/
def State.advanceCount (s : State) : State :=
  s.setCop0 .count (Config.countBehaviour s.freeIndex s.regs.cop0.count)

/-- A cycle is over: its recorded changes become one undo record in an undo-enabled run (R348), whether it
is counted or not (log entry 13). -/
def State.closeCycle (s : State) (counted : Bool) : State :=
  { s with
    undoLog := if s.setup.undoEnabled then ⟨s.deltas, counted⟩ :: s.undoLog else s.undoLog
    deltas := []
    openEntry := none }

/-- The cycle counter, the execution time and Count advance (R330, R341). -/
def State.countCycle (s : State) : State :=
  { s.advanceCount.closeCycle true with
    cycles := s.cycles + 1
    execTime := s.execTime + Config.executionTime s.freeIndex
    freeIndex := s.freeIndex + 1 }

/-- A `step()` call is over: back to READY, unless the run has ended (R346). -/
def State.endStep (s : State) : State :=
  if s.runState = .running ∧ s.singleStep = true then { s with runState := .ready } else s

/-- The check at a cycle's end: a `step()` call ignores breakpoints, a run stops at one (R344). -/
def State.checkBreakpoints (s : State) : State :=
  if s.runState = .running ∧ (s.singleStep = true ∨ s.regs.pc ∈ s.breakpoints) then
    { s with runState := .ready } else s

/-- After execute.  A run that waits for input keeps its cycle open; one that raised in the worker
ends it uncounted (log entry 14); a completed one is counted (R330). -/
def State.finishCycle (s : State) : State :=
  if s.executing = none then s.countCycle.checkBreakpoints
  else if s.runState = .lockedOnInput then s
  else ({ s with executing := none }).closeCycle false

/-- What a step adds around the execute of a cycle. -/
def finishResult : Result → Result
  | .next t => .next t.finishCycle
  | .fault f => .fault f
  | .refused r => .refused r

/-- The request a misaligned fetch raises: AdEL with the pc as bad address (R303, 92 D35). -/
def State.fetchAddressError (s : State) : SoftwareRequest where
  code := 4#5
  badAddr := some s.regs.pc
  pc := s.regs.pc
  inDelaySlot := s.nextInDelaySlot

/-- A cycle from its fetch on, with the outside calls that land between the fetch and the execute (R330,
R71).  DESIGN CHOICE, log entry 29: a pc such a call moves is the one the executable is handed. -/
def State.fetchAndExecute (s : State) : Result :=
  match s.fetch s.regs.pc with
  | .misaligned => .next ((s.requestSoftware s.fetchAddressError).countCycle.endStep)
  | .failed raw => .fault (.decodeFailure s.regs.pc raw (({ s with runState := .finished }).closeCycle false))
  | .fetched t e => finishResult (exec (decode e.defn.format e.raw.value) t.gap)

/-- A cycle from the interrupt check on, with the outside calls that land before the fetch (R330, R71). -/
def State.cycleBody (s : State) : Result :=
  if s.runState = .finished then .next (s.closeCycle false) else s.gap.fetchAndExecute

/-- One cycle of a `step()` call (`single`) or of a run (R330). -/
def State.cycle (s : State) (single : Bool) : Result := (s.beginCycle single).interruptCheck.cycleBody

/-- The input a blocked execute waits for has arrived: it runs again with the longer queue
(R345), and with the pc as it then stands (DESIGN CHOICE, log entry 29). -/
def State.resume (s : State) : Result :=
  match s.runState, s.executing with
  | .lockedOnInput, some i => finishResult (exec i { s with runState := .running })
  | _, _ => .next s

end Sys2Proof.Machine
end

