-- ==== Sys2Proof/Machine/Engine.lean ====
section
/-! DEFINITION. The controller's calls: step, run, stop, reset and undo.
Spec: 20_memory.md R71; 41_icache.md R213, R214; 60_exceptions.md R344 to R349;
70_reset_and_hazards.md R401, R428. -/

namespace Sys2Proof.Machine

/-- `reset()` (R401), in the order given there; the breakpoint set is not changed. -/
def State.resetEngine (s : State) : State :=
  { s.resetController with
    regs := s.snapshot.regs
    mem := s.snapshot.mem
    cache := s.cache.clear s.setup.initialEntries
    unsynced := ⟨[], []⟩
    nextInDelaySlot := false
    cycles := 0
    execTime := 0
    exitCode := none
    runState := .ready
    undoLog := []
    executing := none
    deltas := []
    openEntry := none }

/-- One recorded change taken back; a memory change through the port, snooped (R214, R348). -/
def State.undoDelta (s : State) : Delta → State
  | .gpr i old => { s with regs := Regs.writeGpr s.regs i old }
  | .fpr i old => { s with regs := Regs.writeFpr s.regs i old }
  | .cop0 c old => { s with regs := Regs.writeCop0 s.regs c old }
  | .pc old => { s with regs := Regs.writePc s.regs old }
  | .mem a w old => s.portWrite a (s.storedBytes w old)

/-- Recorded changes taken back, the newest first. -/
def State.undoDeltas (s : State) : List Delta → State
  | [] => s
  | d :: ds => (s.undoDelta d).undoDeltas ds

/-- `undoLastStep()` (R348): the most recent cycle's changes taken back, and its count if it was counted
(log entry 13); refused with no change in a run without undo (R424). -/
def State.undoLastStep (s : State) : State :=
  match s.setup.undoEnabled, s.undoLog with
  | true, r :: older =>
    { s.undoDeltas r.deltas with undoLog := older, cycles := if r.counted then s.cycles - 1 else s.cycles }
  | _, _ => { s with report := some .undoUnavailable }

/-- An undo request for a number of cycles: only one is granted (R348, 93 row 20). -/
def State.undoCycles (s : State) (n : Nat) : State :=
  if n = 1 then s.undoLastStep else { s with report := some .undoNotSingleCycle }

/-- The cycle of a blocked execute taken back: nothing of it is committed (R349).  An execute that waits
has no effect yet, so what is taken back is the trap entry at the cycle's top, its request included. -/
def State.unwind (s : State) : State :=
  match s.openEntry with
  | none => { s with executing := none, deltas := [] }
  | some o =>
    { s.putBack o.request with
      regs := { s.regs with cop0 := Cop0.withoutEntry s.regs.cop0 o.cop0, pc := o.pc }
      executing := none
      deltas := []
      openEntry := none }

/-- `stop()` (R349): to READY, the cycle in progress not committed; a run not in progress stays. -/
def State.stop (s : State) : State :=
  if s.runState = .lockedOnInput then { s.unwind with runState := .ready, report := some .cancelled }
  else if s.runState = .running then { s with runState := .ready, executing := none, report := some .cancelled }
  else { s with report := some .cancelled }

/-- A call that waits for the cycle in progress to complete (R401): it goes to the end of the queue. -/
def State.defer (s : State) (c : Command) : State := { s with commands := s.commands ++ [c] }

/-- One call, as one atomic step (R71). -/
def State.perform (s : State) : Command → Result
  | .step => if s.runState = .ready then s.cycle true else .next { s with report := some .notReady }
  | .runToCompletion =>
    if s.runState = .ready then .next { s with runState := .running, singleStep := false }
    else .next { s with report := some .notReady }
  | .stop => .next s.stop
  | .reset => if s.runState = .lockedOnInput then .next (s.defer .reset) else .next s.resetEngine
  | .undo n => if s.runState = .lockedOnInput then .next (s.defer (.undo n)) else .next (s.undoCycles n)
  | .cancelBeforeCycle => .next s
  | .outside c => if c.isInput then (s.outside c).resume else .next (s.outside c)

end Sys2Proof.Machine
end

