-- ==== Sys2Proof/Machine/Step.lean ====
section
/-! DEFINITION. One step of the machine: a waiting call, or else a cycle of the worker.
Spec: 20_memory.md R71; 60_exceptions.md R330, R345, R346. -/

namespace Sys2Proof.Machine

/-- One step.  A waiting call is performed first.  With none waiting, READY makes the `step()` call,
RUNNING runs the next cycle of the run, LOCKED_ON_INPUT waits, and FINISHED is terminal. -/
def step (s : State) : Host.Outcome State Fault Refusal :=
  match s.commands with
  | c :: rest => ({ s with commands := rest }).perform c
  | [] =>
    match s.runState with
    | .ready => s.cycle true
    | .running => s.cycle false
    | .lockedOnInput => .next s
    | .finished => .refused .runFinished

/-- `s` with the word `w` (its bits above `nbits` zero) stored at the pc, through the port. -/
def State.withFetchWord (s : State) (nbits w : Nat) : State :=
  s.portWrite s.regs.pc (bytesOfValue s.setup.bigEndian 4 (w % 2 ^ nbits))

end Sys2Proof.Machine
end

