-- ==== Sys2Proof/Safety.lean ====
section
/-! DEFINITION. What a safe state is: the invariant every step keeps.
Spec: 10_state.md R24; 41_icache.md R216; 60_exceptions.md R331, R344, R345, R348; 70 R410. -/

namespace Sys2Proof

/-! ## What an executable's effects may change -/

/-- The effects of a run that land: none while it waits for input (R345, R349). -/
def Execution.landed (x : Execution) : List Effect :=
  match x.ending with
  | .needsInput => []
  | .completed _ => x.effects
  | .raised .. => x.effects

/-- Whether an effect writes COP0 register `c`: a software request sets a Cause bit (R332), and the
return of R322 clears a Status bit. -/
def Effect.writesCop0 (e : Effect) (c : Cop0Reg) : Bool :=
  match e with
  | .writeCop0 c' _ => c' == c
  | .requestSoftware _ => c == .cause
  | .exceptionReturn => c == .status
  | .read => false
  | .writeGpr .. => false
  | .writeFpr .. => false
  | .writePc _ => false
  | .memWrite .. => false
  | .setNextInDelaySlot _ => false
  | .requestExit _ => false

/-- Whether an effect writes the pc. -/
def Effect.writesPc : Effect → Bool
  | .writePc _ => true
  | .exceptionReturn => true
  | .read => false
  | .writeCop0 .. => false
  | .requestSoftware _ => false
  | .writeGpr .. => false
  | .writeFpr .. => false
  | .memWrite .. => false
  | .setNextInDelaySlot _ => false
  | .requestExit _ => false

/-- Whether an effect stores to address `x`: one of the bytes of its width from its address on, modulo
2^32. -/
def Effect.storesAt (e : Effect) (x : Nat) : Prop :=
  ∃ a w v q, e = .memWrite a w v q ∧ ∃ k < w.bytes, x = (a + BitVec.ofNat 32 k).toNat

end Sys2Proof

namespace Sys2Proof.Machine

/-- The text segment and the array's extent (R24, R410): `textBase` is a multiple of 4, and no covered
word starts at or above `textLimit`. -/
def ICache.Bounded (c : ICache) : Prop :=
  c.textBase.toNat % 4 = 0 ∧ c.textBase.toNat ≤ c.textLimit.toNat
    ∧ c.textBase.toNat + 4 * c.size ≤ c.textLimit.toNat + 3

/-- `endAddr` lies in the last covered word (R24). -/
def ICache.EndInLastWord (c : ICache) : Prop :=
  0 < c.size →
    c.textBase.toNat + 4 * (c.size - 1) ≤ c.endAddr.toNat ∧ c.endAddr.toNat + 1 ≤ c.textBase.toNat + 4 * c.size

/-- The address entry `i` covers (R23). -/
def ICache.entryAddr (c : ICache) (i : Nat) : Word := c.textBase + BitVec.ofNat 32 (4 * i)

/-- No bypassing write has put the word at `pc` out of step with the cache (R423). -/
abbrev State.InStep (s : State) (pc : Word) : Prop := pc ∉ s.unsynced.next ∧ pc ∉ s.unsynced.stale

/-- Every filled entry is the fresh decode of its word at the current memory (R24, R216), but for words a
bypassing write has put out of step (R423). -/
def State.Coherent (s : State) : Prop :=
  ∀ i e, s.cache.entries[i]? = some (some e) → s.InStep (s.cache.entryAddr i) →
    s.freshDecode (s.cache.entryAddr i) = .ok e

/-- The cache a `clear()` makes stays below `textLimit` (R410 item 3). -/
def State.ClearBounded (s : State) : Prop :=
  s.cache.textBase.toNat + 4 * s.setup.initialEntries ≤ s.cache.textLimit.toNat + 3

/-- The words out of step are two sets: rising, without repeats (R423). -/
def OutOfStep.Ordered (o : OutOfStep) : Prop :=
  o.next.Pairwise (fun a b => a.toNat < b.toNat) ∧ o.stale.Pairwise (fun a b => a.toNat < b.toNat)

/-- The controller's levels, the breakpoints and the words out of step are sets: rising, without repeats
(R331, R344, R423). -/
def State.SetsOrdered (s : State) : Prop :=
  s.hwPending.Pairwise (fun a b => a.val < b.val) ∧ s.breakpoints.Pairwise (fun a b => a.toNat < b.toNat) ∧
  s.unsynced.Ordered

/-- An execute is open only while the worker is blocked, or was when the run was ended from outside, and
then it is of a record the codec decoded (R345). -/
def State.BlockedOk (s : State) : Prop :=
  (s.runState = .lockedOnInput → s.executing ≠ none) ∧
  (s.executing ≠ none → s.runState = .lockedOnInput ∨ s.runState = .finished) ∧
  (∀ i, s.executing = some i → i.wellFormed = true)

/-- The invariant of the machine. -/
structure State.Inv (s : State) : Prop where
  memWf      : Mem.wf s.mem = true
  snapshotWf : Mem.wf s.snapshot.mem = true
  bounded    : s.cache.Bounded
  endAddr    : s.cache.EndInLastWord
  clearable  : s.ClearBounded
  coherent   : s.Coherent
  sets       : s.SetsOrdered
  blocked    : s.BlockedOk
  undoDepth  : (s.undoLog.filter CycleRecord.counted).length ≤ s.cycles

end Sys2Proof.Machine
end

