-- ==== Sys2Proof/Certificates/Slice0/Obligations.lean ====
section
/-! DEFINITION. The statements for the provers.  Each docstring names the rule of the spec it formalises;
a clause that rests on a choice of the model names its log entry. -/

open Sys2Proof Sys2Proof.Machine

/-! ## The codec -/

/-- The worked examples of R145 to R156, one word for each format, as the spec prints them. -/
def Obligations.SpecWordsDecode : Prop :=
  decode .r 0x00A018A0#32 = .r 0 5 0 3 2 0x20 ∧
  decode .rsop 0x00851098#32 = .rsop 0 4 5 2 2 0x18 ∧
  decode .i16 0x2408FFFF#32 = .i16 9 0 8 (-1) ∧
  decode .i21 0xD8955555#32 = .i21 0x36 4 (-699051) ∧
  decode .i26 0xCBFFFFFF#32 = .i26 0x32 (-1) ∧
  decode .j 0x08100003#32 = .j 2 0x100003 ∧
  decode .i9 0x7FA8FFB6#32 = .i9 0x1F 29 8 0x1FF 0 0x36 ∧
  decode .rfpu 0x46020800#32 = .rfpu 0x11 0x10 2 1 0 0 ∧
  decode .rifpu 0x44880800#32 = .rifpu 0x11 4 8 1 0 ∧
  decode .ri 0x04810003#32 = .ri 1 4 1 3 ∧
  decode .pcrel16 0xED1E1234#32 = .pcrel16 0x3B 8 0x1E 0x1234 ∧
  decode .pcrel19 0xED07FFFC#32 = .pcrel19 0x3B 8 0 (-4)

/-- R143 law 1: decoding an encoded well-formed record gives it back, and every such record encodes. -/
def Obligations.DecodeEncodeRoundTrip : Prop :=
  ∀ i : Instr, i.wellFormed = true → ∃ w, encode i = .ok w ∧ decode i.format w = i

/-- R143 law 2: a signed field given in its unsigned spelling encodes to the same word as the signed
spelling, which is what the word decodes to; for every format with a signed field. -/
def Obligations.UnsignedSpellingDecodesSigned : Prop :=
  (∀ op rs rt v, (Instr.i16 op rs rt (v - 65536)).wellFormed = true → 32768 ≤ v → v < 65536 →
    encode (.i16 op rs rt v) = encode (.i16 op rs rt (v - 65536)) ∧
    ∃ w, encode (.i16 op rs rt v) = .ok w ∧ decode .i16 w = .i16 op rs rt (v - 65536)) ∧
  (∀ op rs v, (Instr.i21 op rs (v - 2097152)).wellFormed = true → 1048576 ≤ v → v < 2097152 →
    encode (.i21 op rs v) = encode (.i21 op rs (v - 2097152)) ∧
    ∃ w, encode (.i21 op rs v) = .ok w ∧ decode .i21 w = .i21 op rs (v - 2097152)) ∧
  (∀ op v, (Instr.i26 op (v - 67108864)).wellFormed = true → 33554432 ≤ v → v < 67108864 →
    encode (.i26 op v) = encode (.i26 op (v - 67108864)) ∧
    ∃ w, encode (.i26 op v) = .ok w ∧ decode .i26 w = .i26 op (v - 67108864)) ∧
  (∀ op v, (Instr.j op (v - 67108864)).wellFormed = true → 33554432 ≤ v → v < 67108864 →
    encode (.j op v) = encode (.j op (v - 67108864)) ∧
    ∃ w, encode (.j op v) = .ok w ∧ decode .j w = .j op (v - 67108864)) ∧
  (∀ op rs func v, (Instr.ri op rs func (v - 65536)).wellFormed = true → 32768 ≤ v → v < 65536 →
    encode (.ri op rs func v) = encode (.ri op rs func (v - 65536)) ∧
    ∃ w, encode (.ri op rs func v) = .ok w ∧ decode .ri w = .ri op rs func (v - 65536)) ∧
  (∀ op rs func v, (Instr.pcrel16 op rs func (v - 65536)).wellFormed = true → 32768 ≤ v → v < 65536 →
    encode (.pcrel16 op rs func v) = encode (.pcrel16 op rs func (v - 65536)) ∧
    ∃ w, encode (.pcrel16 op rs func v) = .ok w ∧ decode .pcrel16 w = .pcrel16 op rs func (v - 65536)) ∧
  (∀ op rs func v, (Instr.pcrel19 op rs func (v - 524288)).wellFormed = true → 262144 ≤ v → v < 524288 →
    encode (.pcrel19 op rs func v) = encode (.pcrel19 op rs func (v - 524288)) ∧
    ∃ w, encode (.pcrel19 op rs func v) = .ok w ∧ decode .pcrel19 w = .pcrel19 op rs func (v - 524288))

/-- R143 laws 3 and 4: re-encoding a decoded word gives the word, in every format, so no two words decode
alike. -/
def Obligations.EncodeDecodeRoundTrip : Prop :=
  (∀ (F : Format) (w : Word), encode (decode F w) = .ok w) ∧
  (∀ (F : Format) (w w' : Word), decode F w = decode F w' → w = w')

/-- R140: a decoded record holds, field by field of its format's table, the zero- or sign-extended bits
`w[hi:lo]`, the sign extension being two's complement at the field's width. -/
def Obligations.DecodeFollowsTheTables : Prop :=
  ∀ (F : Format) (w : Word), (decode F w).format = F ∧
    (decode F w).values = F.fields.map (fun f =>
      let x : Nat := w.toNat / 2 ^ f.lo % 2 ^ f.width
      if f.kind = .s ∧ 2 ^ (f.width - 1) ≤ x then (x : Int) - 2 ^ f.width else (x : Int))

/-- R141: a record every field of which is in its legal range encodes to the OR of its masked fields at
their places, which is also their sum; the spec marks the sum as derived from R101. -/
def Obligations.EncodePlacesTheFields : Prop :=
  ∀ i : Instr,
    (∀ (k : Nat) (f : Field) (v : Int), i.format.fields[k]? = some f → i.values[k]? = some v →
      (if f.kind = .s then -(2 ^ (f.width - 1)) else (0 : Int)) ≤ v ∧ v ≤ 2 ^ f.width - 1) →
    encode i = .ok (packFields i.format.fields i.values) ∧
    ((packFields i.format.fields i.values).toNat : Int) =
      (List.zipWith (fun (f : Field) (v : Int) => v % 2 ^ f.width * 2 ^ f.lo) i.format.fields i.values).sum

/-- R142, R121: `encode` gives a word exactly when every field is in its legal range, and otherwise
raises `CodecFieldRange` with the format, and the name and value of a field outside its range (which
one of several is log entry 28, and not stated); two
records whose fields have the same bits (two spellings of a signed field) encode to the same word. -/
def Obligations.EncodeChecksEveryRange : Prop :=
  (∀ i : Instr,
    ((∃ w, encode i = .ok w) ↔
      ∀ (k : Nat) (f : Field) (v : Int), i.format.fields[k]? = some f → i.values[k]? = some v →
        (if f.kind = .s then -(2 ^ (f.width - 1)) else (0 : Int)) ≤ v ∧ v ≤ 2 ^ f.width - 1) ∧
    (∀ e, encode i = .error e → e.format = i.format ∧
      ∃ (k : Nat) (f : Field), i.format.fields[k]? = some f ∧ i.values[k]? = some e.value ∧ f.name = e.field ∧
        ¬ ((if f.kind = .s then -(2 ^ (f.width - 1)) else (0 : Int)) ≤ e.value ∧ e.value ≤ 2 ^ f.width - 1))) ∧
  (∀ (i j : Instr) (w w' : Word), i.format = j.format → encode i = .ok w → encode j = .ok w' →
    (∀ (k : Nat) (f : Field) (v v' : Int), i.format.fields[k]? = some f → i.values[k]? = some v → j.values[k]? = some v' →
      v % 2 ^ f.width = v' % 2 ^ f.width) → w = w')

/-- R160: the absolute target keeps the pc's high four bits; its low 28 bits are the field times four
plus four, the carry out of bit 27 dropped; it is a multiple of four; and the spec's example. -/
def Obligations.AbsoluteTarget : Prop :=
  (∀ w pc : Word, (absTarget w pc).toNat =
      pc.toNat / 2 ^ 28 * 2 ^ 28 + (w.toNat % 2 ^ 26 * 4 + 4) % 2 ^ 28 ∧
    (absTarget w pc).toNat % 4 = 0) ∧
  (∀ w pc : Word, w.toNat % 2 ^ 26 = 0x3FFFFFF → absTarget w pc = pc &&& 0xF0000000#32) ∧
  absTarget 0x08100003#32 0x00400000#32 = 0x00400010#32

/-- R420, whose formula the spec marks as derived: a jump word whose field is `((t - 4) & 0x0FFFFFFF) >> 2`, for a word-aligned target `t` in the
pc's region, has the absolute target `t`. -/
def Obligations.FieldForWantedTarget : Prop :=
  ∀ (w pc t : Word), t.toNat % 4 = 0 → t.toNat / 2 ^ 28 = pc.toNat / 2 ^ 28 →
    w &&& 0x3FFFFFF#32 = ((t - 4#32) &&& 0x0FFFFFFF#32) >>> 2 → absTarget w pc = t

/-- R163, which the spec marks as derived from R102 to R113: R, RSOP and RFPU read the same bits; so do I16, RI
and PCREL16; I26 and J are identical. -/
def Obligations.FormatsShareBoundaries : Prop :=
  ∀ w : Word,
    (decode .r w).values = (decode .rsop w).values ∧ (decode .r w).values = (decode .rfpu w).values ∧
    (decode .i16 w).values = (decode .ri w).values ∧ (decode .i16 w).values = (decode .pcrel16 w).values ∧
    (decode .i26 w).values = (decode .j w).values

/-- R161, R162: the raw relative-field accessor is the `imm` of I26, and of J, whose layout R163 derives to be
the same; the unsigned immediate is the zero extension of `w[15:0]`, the `imm` of I16, RI and PCREL16
modulo 2^16.  R151 (92 D5): the signed reading of the I9 offset.  With the rules' examples. -/
def Obligations.AccessorsAgreeWithFields : Prop :=
  (∀ w : Word,
    (∃ op, decode .i26 w = .i26 op (rel w)) ∧ (∃ op, decode .j w = .j op (rel w)) ∧
    uimm w = (w.toNat % 2 ^ 16 : Nat) ∧
    (∃ op rs rt imm, decode .i16 w = .i16 op rs rt imm ∧ uimm w = imm % 65536) ∧
    (∃ op rs func imm, decode .ri w = .ri op rs func imm ∧ uimm w = imm % 65536) ∧
    (∃ op rs func imm, decode .pcrel16 w = .pcrel16 op rs func imm ∧ uimm w = imm % 65536) ∧
    (∃ op base rt offset zero funct, decode .i9 w = .i9 op base rt offset zero funct ∧
      soffsetI9 w = (if offset < 256 then offset else offset - 512))) ∧
  rel 0xCBFFFFFF#32 = -1 ∧ uimm 0x2408FFFF#32 = 0xFFFF

/-! ## The instructions: where each completes, and with what operands -/

/-- R102, R103, R108, R145, R146, R152: an instruction of a six-field register format with every field in
range runs its executable with exactly these fields, word, pc and register operands, and no accessor
value.  What the executable then does is free (log entry 9). -/
def Obligations.RegisterFormatsRun : Prop :=
  ∀ (a b c d e f : Int) (s : State),
    0 ≤ a → a < 64 → 0 ≤ b → b < 32 → 0 ≤ c → c < 32 → 0 ≤ d → d < 32 → 0 ≤ e → e < 32 → 0 ≤ f → f < 64 →
    ∃ w : Word, (w.toNat : Int) = a * 2 ^ 26 + b * 2 ^ 21 + c * 2 ^ 16 + d * 2 ^ 11 + e * 2 ^ 6 + f ∧
      exec (.r a b c d e f) s = .next (s.runExecutable (.r a b c d e f)
        ⟨.r a b c d e f, w, s.regs.pc, [(.rs, .general b), (.rt, .general c), (.rd, .general d)], none, none, none, none⟩) ∧
      exec (.rsop a b c d e f) s = .next (s.runExecutable (.rsop a b c d e f)
        ⟨.rsop a b c d e f, w, s.regs.pc, [(.rs, .general b), (.rt, .general c), (.rd, .general d)], none, none, none, none⟩) ∧
      exec (.rfpu a b c d e f) s = .next (s.runExecutable (.rfpu a b c d e f)
        ⟨.rfpu a b c d e f, w, s.regs.pc, [(.ft, .fpu c), (.fs, .fpu d), (.fd, .fpu e)], none, none, none, none⟩)

/-- R104, R110, R111, R147, R154, R155, R162: an instruction with a 16-bit immediate, given in either
spelling, runs its executable with the signed immediate in the fields and the unsigned reading beside it. -/
def Obligations.SixteenBitFormatsRun : Prop :=
  ∀ (a b c v n : Int) (s : State),
    0 ≤ a → a < 64 → 0 ≤ b → b < 32 → 0 ≤ c → c < 32 → -32768 ≤ n → n < 32768 → (v = n ∨ v = n + 65536 ∧ n < 0) →
    ∃ w : Word, (w.toNat : Int) = a * 2 ^ 26 + b * 2 ^ 21 + c * 2 ^ 16 + n % 65536 ∧
      exec (.i16 a b c v) s = .next (s.runExecutable (.i16 a b c v)
        ⟨.i16 a b c n, w, s.regs.pc, [(.rs, .general b), (.rt, .general c)], some (n % 65536), none, none, none⟩) ∧
      exec (.ri a b c v) s = .next (s.runExecutable (.ri a b c v)
        ⟨.ri a b c n, w, s.regs.pc, [(.rs, .general b)], some (n % 65536), none, none, none⟩) ∧
      exec (.pcrel16 a b c v) s = .next (s.runExecutable (.pcrel16 a b c v)
        ⟨.pcrel16 a b c n, w, s.regs.pc, [(.rs, .general b)], some (n % 65536), none, none, none⟩)

/-- R105, R112, R148, R156: I21 and PCREL19, in either spelling of the immediate. -/
def Obligations.WideImmediateFormatsRun : Prop :=
  (∀ (a b v n : Int) (s : State), 0 ≤ a → a < 64 → 0 ≤ b → b < 32 → -1048576 ≤ n → n < 1048576 →
    (v = n ∨ v = n + 2097152 ∧ n < 0) →
    ∃ w : Word, (w.toNat : Int) = a * 2 ^ 26 + b * 2 ^ 21 + n % 2097152 ∧
      exec (.i21 a b v) s = .next (s.runExecutable (.i21 a b v)
        ⟨.i21 a b n, w, s.regs.pc, [(.rs, .general b)], none, none, none, none⟩)) ∧
  (∀ (a b c v n : Int) (s : State), 0 ≤ a → a < 64 → 0 ≤ b → b < 32 → 0 ≤ c → c < 4 → -262144 ≤ n → n < 262144 →
    (v = n ∨ v = n + 524288 ∧ n < 0) →
    ∃ w : Word, (w.toNat : Int) = a * 2 ^ 26 + b * 2 ^ 21 + c * 2 ^ 19 + n % 524288 ∧
      exec (.pcrel19 a b c v) s = .next (s.runExecutable (.pcrel19 a b c v)
        ⟨.pcrel19 a b c n, w, s.regs.pc, [(.rs, .general b)], none, none, none, none⟩))

/-- R106, R107, R149, R150, R160, R161: I26 and J, in either spelling, run their executables with the raw
relative field and the absolute target from the pc register, which in a cycle is the pc of the instruction
itself unless an outside call moved it after the fetch (log entry 29). -/
def Obligations.JumpFormatsRun : Prop :=
  ∀ (a v n : Int) (s : State), 0 ≤ a → a < 64 → -33554432 ≤ n → n < 33554432 →
    (v = n ∨ v = n + 67108864 ∧ n < 0) →
    ∃ w t : Word, (w.toNat : Int) = a * 2 ^ 26 + n % 67108864 ∧
      (t.toNat : Int) = (s.regs.pc.toNat / 2 ^ 28 * 2 ^ 28 : Nat) + (n * 4 + 4) % 2 ^ 28 ∧
      exec (.i26 a v) s = .next (s.runExecutable (.i26 a v) ⟨.i26 a n, w, s.regs.pc, [], none, some n, some t, none⟩) ∧
      exec (.j a v) s = .next (s.runExecutable (.j a v) ⟨.j a n, w, s.regs.pc, [], none, some n, some t, none⟩)

/-- R113, R151: I9 runs its executable with the raw offset in the fields and its signed reading beside it. -/
def Obligations.OffsetFormatRuns : Prop :=
  ∀ (a b c o z f : Int) (s : State), 0 ≤ a → a < 64 → 0 ≤ b → b < 32 → 0 ≤ c → c < 32 → 0 ≤ o → o < 512 →
    0 ≤ z → z < 2 → 0 ≤ f → f < 64 →
    ∃ w : Word, (w.toNat : Int) = a * 2 ^ 26 + b * 2 ^ 21 + c * 2 ^ 16 + o * 2 ^ 7 + z * 2 ^ 6 + f ∧
      exec (.i9 a b c o z f) s = .next (s.runExecutable (.i9 a b c o z f)
        ⟨.i9 a b c o z f, w, s.regs.pc, [(.base, .general b), (.rt, .general c)], none, none, none,
          some (if o < 256 then o else o - 512)⟩)

/-- R109, R153: RIFPU runs its executable with its fields, the eleven low bits kept. -/
def Obligations.FpuMoveFormatRuns : Prop :=
  ∀ (a b c d z : Int) (s : State), 0 ≤ a → a < 64 → 0 ≤ b → b < 32 → 0 ≤ c → c < 32 → 0 ≤ d → d < 32 →
    0 ≤ z → z < 2048 →
    ∃ w : Word, (w.toNat : Int) = a * 2 ^ 26 + b * 2 ^ 21 + c * 2 ^ 16 + d * 2 ^ 11 + z ∧
      exec (.rifpu a b c d z) s = .next (s.runExecutable (.rifpu a b c d z)
        ⟨.rifpu a b c d z, w, s.regs.pc, [(.rt, .general c), (.fs, .fpu d)], none, none, none, none⟩)

/-- R121, R302: `exec` never faults, and is refused exactly on the records `encode` refuses, with the
same `CodecFieldRange`. -/
def Obligations.ExecRefusesOnlyOutOfRange : Prop :=
  ∀ (i : Instr) (s : State),
    (∀ e, exec i s = .refused (.codecFieldRange e) ↔ encode i = .error e) ∧
    (∀ f, exec i s ≠ .fault f) ∧
    (∀ r, exec i s = .refused r → ∃ e, r = .codecFieldRange e)

/-- The frame of every instruction, of all twelve formats, and that its effects land: what its executable's
effects name becomes what these effects, one after the other, make of it, and what they do not name is
unchanged.  `landed` are the effects of the free value `Config.execution` at the operands the format
gives, at the pc register's pc (log entries 9, 29); a run that waits for input has none yet (log entry
12); register 0 reads as zero (R27, log entry 8).  The undo records, the input queue, the waiting execute, the report and the free-value
counter are the engine's and the model's own, and the last three clauses give what they become.  No
outside call lands within the instruction (R71; EffectsHappen says how one does).  Memory in its
canonical form is a premise; it is an invariant (StepKeepsInvariant).  The second clause is the landing with
outside calls within the instruction: they land between its effects, and what remains of the run after them
is the free value `Config.continuation` at what can then be seen (R71, R72; EffectsHappen says how). -/
def Obligations.ExecFrame : Prop :=
  (∀ (i : Instr) (s t : State), Mem.wf s.mem = true → s.interleaved = [] → exec i s = .next t →
    ∃ x : Execution, ∃ u : State, x = s.execution (operandsOf i.format i.pack s.regs.pc) ∧
      u = x.landed.foldl State.applyEffect s ∧
      t.regs = u.regs ∧ t.mem = u.mem ∧ t.cache = u.cache ∧ t.unsynced = u.unsynced ∧ t.swPending = u.swPending ∧
      t.nextInDelaySlot = u.nextInDelaySlot ∧ t.exitCode = u.exitCode ∧ t.deltas = u.deltas ∧
      (∀ r : Fin 32, (∀ v, Effect.writeGpr r v ∉ x.landed) → Regs.readGpr t.regs r = Regs.readGpr s.regs r) ∧
      Regs.readGpr t.regs 0 = 0#32 ∧
      (∀ r : Fin 32, (∀ v, Effect.writeFpr r v ∉ x.landed) → t.regs.fpr[r] = s.regs.fpr[r]) ∧
      (∀ c : Cop0Reg, (∀ e ∈ x.landed, e.writesCop0 c = false) → Cop0.read t.regs.cop0 c = Cop0.read s.regs.cop0 c) ∧
      ((∀ e ∈ x.landed, e.writesPc = false) → t.regs.pc = s.regs.pc) ∧
      (∀ y : Nat, (∀ e ∈ x.landed, ¬ e.storesAt y) → Mem.readByte t.mem y = Mem.readByte s.mem y) ∧
      ((∀ a w v q, Effect.memWrite a w v q ∉ x.landed) → t.cache = s.cache ∧ t.unsynced = s.unsynced) ∧
      ((∀ b, Effect.setNextInDelaySlot b ∉ x.landed) → t.nextInDelaySlot = s.nextInDelaySlot) ∧
      ((∀ q, Effect.requestSoftware q ∉ x.landed) → t.swPending = s.swPending) ∧
      ((∀ c, Effect.requestExit c ∉ x.landed) → t.exitCode = s.exitCode) ∧
      t.cache.textBase = s.cache.textBase ∧ t.cache.textLimit = s.cache.textLimit ∧ t.setup = s.setup ∧
      t.snapshot = s.snapshot ∧ t.hwPending = s.hwPending ∧ t.cycles = s.cycles ∧ t.execTime = s.execTime ∧
      t.breakpoints = s.breakpoints ∧ t.undoLog = s.undoLog ∧ t.memoryLevels = s.memoryLevels ∧
      t.singleStep = s.singleStep ∧ t.openEntry = s.openEntry ∧ t.commands = s.commands ∧ t.interleaved = [] ∧
      t.freeIndex = s.freeIndex + 1 ∧
      (∀ k, x.ending = .completed k → t.executing = none ∧ t.inputQueue = s.inputQueue.drop k ∧ t.report = s.report ∧
        t.runState = u.runState ∧ ((∀ c, Effect.requestExit c ∉ x.effects) → t.runState = s.runState)) ∧
      (x.ending = .needsInput → t = { s with runState := .lockedOnInput, executing := some i, freeIndex := s.freeIndex + 1 }) ∧
      (∀ k b, x.ending = .raised k b → t.executing = some i ∧ t.inputQueue = s.inputQueue.drop k ∧
        t.runState = (if b then .finished else .ready) ∧ t.report = some .workerException)) ∧
  (∀ (i : Instr) (s t : State) (ops : Operands) (x : Execution) (c : Conclusion) (r : State × Conclusion), exec i s = .next t →
    ops = operandsOf i.format i.pack s.regs.pc → x = s.execution ops → x.ending.conclusion = some c →
    r = ({ s with freeIndex := s.freeIndex + 1 } : State).runEffects
      (Config.continuation s.freeIndex (s.setup.table.lookup ops.word) ops) ⟨x.effects, c⟩ →
    t.regs = r.1.regs ∧ t.mem = r.1.mem ∧ t.cache = r.1.cache ∧ t.unsynced = r.1.unsynced ∧ t.swPending = r.1.swPending ∧
    t.hwPending = r.1.hwPending ∧ t.nextInDelaySlot = r.1.nextInDelaySlot ∧ t.exitCode = r.1.exitCode ∧
    t.deltas = r.1.deltas ∧ t.breakpoints = r.1.breakpoints ∧ t.memoryLevels = r.1.memoryLevels ∧
    t.interleaved = r.1.interleaved ∧
    (∀ k, r.2 = .completed k → t.executing = none ∧ t.runState = r.1.runState ∧ t.inputQueue = r.1.inputQueue.drop k) ∧
    (∀ k b, r.2 = .raised k b → t.executing = some i ∧ t.runState = (if b then .finished else .ready) ∧
      t.inputQueue = r.1.inputQueue.drop k))

/-- What each effect of an executable does when it lands (R12, R27, R30, R322, R332, R347): a register written
reads as what was written (register 0 as zero, log entry 8; an FPU register of any value, log entry 15),
the memory stored reads back (at any alignment, log entry 18), the flag, the queue and the exit code are
set, and the return is the one of ExceptionReturn (log entry 10).  The event-suppression flag changes
neither memory nor the snoop, only the undo record (R77, R215).  A read changes nothing (R68).  Between two
effects the outside calls of one gap land, each as a whole step (R71; log entry 17).  With none to come the
effects follow one another; where calls have landed, the rest of the run is what the executable makes of the
state they left, memory included, so its later reads give the latest writes (R72; log entry 9). -/
def Obligations.EffectsHappen : Prop :=
  ∀ s : State, Mem.wf s.mem = true →
    (∀ (r : Fin 32) (v : Word), Regs.readGpr (s.applyEffect (.writeGpr r v)).regs r = if r = 0 then 0#32 else v) ∧
    (∀ (r : Fin 32) (v : Nat), (s.applyEffect (.writeFpr r v)).regs.fpr[r] = v) ∧
    (∀ (c : Cop0Reg) (v : Word), Cop0.read (s.applyEffect (.writeCop0 c v)).regs.cop0 c = v) ∧
    (∀ v : Word, (s.applyEffect (.writePc v)).regs.pc = v) ∧
    (∀ (a : Word) (w : Width) (v : BitVec 64) (q : Bool),
      ((s.applyEffect (.memWrite a w v q)).memRead a w).toNat = v.toNat % 256 ^ w.bytes ∧
      (s.applyEffect (.memWrite a w v q)).cache = s.cache.snoopWrite a w.bytes ∧
      (q = true → (s.applyEffect (.memWrite a w v q)).deltas = s.deltas) ∧
      (q = false → s.setup.undoEnabled = true →
        (s.applyEffect (.memWrite a w v q)).deltas = .mem a w (s.memRead a w) :: s.deltas)) ∧
    (∀ b, (s.applyEffect (.setNextInDelaySlot b)).nextInDelaySlot = b) ∧
    (∀ q, (s.applyEffect (.requestSoftware q)).swPending = s.swPending ++ [q]) ∧
    (∀ c, (s.applyEffect (.requestExit c)).runState = .finished ∧ (s.applyEffect (.requestExit c)).exitCode = some c ∧
      (s.applyEffect (.requestExit c)).regs = s.regs) ∧
    s.applyEffect .exceptionReturn = s.returnFromException ∧
    s.applyEffect .read = s ∧
    (∀ next rest, s.interleaved = [] → s.runEffects next rest = (rest.effects.foldl State.applyEffect s, rest.conclusion)) ∧
    (∀ next rest, s.runEffects next rest = State.runBatches next s.interleaved [] [s.view] rest s) ∧
    (∀ (next : Continue) (calls : List OutsideCall) (later : List (List OutsideCall)) (done : List Effect) (seen : List View)
        (e : Effect) (es : List Effect) (c : Conclusion) (u : State), u = (s.applyEffect e).gap →
      State.runBatches next (calls :: later) done seen ⟨e :: es, c⟩ s =
        if calls = [] then State.runBatches next later (done ++ [e]) seen ⟨es, c⟩ u
        else State.runBatches next later (done ++ [e]) (u.view :: seen) (next (done ++ [e]) (u.view :: seen)) u) ∧
    s.view.mem = s.mem ∧ s.view.bigEndian = s.setup.bigEndian ∧ s.view.input = s.inputQueue ∧
    s.view.nextInDelaySlot = s.nextInDelaySlot ∧ s.view.regs.cop0 = s.regs.cop0 ∧ s.view.regs.fpr = s.regs.fpr ∧
    s.view.regs.pc = s.regs.pc ∧ (∀ r : Fin 32, s.view.regs.gpr[r] = Regs.readGpr s.regs r) ∧
    (s.interleaved = [] → s.gap = s) ∧
    (∀ cs later, s.interleaved = cs :: later → s.gap = cs.foldl State.outside { s with interleaved := later })

/-! ## Memory -/

/-- R12, R64: after a write of width `w`, byte `k` from the address holds the byte of the value that the
byte order places there, every other byte is unchanged, and a read of that width gives the value back
modulo its width.  Addresses wrap modulo 2^32.  That a misaligned or wrapping write lands whole, and the
layout of eight bytes, are log entry 18; R66 leaves alignment to the memory. -/
def Obligations.WriteThenReadByByteOrder : Prop :=
  ∀ (s : State) (a : Word) (w : Width) (v : BitVec 64), Mem.wf s.mem = true →
    (∀ k < w.bytes, (Mem.readByte (s.portWrite a (s.storedBytes w v)).mem (a + BitVec.ofNat 32 k).toNat).toNat =
      v.toNat / 256 ^ (if s.setup.bigEndian then w.bytes - 1 - k else k) % 256) ∧
    (∀ x : Nat, (∀ k < w.bytes, x ≠ (a + BitVec.ofNat 32 k).toNat) →
      Mem.readByte (s.portWrite a (s.storedBytes w v)).mem x = Mem.readByte s.mem x) ∧
    ((s.portWrite a (s.storedBytes w v)).memRead a w).toNat = v.toNat % 256 ^ w.bytes

/-! ## The instruction cache -/

/-- R218, R210: after a write of `n` bytes a covered entry is filled exactly when it was filled and the
write's bytes touch no byte of its word. -/
def Obligations.SnoopEmptiesExactlyTheTouchedEntries : Prop :=
  ∀ (c : ICache) (a : Word) (w : Width) (i : Nat) (e : Entry), c.Bounded → i < c.size →
    ((c.snoopWrite a w.bytes).entries[i]? = some (some e) ↔
      c.entries[i]? = some (some e) ∧
      ∀ k < w.bytes, ∀ j < 4, a + BitVec.ofNat 32 k ≠ c.entryAddr i + BitVec.ofNat 32 j)

/-- R211: a write whose bytes lie in one text word at or beyond the array's end makes the array end with
that word, keeps the old entries, adds empty ones, and moves `endAddr` to the write address.  A write that
crosses into a text word at or beyond the array's end makes the array end with that word and moves
`endAddr` to that second word's address; also where the write wraps and the second word is the one at 0,
its first word then covered or no text word (log entry 20). -/
def Obligations.SnoopGrowsPastTheEnd : Prop :=
  (∀ (c : ICache) (a : Word) (w : Width), a.toNat % 4 + w.bytes ≤ 4 → c.isText (containingWord a) = true →
    c.size ≤ c.index (containingWord a) →
    (c.snoopWrite a w.bytes).size = c.index (containingWord a) + 1 ∧
    (c.snoopWrite a w.bytes).endAddr = a ∧
    (∀ i < c.size, (c.snoopWrite a w.bytes).entries[i]? = c.entries[i]?) ∧
    (∀ i, c.size ≤ i → i ≤ c.index (containingWord a) → (c.snoopWrite a w.bytes).entries[i]? = some none)) ∧
  (∀ (c : ICache) (a : Word) (w : Width), c.Bounded → 4 < a.toNat % 4 + w.bytes → a.toNat % 4 + w.bytes ≤ 8 →
    (c.isText (containingWord a) = false ∨ c.index (containingWord a) < c.size ∨ a.toNat + w.bytes ≤ 2 ^ 32) →
    c.isText (containingWord a + 4#32) = true → c.size ≤ c.index (containingWord a + 4#32) →
    (c.snoopWrite a w.bytes).size = c.index (containingWord a + 4#32) + 1 ∧
    (c.snoopWrite a w.bytes).endAddr = containingWord a + 4#32)

/-- R212: a word below `textBase` or at or above `textLimit` is neither invalidated nor grown for, so a write
that touches no text-segment word changes nothing in the cache. -/
def Obligations.SnoopIgnoresOtherMemory : Prop :=
  (∀ (c : ICache) (a wa : Word), wa.toNat < c.textBase.toNat ∨ c.textLimit.toNat ≤ wa.toNat → c.snoopWord a wa = c) ∧
  (∀ (c : ICache) (a : Word) (w : Width),
    (∀ k < w.bytes, (containingWord (a + BitVec.ofNat 32 k)).toNat < c.textBase.toNat ∨
      c.textLimit.toNat ≤ (containingWord (a + BitVec.ofNat 32 k)).toNat) →
    c.snoopWrite a w.bytes = c)

/-- R216, which the spec marks as derived: in a state that meets the invariant, a fetch at an aligned pc
gives exactly the fresh decode of the current memory, hit or miss or bypass, and fails exactly when that
fails.  A word that a bypassing write put out of step is apart (R423; WrittenCodeIsFetched). -/
def Obligations.FetchEqualsFreshDecode : Prop :=
  ∀ (s : State) (pc : Word), s.Inv → pc.toNat % 4 = 0 → s.InStep pc →
    (∀ e, s.freshDecode pc = .ok e ↔ ∃ t, s.fetch pc = .fetched t e) ∧
    (∀ raw, s.freshDecode pc = .error raw ↔ s.fetch pc = .failed raw)

/-- R75, which the spec marks as derived: a word written through the port at an aligned address is the raw
word of the next fetch there, whatever the cache held before and whatever bypassed it.  R423 and 93 row
22: a write that bypasses the synchronized entry changes memory and leaves the cache, and the next fetch of
a word it touched is the decode of a free word (log entry 22).  Only that one: after a fetch the next is a
hit of the same entry in bounds (R206), and out of bounds reads memory (R205), nothing having been stored. -/
def Obligations.WrittenCodeIsFetched : Prop :=
  (∀ (s t : State) (pc w : Word) (e : Entry), s.Inv → pc.toNat % 4 = 0 →
    (s.portWrite pc (s.storedBytes .word (w.zeroExtend 64))).fetch pc = .fetched t e → e.raw.value = w) ∧
  (∀ (s t : State) (a : Word) (w : Width) (v : BitVec 64) (pc : Word), t = s.outside (.bypassWrite a w v) →
    t.mem = (s.portWrite a (s.storedBytes w v)).mem ∧ t.cache = s.cache ∧ t.unsynced.stale = s.unsynced.stale ∧
    (pc ∈ t.unsynced.next ↔ pc ∈ s.unsynced.next ∨ ∃ k < w.bytes, pc = containingWord (a + BitVec.ofNat 32 k))) ∧
  (∀ (s : State) (pc : Word), pc.toNat % 4 = 0 → pc ∈ s.unsynced.next →
    (∀ e, decodeRaw s.setup.table pc (Config.unsyncedWord s.freeIndex pc) = .ok e →
      ∃ t, s.fetch pc = .fetched t e ∧
        t = { s with cache := t.cache, unsynced := t.unsynced, freeIndex := s.freeIndex + 1 }) ∧
    (∀ raw, decodeRaw s.setup.table pc (Config.unsyncedWord s.freeIndex pc) = .error raw → s.fetch pc = .failed raw)) ∧
  (∀ (s t : State) (pc : Word) (e : Entry), s.fetch pc = .fetched t e →
    pc ∉ t.unsynced.next ∧ (∀ x, x ≠ pc → (x ∈ t.unsynced.next ↔ x ∈ s.unsynced.next)) ∧
    (s.cache.inBounds pc = true → t.fetch pc = .fetched t e) ∧
    (s.cache.inBounds pc = false → t.cache = s.cache ∧ t.unsynced.stale = s.unsynced.stale ∧
      (∀ e', s.freshDecode pc = .ok e' → t.fetch pc = .fetched t e') ∧
      (∀ raw, s.freshDecode pc = .error raw → t.fetch pc = .failed raw)))

/-- R201, R202, R205, R206: the cases of `fetch`: misaligned, bypass, hit, miss, and the failures of the last
two; a failure leaves the state, the entry included, as it was.  For every fetch but the next one of a word
a bypassing write touched (WrittenCodeIsFetched has that one). -/
def Obligations.FetchCases : Prop :=
  ∀ (s : State) (pc : Word), pc ∉ s.unsynced.next →
    (pc.toNat % 4 ≠ 0 → s.fetch pc = .misaligned) ∧
    (s.cache.inBounds pc = true ↔ s.cache.textBase.toNat ≤ pc.toNat ∧ (pc.toNat - s.cache.textBase.toNat) / 4 < s.cache.size) ∧
    (pc.toNat % 4 = 0 → s.cache.inBounds pc = false → ∀ e, s.freshDecode pc = .ok e → s.fetch pc = .fetched s e) ∧
    (pc.toNat % 4 = 0 → s.cache.inBounds pc = false → ∀ raw, s.freshDecode pc = .error raw → s.fetch pc = .failed raw) ∧
    (pc.toNat % 4 = 0 → s.cache.inBounds pc = true → ∀ e, s.cache.entries[s.cache.index pc]? = some (some e) →
      s.fetch pc = .fetched s e) ∧
    (pc.toNat % 4 = 0 → s.cache.inBounds pc = true → s.cache.entries[s.cache.index pc]? = some none → ∀ e,
      s.freshDecode pc = .ok e →
      s.fetch pc = .fetched { s with cache := { s.cache with entries := s.cache.entries.set (s.cache.index pc) (some e) } } e) ∧
    (pc.toNat % 4 = 0 → s.cache.inBounds pc = true → s.cache.entries[s.cache.index pc]? = some none → ∀ raw,
      s.freshDecode pc = .error raw → s.fetch pc = .failed raw)

/-- R213: `clear()` empties every entry and restores the size and the end of creation.  R402, R61: a
caches-reset clears the instruction cache and resets every memory level the port enumerates (log entry
23). -/
def Obligations.ClearRestoresCreation : Prop :=
  (∀ (c : ICache) (n : Nat), (c.clear n).size = n ∧ (∀ i < n, (c.clear n).entries[i]? = some none) ∧
    (c.clear n).textBase = c.textBase ∧ (c.clear n).textLimit = c.textLimit ∧
    (c.clear n).endAddr = c.textBase + BitVec.ofNat 32 (4 * n) - 4#32) ∧
  (∀ s : State, ∃ t, s.perform (.outside .cachesReset) = .next t ∧ t.cache = s.cache.clear s.setup.initialEntries ∧
    t.memoryLevels.map MemoryLevel.name = s.memoryLevels.map MemoryLevel.name ∧
    t.memoryLevels.map MemoryLevel.resets = s.memoryLevels.map (fun m => m.resets + 1) ∧
    t.unsynced = ⟨[], []⟩ ∧ t.regs = s.regs ∧ t.mem = s.mem ∧ t.runState = s.runState)

/-! ## The invariant -/

/-- Creation with an aligned text segment, a size that fits it (R410 items 2 and 3) and a canonical
memory meets the invariant. -/
def Obligations.CreationMeetsInvariant : Prop :=
  ∀ (setup : Setup) (base limit : Word) (initial : Snapshot), base.toNat % 4 = 0 → base.toNat ≤ limit.toNat →
    base.toNat + 4 * setup.initialEntries ≤ limit.toNat + 3 → Mem.wf initial.mem = true →
    (State.create setup base limit initial).Inv

/-- The reset state meets the invariant.  Its registers, text segment, parameters and decode table are the
model's choices (log entries 1 to 7). -/
def Obligations.ResetMeetsInvariant : Prop := State.reset.Inv

/-- R24, R216: every step keeps the invariant: canonical memory, the cache's bounds and its coherence with
memory, the ordered request, breakpoint and out-of-step sets, whatever executables and outside calls do;
and the state a DecodeFailure leaves meets it too.  Words a bypassing write put out of step are out of
coherence (R423). -/
def Obligations.StepKeepsInvariant : Prop :=
  ∀ s : State, s.Inv → (∀ t, step s = .next t → t.Inv) ∧
    (∀ pc raw t, step s = .fault (.decodeFailure pc raw t) → t.Inv)

/-- In a state that meets the invariant a step is refused only when the run is FINISHED and no call
waits, and faults only with a DecodeFailure of a word that the table does not decode: memory's word at the
pc, or, for the next fetch after a bypassing write, the free one (R301, R346, R423). -/
def Obligations.StepStopsOnlyWhereTheSpecDoes : Prop :=
  ∀ s : State, s.Inv →
    (∀ r, step s = .refused r → r = .runFinished ∧ s.commands = [] ∧ s.runState = .finished) ∧
    (∀ f, step s = .fault f → ∃ pc raw t, f = .decodeFailure pc raw t ∧ pc.toNat % 4 = 0 ∧
      decodeRaw t.setup.table pc raw = .error raw ∧ (raw = t.readWord pc ∨ pc ∈ t.unsynced.next) ∧
      t.regs.pc = pc ∧ t.runState = .finished)

/-- R8, R42, R204: no step changes the parameters, the text segment's bounds or the snapshot. -/
def Obligations.StepKeepsParameters : Prop :=
  ∀ s t : State, step s = .next t → t.setup = s.setup ∧ t.snapshot = s.snapshot ∧
    t.cache.textBase = s.cache.textBase ∧ t.cache.textLimit = s.cache.textLimit

/-- R341: a step with no call waiting leaves the cycle counter or adds one to it. -/
def Obligations.StepCountsAtMostOneCycle : Prop :=
  ∀ s t : State, s.commands = [] → step s = .next t → t.cycles = s.cycles ∨ t.cycles = s.cycles + 1

/-! ## Taking an exception or interrupt -/

/-- R311: EPC and Cause.BD are written exactly when Status.EXL was 0 at entry. -/
def Obligations.TrapSavesRestartUnlessNested : Prop :=
  ∀ (s : State) (code : BitVec 5) (bad : Option Word) (ds : Bool) (pc : Word) (level : Fin 64),
    (statusEXL s.regs.cop0.status = false →
      (s.invokeInterrupt code bad ds pc level).regs.cop0.epc = (if ds then pc - 4#32 else pc) ∧
      causeBD (s.invokeInterrupt code bad ds pc level).regs.cop0.cause = ds) ∧
    (statusEXL s.regs.cop0.status = true →
      (s.invokeInterrupt code bad ds pc level).regs.cop0.epc = s.regs.cop0.epc ∧
      causeBD (s.invokeInterrupt code bad ds pc level).regs.cop0.cause = causeBD s.regs.cop0.cause)

/-- R312: every entry writes Cause.ExcCode, the level into Cause[15:10] and 1 into Status.EXL; no other
Status or Cause bit but BD (R311) changes, and no general register. -/
def Obligations.TrapRecordsCause : Prop :=
  ∀ (s t : State) (code : BitVec 5) (bad : Option Word) (ds : Bool) (pc : Word) (level : Fin 64),
    t = s.invokeInterrupt code bad ds pc level →
    causeExcCode t.regs.cop0.cause = code ∧ (causeLevel t.regs.cop0.cause).toNat = level.val ∧
    statusEXL t.regs.cop0.status = true ∧
    (∀ k < 32, k ≠ 1 → t.regs.cop0.status.getLsbD k = s.regs.cop0.status.getLsbD k) ∧
    (∀ k < 31, ¬ (2 ≤ k ∧ k ≤ 6) → ¬ (10 ≤ k ∧ k ≤ 15) →
      t.regs.cop0.cause.getLsbD k = s.regs.cop0.cause.getLsbD k) ∧
    t.regs.gpr = s.regs.gpr

/-- R313: the vector, with EXL as it was at entry (R311, conflict C1); the sums and the product are exact
and the address is modulo 2^32. -/
def Obligations.TrapVector : Prop :=
  ∀ (s : State) (code : BitVec 5) (bad : Option Word) (ds : Bool) (pc : Word) (level : Fin 64),
    (s.invokeInterrupt code bad ds pc level).regs.pc.toNat =
      (s.regs.cop0.eBase.toNat / 4096 * 4096 +
        (if statusEXL s.regs.cop0.status then 0x180
         else if code.toNat = 30 then 0x100
         else if code.toNat = 0 then 0x200 + level.val * (s.regs.cop0.intCtl.toNat / 32 % 32 * 32)
         else 0x180)) % 2 ^ 32

/-- R314: the document's worked example. -/
def Obligations.TrapVectorExample : Prop :=
  ∀ (s : State) (bad : Option Word) (ds : Bool) (pc : Word), s.regs.cop0.eBase = 0x80000000#32 →
    statusEXL s.regs.cop0.status = false → intCtlVS s.regs.cop0.intCtl = 4 →
    (s.invokeInterrupt 0#5 bad ds pc 2).regs.pc = 0x80000300#32

/-- R315: BadVAddr takes the bad address of an exception that carries one, nested or not, and is unchanged
otherwise. -/
def Obligations.TrapBadAddress : Prop :=
  ∀ (s : State) (code : BitVec 5) (ds : Bool) (pc : Word) (level : Fin 64),
    (∀ b, (s.invokeInterrupt code (some b) ds pc level).regs.cop0.badVAddr = b) ∧
    (s.invokeInterrupt code none ds pc level).regs.cop0.badVAddr = s.regs.cop0.badVAddr

/-- R316: a zero word at the vector ends the run with exit code 0x1000 + code, reported to the log; the
entry's register writes are the same whatever memory holds, so they stay; the cache is not read; a
nonzero word leaves the run state, the exit code and the report. -/
def Obligations.UnmappedVectorEndsTheRun : Prop :=
  ∀ (s t : State) (code : BitVec 5) (bad : Option Word) (ds : Bool) (pc : Word) (level : Fin 64),
    t = s.invokeInterrupt code bad ds pc level →
    (s.readWord t.regs.pc = 0#32 →
      t.runState = .finished ∧ t.exitCode = some (0x1000 + (code.toNat : Int)) ∧ t.report = some (.unmappedVector code)) ∧
    (s.readWord t.regs.pc ≠ 0#32 → t.runState = s.runState ∧ t.exitCode = s.exitCode ∧ t.report = s.report) ∧
    t.cache = s.cache ∧
    (∀ (m : Mem) (c : ICache), (({ s with mem := m, cache := c } : State).invokeInterrupt code bad ds pc level).regs = t.regs)

/-- The frame of a trap entry (R312, R315): registers it does not name, memory, the cache and the pending
requests. -/
def Obligations.TrapFrame : Prop :=
  ∀ (s t : State) (code : BitVec 5) (bad : Option Word) (ds : Bool) (pc : Word) (level : Fin 64),
    t = s.invokeInterrupt code bad ds pc level →
    t.regs.gpr = s.regs.gpr ∧ t.regs.fpr = s.regs.fpr ∧ t.regs.cop0.eBase = s.regs.cop0.eBase ∧
    t.regs.cop0.intCtl = s.regs.cop0.intCtl ∧ t.regs.cop0.srsCtl = s.regs.cop0.srsCtl ∧
    t.regs.cop0.count = s.regs.cop0.count ∧ t.regs.cop0.errorEPC = s.regs.cop0.errorEPC ∧
    t.mem = s.mem ∧ t.cache = s.cache ∧ t.hwPending = s.hwPending ∧ t.swPending = s.swPending ∧
    t.nextInDelaySlot = s.nextInDelaySlot ∧ t.cycles = s.cycles

/-- R318, which the spec marks as derived from R311 and R313: an entry while Status.EXL is 1 keeps EPC and Cause.BD, overwrites Cause.ExcCode and the level, and
goes to `EBase_base + 0x180` whatever the cause; so of two entries in a row EPC is the first's. -/
def Obligations.NestedTrapKeepsFirstEpc : Prop :=
  (∀ (s t : State) (code : BitVec 5) (bad : Option Word) (ds : Bool) (pc : Word) (level : Fin 64),
    statusEXL s.regs.cop0.status = true → t = s.invokeInterrupt code bad ds pc level →
    t.regs.cop0.epc = s.regs.cop0.epc ∧ causeBD t.regs.cop0.cause = causeBD s.regs.cop0.cause ∧
    causeExcCode t.regs.cop0.cause = code ∧ (causeLevel t.regs.cop0.cause).toNat = level.val ∧
    t.regs.pc = (s.regs.cop0.eBase &&& 0xFFFFF000#32) + 0x180#32) ∧
  (∀ (s t : State) (c₁ c₂ : BitVec 5) (b₁ b₂ : Option Word) (d₁ d₂ : Bool) (p₁ p₂ : Word) (l₁ l₂ : Fin 64),
    t = (s.invokeInterrupt c₁ b₁ d₁ p₁ l₁).invokeInterrupt c₂ b₂ d₂ p₂ l₂ →
    t.regs.cop0.epc = (s.invokeInterrupt c₁ b₁ d₁ p₁ l₁).regs.cop0.epc)

/-- R322: the MIPS32 return, from general knowledge (log entry 10): from ErrorEPC clearing ERL when ERL is 1, else
from EPC clearing EXL; the other Status bits, the general registers and memory stay. -/
def Obligations.ExceptionReturn : Prop :=
  ∀ s : State,
    (statusERL s.regs.cop0.status = true →
      s.returnFromException.regs.pc = s.regs.cop0.errorEPC ∧ statusERL s.returnFromException.regs.cop0.status = false ∧
      ∀ k < 32, k ≠ 2 → s.returnFromException.regs.cop0.status.getLsbD k = s.regs.cop0.status.getLsbD k) ∧
    (statusERL s.regs.cop0.status = false →
      s.returnFromException.regs.pc = s.regs.cop0.epc ∧ statusEXL s.returnFromException.regs.cop0.status = false ∧
      ∀ k < 32, k ≠ 1 → s.returnFromException.regs.cop0.status.getLsbD k = s.regs.cop0.status.getLsbD k) ∧
    s.returnFromException.regs.gpr = s.regs.gpr ∧ s.returnFromException.mem = s.mem

/-! ## The interrupt controller -/

/-- R331: a request for a level of 0..63 adds it to the set and does nothing else, a second one changes
nothing, and a level outside is refused: nothing changes but the report, which is the model's own field
(log entry 17). -/
def Obligations.HardwareRequestsAreASet : Prop :=
  ∀ (s : State) (l : Nat), s.SetsOrdered →
    ((h : l < 64) → (∀ x, x ∈ (s.requestHardware l).hwPending ↔ x = ⟨l, h⟩ ∨ x ∈ s.hwPending) ∧
      (∃ ls, s.requestHardware l = { s with hwPending := ls }) ∧
      (s.requestHardware l).requestHardware l = s.requestHardware l) ∧
    (64 ≤ l → s.requestHardware l = { s with report := some (.levelRefused l) })

/-- R332: a software request goes to the end of the queue and sets the Cause bit the parameter names; no
other Cause bit, no other register, and no memory changes. -/
def Obligations.SoftwareRequestFlagsCause : Prop :=
  ∀ (s : State) (q : SoftwareRequest),
    (s.requestSoftware q).swPending = s.swPending ++ [q] ∧
    (∀ k < 32, (s.requestSoftware q).regs.cop0.cause.getLsbD k =
      (decide (k = s.setup.softwarePendingCauseBit.val) || s.regs.cop0.cause.getLsbD k)) ∧
    (s.requestSoftware q).regs.gpr = s.regs.gpr ∧ (s.requestSoftware q).regs.fpr = s.regs.fpr ∧
    (s.requestSoftware q).regs.pc = s.regs.pc ∧
    (∀ c, c ≠ .cause → Cop0.read (s.requestSoftware q).regs.cop0 c = Cop0.read s.regs.cop0 c) ∧
    (s.requestSoftware q).mem = s.mem

/-- R333: something is pending exactly when a software request is queued or a pending level is enabled.  The
MIPS32 condition is the one the rule offers for levels up to 7; that the reset state takes it, and that it
never enables a level above 7, are log entry 5. -/
def Obligations.PendingRequests : Prop :=
  ∀ s : State,
    (s.hasPending = true ↔ s.swPending ≠ [] ∨ ∃ l ∈ s.hwPending, s.interruptEnabled l = true) ∧
    (s.setup.interruptPolicy = .mips32 → ∀ l : Fin 64, (s.interruptEnabled l = true ↔
      s.regs.cop0.status.getLsbD 0 = true ∧ s.regs.cop0.status.getLsbD 1 = false ∧ s.regs.cop0.status.getLsbD 2 = false ∧
      l.val ≤ 7 ∧ s.regs.cop0.status.getLsbD (8 + l.val) = true))

/-- R334: the check takes the oldest software request if there is one; else the highest enabled level,
at the current pc and delay-slot flag; what is not taken stays; R333: with neither it changes nothing.
The model notes the request it takes, and what it is about to overwrite, in `openEntry` (log entry 12). -/
def Obligations.InterruptCheckPriority : Prop :=
  ∀ s : State, s.SetsOrdered →
    (∀ q qs, s.swPending = q :: qs →
      s.interruptCheck = ({ s with swPending := qs, openEntry := some ⟨.software q, s.regs.cop0, s.regs.pc⟩ }).invokeInterrupt
        q.code q.badAddr q.inDelaySlot q.pc 0) ∧
    (∀ l, s.swPending = [] → l ∈ s.hwPending → s.interruptEnabled l = true →
      (∀ k ∈ s.hwPending, s.interruptEnabled k = true → k ≤ l) →
      s.interruptCheck = ({ s with
        hwPending := s.hwPending.filter (fun k => decide (k ≠ l)), openEntry := some ⟨.hardware l, s.regs.cop0, s.regs.pc⟩
        }).invokeInterrupt 0#5 none s.nextInDelaySlot s.regs.pc l) ∧
    (s.swPending = [] → (∀ k ∈ s.hwPending, s.interruptEnabled k = false) → s.interruptCheck = s)

/-! ## The cycle, the engine -/

/-- A step runs the decoded instruction (R330, R203): with no call waiting, the engine READY or RUNNING,
no request to take, no outside call to land within the cycle, and an aligned pc whose word is in step with
the cache and which the table gives a definition and an executable, `step` is `exec` of the word decoded
in the definition's format, in the state the cycle's start and the fetch leave, and then the end of the
cycle (CycleEnd).  READY makes the `step()` call (log entry 11).  The second clause is the same with
outside calls within the cycle: those of one gap land before the fetch and those of the next between the
fetch and the execute (R71; log entry 17), and the word is the one the fetch found, run with the pc as the
calls leave it (log entry 29). -/
def Obligations.StepRunsDecodedInstruction : Prop :=
  (∀ (s : State) (d : Def) (x : Executable), s.Inv → s.commands = [] → (s.runState = .ready ∨ s.runState = .running) →
    s.hasPending = false → s.interleaved = [] → s.regs.pc.toNat % 4 = 0 → s.InStep s.regs.pc →
    s.setup.table.lookup (s.readWord s.regs.pc) = some d →
    s.setup.table.generateExecution d (s.readWord s.regs.pc) s.regs.pc = some x →
    ∃ c : ICache, (c = s.cache ∨ c = s.cache.fill (s.cache.index s.regs.pc)
        ⟨assembleFromCode d (s.readWord s.regs.pc), d, x⟩) ∧
      step s = finishResult (exec (decode d.format (s.readWord s.regs.pc))
        { s with
          runState := .running, singleStep := decide (s.runState = .ready), deltas := [], openEntry := none, cache := c })) ∧
  (∀ (s g t : State) (e : Entry), s.commands = [] → (s.runState = .ready ∨ s.runState = .running) → s.hasPending = false →
    g = ({ s with
      runState := .running, singleStep := decide (s.runState = .ready), deltas := [], openEntry := none } : State).gap →
    g.fetch g.regs.pc = .fetched t e →
    step s = finishResult (exec (decode e.defn.format e.raw.value) t.gap))

/-- What the end of a cycle adds (R330, R341, R344): a completed execute counts one cycle and changes no
register but Count; a `step()` call then goes to READY, a run stops at a breakpoint; a blocked execute
leaves the cycle open; one that raised in the worker is not counted and changes no register (log entry
14). -/
def Obligations.CycleEnd : Prop :=
  (∀ t : State, finishResult (.next t) = .next t.finishCycle) ∧
  (∀ t : State, t.executing = none →
    t.finishCycle.cycles = t.cycles + 1 ∧ t.finishCycle.mem = t.mem ∧ t.finishCycle.cache = t.cache ∧
    t.finishCycle.regs.gpr = t.regs.gpr ∧ t.finishCycle.regs.fpr = t.regs.fpr ∧ t.finishCycle.regs.pc = t.regs.pc ∧
    (∀ c, c ≠ .count → Cop0.read t.finishCycle.regs.cop0 c = Cop0.read t.regs.cop0 c) ∧
    (t.runState = .running → t.finishCycle.runState =
      (if t.singleStep = true ∨ t.regs.pc ∈ t.breakpoints then .ready else .running)) ∧
    (t.runState ≠ .running → t.finishCycle.runState = t.runState)) ∧
  (∀ t : State, t.executing ≠ none → t.runState = .lockedOnInput → t.finishCycle = t) ∧
  (∀ t : State, t.executing ≠ none → t.runState ≠ .lockedOnInput →
    t.finishCycle.cycles = t.cycles ∧ t.finishCycle.runState = t.runState ∧ t.finishCycle.executing = none ∧
    t.finishCycle.regs = t.regs ∧ t.finishCycle.mem = t.mem)

/-- R301: a fetched word without a definition, or without an executable, faults with the pc and the word;
the state left is FINISHED with no register, counter, memory, cache or exit code changed.  First for a
step that takes no request, then for any cycle from its interrupt check on.  That it is a fault that
carries its final state is the model's form (log entry 21); READY makes the `step()` call (log entry 11). -/
def Obligations.DecodeFailureLeavesTheMachine : Prop :=
  (∀ (s : State) (raw : Word), s.Inv → s.commands = [] → (s.runState = .ready ∨ s.runState = .running) →
    s.hasPending = false → s.interleaved = [] → s.regs.pc.toNat % 4 = 0 → s.InStep s.regs.pc →
    s.freshDecode s.regs.pc = .error raw →
    ∃ t, step s = .fault (.decodeFailure s.regs.pc raw t) ∧ raw = s.readWord s.regs.pc ∧ t.runState = .finished ∧
      t.regs = s.regs ∧ t.cycles = s.cycles ∧ t.mem = s.mem ∧ t.cache = s.cache ∧ t.exitCode = s.exitCode) ∧
  (∀ (s : State) (raw : Word), s.cache.Bounded → s.Coherent → s.runState = .running → s.interleaved = [] →
    s.regs.pc.toNat % 4 = 0 → s.InStep s.regs.pc → s.freshDecode s.regs.pc = .error raw →
    ∃ t, s.cycleBody = .fault (.decodeFailure s.regs.pc raw t) ∧ t.runState = .finished ∧
      t.regs = s.regs ∧ t.cycles = s.cycles ∧ t.mem = s.mem ∧ t.cache = s.cache ∧ t.exitCode = s.exitCode)

/-- R303: a misaligned pc touches no entry and no memory, queues the AdEL request with the pc as bad
address, and ends a counted cycle; the run goes on, and the next interrupt check takes the request.
READY makes the `step()` call (log entry 11); that such a cycle makes no breakpoint check, and a `step()`
call goes back to READY after it, is log entry 25. -/
def Obligations.MisalignedFetchQueuesRequest : Prop :=
  ∀ s : State, s.commands = [] → (s.runState = .ready ∨ s.runState = .running) → s.hasPending = false →
    s.interleaved = [] → s.regs.pc.toNat % 4 ≠ 0 →
    ∃ t, step s = .next t ∧ t.cycles = s.cycles + 1 ∧ t.mem = s.mem ∧ t.cache = s.cache ∧ t.regs.pc = s.regs.pc ∧
      t.swPending = [⟨4#5, some s.regs.pc, s.regs.pc, s.nextInDelaySlot⟩] ∧
      t.runState = s.runState ∧ t.regs.gpr = s.regs.gpr ∧ t.regs.cop0.epc = s.regs.cop0.epc ∧
      t.interruptCheck = ({ t with
        swPending := [], openEntry := some ⟨.software ⟨4#5, some s.regs.pc, s.regs.pc, s.nextInDelaySlot⟩, t.regs.cop0, t.regs.pc⟩
        }).invokeInterrupt 4#5 (some s.regs.pc) s.nextInDelaySlot s.regs.pc 0

/-- R316, R330: a cycle whose taken request finds a zero word at its vector ends there: no fetch, no
count, FINISHED with exit code 0x1000 + code.  For a software request at the head of the queue, and for the
highest enabled hardware level.  READY makes the `step()` call (log entry 11). -/
def Obligations.FatalEntryEndsTheCycle : Prop :=
  (∀ (s : State) (q : SoftwareRequest) (qs : List SoftwareRequest), s.commands = [] →
    (s.runState = .ready ∨ s.runState = .running) → s.swPending = q :: qs →
    s.readWord (vectorTarget s.regs.cop0 q.code 0) = 0#32 →
    ∃ t, step s = .next t ∧ t.runState = .finished ∧ t.exitCode = some (0x1000 + (q.code.toNat : Int)) ∧
      t.cycles = s.cycles ∧ t.cache = s.cache ∧ t.mem = s.mem ∧ t.swPending = qs ∧ t.hwPending = s.hwPending ∧
      t.regs.pc = vectorTarget s.regs.cop0 q.code 0) ∧
  (∀ (s : State) (l : Fin 64), s.SetsOrdered → s.commands = [] → (s.runState = .ready ∨ s.runState = .running) →
    s.swPending = [] → l ∈ s.hwPending → s.interruptEnabled l = true →
    (∀ k ∈ s.hwPending, s.interruptEnabled k = true → k ≤ l) →
    s.readWord (vectorTarget s.regs.cop0 0#5 l) = 0#32 →
    ∃ t, step s = .next t ∧ t.runState = .finished ∧ t.exitCode = some 0x1000 ∧
      t.cycles = s.cycles ∧ t.cache = s.cache ∧ t.mem = s.mem ∧ t.swPending = [] ∧ l ∉ t.hwPending ∧
      t.regs.pc = vectorTarget s.regs.cop0 0#5 l)

/-- R345: when input arrives, the blocked execute runs again with it in the queue, and the cycle goes on; its
registers, memory and queues have survived the wait (log entry 12), and its pc is the pc register's (log
entry 29). -/
def Obligations.InputResumesTheExecute : Prop :=
  ∀ (s : State) (x : InputItem) (rest : List Command) (i : Instr), s.commands = .outside (.input x) :: rest →
    s.runState = .lockedOnInput → s.executing = some i →
    step s = finishResult (exec i { s with commands := rest, inputQueue := s.inputQueue ++ [x], runState := .running })

/-- R345, R346: with no call waiting, LOCKED_ON_INPUT keeps all state and FINISHED is terminal. -/
def Obligations.WaitingAndFinishedRuns : Prop :=
  ∀ s : State, s.commands = [] →
    (s.runState = .lockedOnInput → step s = .next s) ∧ (s.runState = .finished → step s = .refused .runFinished)

/-- R348: undo takes back exactly one cycle.  A cycle from its interrupt check to its count, whatever
the execute did through recorded writes, and then `undoLastStep()`: registers, memory and the cycle
counter are back.  Writes made with events suppressed are not recorded (R77), nor are outside calls within
the cycle (log entry 22), so there are none.  The second clause: a cycle that a fatal entry ended is the
most recent cycle too, and undo takes back that entry alone; it was not counted.  How the record is kept,
and that an uncounted cycle's undo leaves the counter, are the model's choice (log entry 13). -/
def Obligations.UndoRestoresTheCycle : Prop :=
  (∀ (s t : State) (single : Bool) (c : ICache) (n k : Nat) (i : Instr) (next : Continue) (x : Execution),
    Mem.wf s.mem = true → s.setup.undoEnabled = true → s.interleaved = [] → x.ending = .completed k →
    (∀ a w v, Effect.memWrite a w v true ∉ x.effects) →
    t = ((({ (s.beginCycle single).interruptCheck with cache := c, freeIndex := n } : State).settle i next x).finishCycle).undoLastStep →
    t.regs = s.regs ∧ t.mem = s.mem ∧ t.cycles = s.cycles) ∧
  (∀ (s t : State) (single : Bool), Mem.wf s.mem = true → s.setup.undoEnabled = true →
    (s.beginCycle single).interruptCheck.runState = .finished → s.cycle single = .next t →
    t.undoLastStep.regs = s.regs ∧ t.undoLastStep.mem = s.mem ∧ t.undoLastStep.cycles = s.cycles ∧
    t.undoLastStep.undoLog = s.undoLog)

/-- R214: a memory change taken back is a write through the port, with its snoop, and undo never shrinks the
array. -/
def Obligations.UndoIsSnooped : Prop :=
  (∀ (s : State) (a : Word) (w : Width) (old : BitVec 64),
    (s.undoDelta (.mem a w old)).cache = s.cache.snoopWrite a w.bytes ∧
    (Mem.wf s.mem = true → ((s.undoDelta (.mem a w old)).memRead a w).toNat = old.toNat % 256 ^ w.bytes)) ∧
  (∀ s : State, s.cache.size ≤ s.undoLastStep.cache.size)

/-- R348, R424: undo in a run without it is reported and changes nothing else; so is a request for a number
of cycles other than one (93 row 20).  The report is the model's own field (log entry 17). -/
def Obligations.UndoRefused : Prop :=
  ∀ s : State,
    (s.setup.callEvents = false ∨ s.setup.undoConfigured = false →
      s.undoLastStep = { s with report := some .undoUnavailable }) ∧
    (∀ n, n ≠ 1 → s.undoCycles n = { s with report := some .undoNotSingleCycle })

/-- R401: what the engine's `reset()` restores and clears, called when no cycle is in progress; the
breakpoint set is not changed.  During a blocked cycle the call waits (log entry 13). -/
def Obligations.EngineReset : Prop :=
  ∀ (s : State) (rest : List Command), s.commands = .reset :: rest → s.runState ≠ .lockedOnInput →
    ∃ t, step s = .next t ∧ t.regs = s.snapshot.regs ∧ t.mem = s.snapshot.mem ∧
      t.cache = ICache.create s.cache.textBase s.cache.textLimit s.setup.initialEntries ∧
      t.hwPending = [] ∧ t.swPending = [] ∧ t.nextInDelaySlot = false ∧ t.cycles = 0 ∧ t.execTime = 0 ∧
      t.exitCode = none ∧ t.runState = .ready ∧ t.breakpoints = s.breakpoints ∧ t.commands = rest ∧ t.unsynced = ⟨[], []⟩

/-- R344: the three breakpoint calls, as the engine performs them: adding puts the address in the set,
removing takes it out, toggling changes at most whether the address is in it, and each made twice is made
once.  Which idempotent change the toggle makes is a free value (log entry 27), and the statement holds for
each.  None of them changes anything else. -/
def Obligations.BreakpointsAreASet : Prop :=
  ∀ (s : State) (a : Word), s.breakpoints.Pairwise (fun x y => x.toNat < y.toNat) →
    (∃ t, s.perform (.outside (.addBreakpoint a)) = .next t ∧ t = { s with breakpoints := t.breakpoints } ∧
      (∀ x, x ∈ t.breakpoints ↔ x = a ∨ x ∈ s.breakpoints) ∧ t.perform (.outside (.addBreakpoint a)) = .next t) ∧
    (∃ t, s.perform (.outside (.removeBreakpoint a)) = .next t ∧ t = { s with breakpoints := t.breakpoints } ∧
      (∀ x, x ∈ t.breakpoints ↔ x ≠ a ∧ x ∈ s.breakpoints) ∧ t.perform (.outside (.removeBreakpoint a)) = .next t) ∧
    (∃ t, s.perform (.outside (.toggleBreakpoint a)) = .next t ∧ t = { s with breakpoints := t.breakpoints } ∧
      (∀ x, x ≠ a → (x ∈ t.breakpoints ↔ x ∈ s.breakpoints)) ∧ t.perform (.outside (.toggleBreakpoint a)) = .next t)

/-- R349, R346: `stop()` brings a run, blocked or not, to READY with memory, the cache and the counter as
they stand; a run not in progress keeps its state (log entry 12).  Nothing of a partial cycle is
committed: after a cycle, up to the fetch and an execute that blocks on input, `stop()` gives back the
registers, the request queues, the delay-slot flag, the undo records and the counter as they were before
that cycle, the trap entry at its top undone. -/
def Obligations.StopUnwindsToReady : Prop :=
  (∀ s : State, s.stop.mem = s.mem ∧ s.stop.cycles = s.cycles ∧ s.stop.cache = s.cache ∧
    (s.runState = .running ∨ s.runState = .lockedOnInput → s.stop.runState = .ready ∧ s.stop.executing = none) ∧
    (s.runState ≠ .lockedOnInput → s.stop.regs = s.regs ∧ s.stop.hwPending = s.hwPending ∧ s.stop.swPending = s.swPending) ∧
    (s.runState = .ready ∨ s.runState = .finished → s.stop.runState = s.runState)) ∧
  (∀ (s t : State) (single : Bool) (c : ICache) (n : Nat) (i : Instr) (next : Continue) (x : Execution), s.SetsOrdered →
    x.ending = .needsInput →
    t = (({ (s.beginCycle single).interruptCheck with cache := c, freeIndex := n } : State).settle i next x).finishCycle →
    t.runState = .lockedOnInput ∧ t.stop.regs = s.regs ∧ t.stop.mem = s.mem ∧ t.stop.hwPending = s.hwPending ∧ t.stop.swPending = s.swPending ∧
    t.stop.nextInDelaySlot = s.nextInDelaySlot ∧ t.stop.inputQueue = s.inputQueue ∧ t.stop.cycles = s.cycles ∧
    t.stop.undoLog = s.undoLog)
end

