-- ==== Sys2Proof/Laws/Memory.lean ====
section
/-! SUPPORT. Laws of memory: read after write, the canonical form is kept, and equal contents are equal
memories. -/

namespace Sys2Proof.Machine

/-- Below its first possible address a canonical memory reads as unlisted. -/
theorem readByte_of_lt {m : Mem} {lo a : Nat} (h : Mem.wfFrom lo m = true) (ha : a < lo) :
    Mem.readByte m a = Mem.unlisted := by
  induction m generalizing lo with
  | nil => rfl
  | cons c m ih =>
    obtain ⟨k, b⟩ := c
    simp only [Mem.wfFrom, Bool.and_eq_true, decide_eq_true_eq] at h
    have hk : k ≠ a := by omega
    simp only [Mem.readByte, if_neg hk]
    exact ih h.2 (by omega)

/-- The canonical form is weaker from a lower start. -/
theorem wfFrom_mono {m : Mem} {lo lo' : Nat} (h : Mem.wfFrom lo m = true) (hl : lo' ≤ lo) :
    Mem.wfFrom lo' m = true := by
  cases m with
  | nil => rfl
  | cons c m =>
    obtain ⟨k, b⟩ := c
    simp only [Mem.wfFrom, Bool.and_eq_true, decide_eq_true_eq] at h ⊢
    exact ⟨⟨⟨by omega, h.1.1.2⟩, h.1.2⟩, h.2⟩

/-- A byte write changes the byte it names and no other. -/
theorem readByte_writeByte {m : Mem} {lo : Nat} (h : Mem.wfFrom lo m = true) (a b : Nat) (v : Byte) :
    Mem.readByte (Mem.writeByte m a v) b = if b = a then v else Mem.readByte m b := by
  induction m generalizing lo with
  | nil =>
    by_cases hv : v = Mem.unlisted <;> by_cases hb : b = a <;>
      simp [Mem.writeByte, Mem.readByte, hv, hb, Ne.symm]
  | cons c m ih =>
    obtain ⟨k, x⟩ := c
    simp only [Mem.wfFrom, Bool.and_eq_true, decide_eq_true_eq] at h
    obtain ⟨⟨⟨hlo, hk⟩, hx⟩, hm⟩ := h
    simp only [Mem.writeByte]
    by_cases h1 : a < k
    · rw [if_pos h1]
      have hka : ¬ k = a := by omega
      by_cases hv : v = Mem.unlisted
      · rw [if_pos hv]
        by_cases hb : b = a
        · subst hb
          rw [if_pos rfl, Mem.readByte, if_neg hka, readByte_of_lt hm (by omega), hv]
        · rw [if_neg hb]
      · rw [if_neg hv]
        by_cases hb : b = a
        · subst hb; simp [Mem.readByte]
        · rw [if_neg hb, Mem.readByte, if_neg (fun h => hb h.symm)]
    · rw [if_neg h1]
      by_cases h2 : a = k
      · rw [if_pos h2]
        subst h2
        by_cases hv : v = Mem.unlisted
        · rw [if_pos hv]
          by_cases hb : b = a
          · subst hb
            rw [if_pos rfl, readByte_of_lt hm (by omega), hv]
          · rw [if_neg hb, Mem.readByte, if_neg (fun h => hb h.symm)]
        · rw [if_neg hv]
          by_cases hb : b = a
          · subst hb; simp [Mem.readByte]
          · have hab : ¬ a = b := fun h => hb h.symm
            rw [if_neg hb]; simp [Mem.readByte, hab]
      · rw [if_neg h2, Mem.readByte, ih hm]
        by_cases hb : b = a
        · subst hb
          have hkb : ¬ k = b := fun h => h2 h.symm
          simp [hkb]
        · simp [Mem.readByte, hb]

/-- A byte write keeps the canonical form. -/
theorem wfFrom_writeByte {m : Mem} {lo : Nat} (h : Mem.wfFrom lo m = true) {a : Nat} (hlo : lo ≤ a)
    (ha : a < 2 ^ 32) (v : Byte) : Mem.wfFrom lo (Mem.writeByte m a v) = true := by
  induction m generalizing lo with
  | nil =>
    by_cases hv : v = Mem.unlisted
    · simp [Mem.writeByte, hv, Mem.wfFrom]
    · simp [Mem.writeByte, hv, Mem.wfFrom, hlo]; omega
  | cons c m ih =>
    obtain ⟨k, x⟩ := c
    have h' := h
    simp only [Mem.wfFrom, Bool.and_eq_true, decide_eq_true_eq] at h
    obtain ⟨⟨⟨hk0, hk⟩, hx⟩, hm⟩ := h
    simp only [Mem.writeByte]
    split
    · split
      · exact h'
      · rename_i h1 hv
        simp only [Mem.wfFrom, Bool.and_eq_true, decide_eq_true_eq]
        exact ⟨⟨⟨hlo, ha⟩, hv⟩, ⟨⟨by omega, hk⟩, hx⟩, hm⟩
    · split
      · split
        · exact wfFrom_mono hm (by omega)
        · rename_i h2 hv
          subst h2
          simp only [Mem.wfFrom, Bool.and_eq_true, decide_eq_true_eq]
          exact ⟨⟨⟨hlo, ha⟩, hv⟩, hm⟩
      · simp only [Mem.wfFrom, Bool.and_eq_true, decide_eq_true_eq]
        exact ⟨⟨⟨hk0, hk⟩, hx⟩, ih hm (by omega)⟩

/-- A byte write at a 32-bit address keeps the canonical form. -/
theorem wf_writeByte {m : Mem} (h : Mem.wf m = true) (a : Word) (v : Byte) :
    Mem.wf (Mem.writeByte m a.toNat v) = true :=
  wfFrom_writeByte h (Nat.zero_le _) a.isLt v

/-- Two canonical memories with equal contents are equal. -/
theorem wfFrom_ext {m m' : Mem} {lo : Nat} (h : Mem.wfFrom lo m = true) (h' : Mem.wfFrom lo m' = true)
    (heq : ∀ a, Mem.readByte m a = Mem.readByte m' a) : m = m' := by
  induction m generalizing lo m' with
  | nil =>
    cases m' with
    | nil => rfl
    | cons c m' =>
      obtain ⟨k, b⟩ := c
      simp only [Mem.wfFrom, Bool.and_eq_true, decide_eq_true_eq] at h'
      have := heq k
      simp [Mem.readByte] at this
      exact absurd this.symm h'.1.2
  | cons c m ih =>
    obtain ⟨k, b⟩ := c
    simp only [Mem.wfFrom, Bool.and_eq_true, decide_eq_true_eq] at h
    cases m' with
    | nil =>
      have := heq k
      simp [Mem.readByte] at this
      exact absurd this h.1.2
    | cons c' m' =>
      obtain ⟨k', b'⟩ := c'
      simp only [Mem.wfFrom, Bool.and_eq_true, decide_eq_true_eq] at h'
      have hk : k = k' := by
        rcases Nat.lt_trichotomy k k' with hlt | he | hgt
        · have := heq k
          simp only [Mem.readByte, if_true, if_neg (show ¬ k' = k by omega)] at this
          rw [readByte_of_lt h'.2 (by omega)] at this
          exact absurd this h.1.2
        · exact he
        · have := heq k'
          simp only [Mem.readByte, if_true, if_neg (show ¬ k = k' by omega)] at this
          rw [readByte_of_lt h.2 (by omega)] at this
          exact absurd this.symm h'.1.2
      subst hk
      have hb : b = b' := by simpa [Mem.readByte] using heq k
      subst hb
      have htl : m = m' := by
        refine ih h.2 h'.2 (fun a => ?_)
        by_cases ha : k = a
        · subst ha; rw [readByte_of_lt h.2 (by omega), readByte_of_lt h'.2 (by omega)]
        · simpa [Mem.readByte, ha] using heq a
      rw [htl]

/-- Two canonical memories with equal contents are equal. -/
theorem wf_ext {m m' : Mem} (h : Mem.wf m = true) (h' : Mem.wf m' = true)
    (heq : ∀ a, Mem.readByte m a = Mem.readByte m' a) : m = m' := wfFrom_ext h h' heq

/-- A store of bytes keeps the canonical form. -/
theorem wf_writeBytes {m : Mem} (h : Mem.wf m = true) (a : Word) (bs : List Byte) :
    Mem.wf (Mem.writeBytes m a bs) = true := by
  induction bs generalizing m a with
  | nil => exact h
  | cons b bs ih => exact ih (wf_writeByte h a b) (a + 1#32)

/-- A store of bytes leaves every byte outside the stored ones alone. -/
theorem readByte_writeBytes_of_outside {m : Mem} (h : Mem.wf m = true) (a : Word) (bs : List Byte) (x : Nat)
    (hx : ∀ k < bs.length, x ≠ (a + BitVec.ofNat 32 k).toNat) :
    Mem.readByte (Mem.writeBytes m a bs) x = Mem.readByte m x := by
  induction bs generalizing m a with
  | nil => rfl
  | cons b bs ih =>
    have h0 : x ≠ a.toNat := by simpa using hx 0 (by simp)
    rw [Mem.writeBytes, ih (wf_writeByte h a b), readByte_writeByte h, if_neg h0]
    intro k hk
    have := hx (k + 1) (by simpa using hk)
    rwa [show a + 1#32 + BitVec.ofNat 32 k = a + BitVec.ofNat 32 (k + 1) by
      rw [BitVec.ofNat_add, BitVec.add_assoc, BitVec.add_comm (BitVec.ofNat 32 k)]]

/-- Bytes that differ in no byte read alike read alike. -/
theorem readBytes_congr {m m' : Mem} (a : Word) (n : Nat)
    (h : ∀ k < n, Mem.readByte m (a + BitVec.ofNat 32 k).toNat = Mem.readByte m' (a + BitVec.ofNat 32 k).toNat) :
    Mem.readBytes m a n = Mem.readBytes m' a n := by
  induction n generalizing a with
  | zero => rfl
  | succ n ih =>
    rw [Mem.readBytes, Mem.readBytes, show Mem.readByte m a.toNat = Mem.readByte m' a.toNat by simpa using h 0 (by omega),
      ih]
    intro k hk
    have := h (k + 1) (by omega)
    rwa [show a + 1#32 + BitVec.ofNat 32 k = a + BitVec.ofNat 32 (k + 1) by
      rw [BitVec.ofNat_add, BitVec.add_assoc, BitVec.add_comm (BitVec.ofNat 32 k)]]

@[simp] theorem readBytes_length (m : Mem) (a : Word) (n : Nat) : (Mem.readBytes m a n).length = n := by
  induction n generalizing a with
  | zero => rfl
  | succ n ih => simp [Mem.readBytes, ih]

/-- A store of up to 2^32 bytes, read back, gives the bytes stored. -/
theorem readBytes_writeBytes {m : Mem} (h : Mem.wf m = true) (a : Word) (bs : List Byte) (hn : bs.length ≤ 2 ^ 32) :
    Mem.readBytes (Mem.writeBytes m a bs) a bs.length = bs := by
  induction bs generalizing m a with
  | nil => rfl
  | cons b bs ih =>
    have hlen : bs.length + 1 ≤ 2 ^ 32 := by simpa using hn
    rw [List.length_cons, Mem.readBytes, Mem.writeBytes, ih (wf_writeByte h a b) (a + 1#32) (by omega)]
    congr 1
    rw [readByte_writeBytes_of_outside (wf_writeByte h a b), readByte_writeByte h, if_pos rfl]
    intro k hk heq
    have h1 : a = a + 1#32 + BitVec.ofNat 32 k := BitVec.eq_of_toNat_eq heq
    have h2 := congrArg BitVec.toNat h1
    simp only [BitVec.toNat_add, BitVec.toNat_ofNat] at h2
    have := a.isLt
    omega

@[simp] theorem littleEndianBytes_length (n v : Nat) : (littleEndianBytes n v).length = n := by
  induction n generalizing v with
  | zero => rfl
  | succ n ih => simp [littleEndianBytes, ih]

@[simp] theorem bytesOfValue_length (e : Bool) (n v : Nat) : (bytesOfValue e n v).length = n := by
  cases e <;> simp [bytesOfValue]

/-- Little-endian bytes stand for the value modulo its width. -/
theorem littleEndianValue_bytes (n v : Nat) : littleEndianValue (littleEndianBytes n v) = v % 256 ^ n := by
  induction n generalizing v with
  | zero => simp [littleEndianBytes, littleEndianValue, Nat.mod_one]
  | succ n ih =>
    rw [littleEndianBytes, littleEndianValue, ih, BitVec.toNat_ofNat,
      show 256 ^ (n + 1) = 2 ^ 8 * 256 ^ n from pow_succ' 256 n, Nat.mod_mul]
    norm_num

/-- The bytes of a value stand for the value modulo its width, in either byte order. -/
theorem valueOfBytes_bytesOfValue (e : Bool) (n v : Nat) : valueOfBytes e (bytesOfValue e n v) = v % 256 ^ n := by
  cases e <;> simp [valueOfBytes, bytesOfValue, littleEndianValue_bytes]

/-- The little-endian bytes of the value some bytes stand for are those bytes. -/
theorem littleEndianBytes_value (bs : List Byte) : littleEndianBytes bs.length (littleEndianValue bs) = bs := by
  induction bs with
  | nil => rfl
  | cons b bs ih =>
    have hb := b.isLt
    simp only [List.length_cons, littleEndianBytes, littleEndianValue]
    rw [show (b.toNat + 256 * littleEndianValue bs) / 256 = littleEndianValue bs by omega, ih]
    congr 1
    apply BitVec.eq_of_toNat_eq
    simp only [BitVec.toNat_ofNat]
    omega

/-- Some bytes stand for a value below their width. -/
theorem littleEndianValue_lt (bs : List Byte) : littleEndianValue bs < 256 ^ bs.length := by
  induction bs with
  | nil => simp [littleEndianValue]
  | cons b bs ih =>
    have hb := b.isLt
    simp only [littleEndianValue, List.length_cons, pow_succ]
    omega

theorem valueOfBytes_lt (e : Bool) (bs : List Byte) : valueOfBytes e bs < 256 ^ bs.length := by
  cases e
  · exact littleEndianValue_lt bs
  · simpa [valueOfBytes] using littleEndianValue_lt bs.reverse

/-- The bytes of the value some bytes stand for are those bytes, in either byte order. -/
theorem bytesOfValue_valueOfBytes (e : Bool) (bs : List Byte) : bytesOfValue e bs.length (valueOfBytes e bs) = bs := by
  cases e
  · exact littleEndianBytes_value bs
  · have := littleEndianBytes_value bs.reverse
    simp only [List.length_reverse] at this
    simp [bytesOfValue, valueOfBytes, this]

/-- Storing back what was read restores memory, whatever a store of the same width put there. -/
theorem writeBytes_restore {m : Mem} (h : Mem.wf m = true) (a : Word) (bs : List Byte) (hn : bs.length ≤ 2 ^ 32) :
    Mem.writeBytes (Mem.writeBytes m a bs) a (Mem.readBytes m a bs.length) = m := by
  refine wf_ext (wf_writeBytes (wf_writeBytes h a bs) a _) h (fun x => ?_)
  by_cases hx : ∀ k < bs.length, x ≠ (a + BitVec.ofNat 32 k).toNat
  · rw [readByte_writeBytes_of_outside (wf_writeBytes h a bs), readByte_writeBytes_of_outside h a bs x hx]
    simpa using hx
  · push Not at hx
    obtain ⟨k, hk, rfl⟩ := hx
    have key : ∀ (m' : Mem), Mem.wf m' = true → ∀ n ≤ 2 ^ 32, k < n →
        ∀ rs : List Byte, rs.length = n → Mem.readBytes (Mem.writeBytes m' a rs) a n = rs := by
      intro m' hm' n hn' _ rs hrs
      subst hrs
      exact readBytes_writeBytes hm' a rs hn'
    have hread := key _ (wf_writeBytes h a bs) bs.length hn hk (Mem.readBytes m a bs.length) (by simp)
    have pick : ∀ (n : Nat) (m₁ m₂ : Mem) (a : Word) (k : Nat), k < n → Mem.readBytes m₁ a n = Mem.readBytes m₂ a n →
        Mem.readByte m₁ (a + BitVec.ofNat 32 k).toNat = Mem.readByte m₂ (a + BitVec.ofNat 32 k).toNat := by
      intro n
      induction n with
      | zero => intro _ _ _ k hk; omega
      | succ n ih =>
        intro m₁ m₂ a k hk heq
        simp only [Mem.readBytes, List.cons.injEq] at heq
        cases k with
        | zero => simpa using heq.1
        | succ k =>
          have := ih m₁ m₂ (a + 1#32) k (by omega) heq.2
          rwa [show a + 1#32 + BitVec.ofNat 32 k = a + BitVec.ofNat 32 (k + 1) by
            rw [BitVec.ofNat_add, BitVec.add_assoc, BitVec.add_comm (BitVec.ofNat 32 k)]] at this
    exact pick _ _ _ a k hk hread

theorem Width.bytes_le (w : Width) : w.bytes ≤ 8 := by cases w <;> decide

theorem Width.bytes_pos (w : Width) : 0 < w.bytes := by cases w <;> decide

@[simp] theorem storedBytes_length (s : State) (w : Width) (v : BitVec 64) : (s.storedBytes w v).length = w.bytes := by
  simp [State.storedBytes]

/-- The bytes a write of what `memRead` returned stores are the bytes that were read. -/
theorem storedBytes_memRead (s t : State) (h : t.setup = s.setup) (a : Word) (w : Width) :
    t.storedBytes w (s.memRead a w) = Mem.readBytes s.mem a w.bytes := by
  have hlt := valueOfBytes_lt s.setup.bigEndian (Mem.readBytes s.mem a w.bytes)
  rw [readBytes_length] at hlt
  have h8 : 256 ^ w.bytes ≤ 2 ^ 64 := by
    calc 256 ^ w.bytes ≤ 256 ^ 8 := Nat.pow_le_pow_right (by norm_num) (Width.bytes_le w)
      _ = 2 ^ 64 := by norm_num
  have hval : (s.memRead a w).toNat = valueOfBytes s.setup.bigEndian (Mem.readBytes s.mem a w.bytes) := by
    rw [State.memRead, BitVec.toNat_ofNat, Nat.mod_eq_of_lt (by omega)]
  have := bytesOfValue_valueOfBytes s.setup.bigEndian (Mem.readBytes s.mem a w.bytes)
  rw [readBytes_length] at this
  rw [State.storedBytes, h, hval, this]

/-- Memory read back after a write of the same width holds the value written, modulo its width. -/
theorem memRead_portWrite (s : State) (h : Mem.wf s.mem = true) (a : Word) (w : Width) (v : BitVec 64) :
    ((s.portWrite a (s.storedBytes w v)).memRead a w).toNat = v.toNat % 256 ^ w.bytes := by
  have h8 : 256 ^ w.bytes ≤ 2 ^ 64 := by
    calc 256 ^ w.bytes ≤ 256 ^ 8 := Nat.pow_le_pow_right (by norm_num) (Width.bytes_le w)
      _ = 2 ^ 64 := by norm_num
  have hpos : 0 < 256 ^ w.bytes := Nat.pos_of_ne_zero (by positivity)
  have hr := readBytes_writeBytes h a (s.storedBytes w v) (by simp; have := Width.bytes_le w; omega)
  rw [storedBytes_length] at hr
  rw [State.memRead, BitVec.toNat_ofNat, State.portWrite, hr, State.storedBytes, valueOfBytes_bytesOfValue]
  exact Nat.mod_eq_of_lt (lt_of_lt_of_le (Nat.mod_lt _ hpos) h8)

end Sys2Proof.Machine
end

