-- ==== Sys2Proof/Laws/State.lean ====
section
/-! SUPPORT. One lemma per field per update of State, so that later proofs unfold no update.  An update
that may branch has a lemma for every field it leaves alone. -/

namespace Sys2Proof.Machine

/-! `setGpr` -/

@[simp] theorem setGpr_regs (s : State) (i : Fin 32) (v : Word) : (s.setGpr i v).regs = Regs.writeGpr s.regs i v := rfl
@[simp] theorem setGpr_mem (s : State) (i : Fin 32) (v : Word) : (s.setGpr i v).mem = s.mem := rfl
@[simp] theorem setGpr_cache (s : State) (i : Fin 32) (v : Word) : (s.setGpr i v).cache = s.cache := rfl
@[simp] theorem setGpr_hwPending (s : State) (i : Fin 32) (v : Word) : (s.setGpr i v).hwPending = s.hwPending := rfl
@[simp] theorem setGpr_swPending (s : State) (i : Fin 32) (v : Word) : (s.setGpr i v).swPending = s.swPending := rfl
@[simp] theorem setGpr_runState (s : State) (i : Fin 32) (v : Word) : (s.setGpr i v).runState = s.runState := rfl
@[simp] theorem setGpr_cycles (s : State) (i : Fin 32) (v : Word) : (s.setGpr i v).cycles = s.cycles := rfl
@[simp] theorem setGpr_execTime (s : State) (i : Fin 32) (v : Word) : (s.setGpr i v).execTime = s.execTime := rfl
@[simp] theorem setGpr_exitCode (s : State) (i : Fin 32) (v : Word) : (s.setGpr i v).exitCode = s.exitCode := rfl
@[simp] theorem setGpr_breakpoints (s : State) (i : Fin 32) (v : Word) : (s.setGpr i v).breakpoints = s.breakpoints := rfl
@[simp] theorem setGpr_nextInDelaySlot (s : State) (i : Fin 32) (v : Word) : (s.setGpr i v).nextInDelaySlot = s.nextInDelaySlot := rfl
@[simp] theorem setGpr_snapshot (s : State) (i : Fin 32) (v : Word) : (s.setGpr i v).snapshot = s.snapshot := rfl
@[simp] theorem setGpr_setup (s : State) (i : Fin 32) (v : Word) : (s.setGpr i v).setup = s.setup := rfl
@[simp] theorem setGpr_inputQueue (s : State) (i : Fin 32) (v : Word) : (s.setGpr i v).inputQueue = s.inputQueue := rfl
@[simp] theorem setGpr_undoLog (s : State) (i : Fin 32) (v : Word) : (s.setGpr i v).undoLog = s.undoLog := rfl
@[simp] theorem setGpr_memoryLevels (s : State) (i : Fin 32) (v : Word) : (s.setGpr i v).memoryLevels = s.memoryLevels := rfl
@[simp] theorem setGpr_unsynced (s : State) (i : Fin 32) (v : Word) : (s.setGpr i v).unsynced = s.unsynced := rfl
@[simp] theorem setGpr_singleStep (s : State) (i : Fin 32) (v : Word) : (s.setGpr i v).singleStep = s.singleStep := rfl
@[simp] theorem setGpr_executing (s : State) (i : Fin 32) (v : Word) : (s.setGpr i v).executing = s.executing := rfl
@[simp] theorem setGpr_deltas (s : State) (i : Fin 32) (v : Word) : (s.setGpr i v).deltas = s.recorded (.gpr i (Regs.readGpr s.regs i)) := rfl
@[simp] theorem setGpr_openEntry (s : State) (i : Fin 32) (v : Word) : (s.setGpr i v).openEntry = s.openEntry := rfl
@[simp] theorem setGpr_commands (s : State) (i : Fin 32) (v : Word) : (s.setGpr i v).commands = s.commands := rfl
@[simp] theorem setGpr_interleaved (s : State) (i : Fin 32) (v : Word) : (s.setGpr i v).interleaved = s.interleaved := rfl
@[simp] theorem setGpr_report (s : State) (i : Fin 32) (v : Word) : (s.setGpr i v).report = s.report := rfl
@[simp] theorem setGpr_freeIndex (s : State) (i : Fin 32) (v : Word) : (s.setGpr i v).freeIndex = s.freeIndex := rfl

/-! `setFpr` -/

@[simp] theorem setFpr_regs (s : State) (i : Fin 32) (v : Nat) : (s.setFpr i v).regs = Regs.writeFpr s.regs i v := rfl
@[simp] theorem setFpr_mem (s : State) (i : Fin 32) (v : Nat) : (s.setFpr i v).mem = s.mem := rfl
@[simp] theorem setFpr_cache (s : State) (i : Fin 32) (v : Nat) : (s.setFpr i v).cache = s.cache := rfl
@[simp] theorem setFpr_hwPending (s : State) (i : Fin 32) (v : Nat) : (s.setFpr i v).hwPending = s.hwPending := rfl
@[simp] theorem setFpr_swPending (s : State) (i : Fin 32) (v : Nat) : (s.setFpr i v).swPending = s.swPending := rfl
@[simp] theorem setFpr_runState (s : State) (i : Fin 32) (v : Nat) : (s.setFpr i v).runState = s.runState := rfl
@[simp] theorem setFpr_cycles (s : State) (i : Fin 32) (v : Nat) : (s.setFpr i v).cycles = s.cycles := rfl
@[simp] theorem setFpr_execTime (s : State) (i : Fin 32) (v : Nat) : (s.setFpr i v).execTime = s.execTime := rfl
@[simp] theorem setFpr_exitCode (s : State) (i : Fin 32) (v : Nat) : (s.setFpr i v).exitCode = s.exitCode := rfl
@[simp] theorem setFpr_breakpoints (s : State) (i : Fin 32) (v : Nat) : (s.setFpr i v).breakpoints = s.breakpoints := rfl
@[simp] theorem setFpr_nextInDelaySlot (s : State) (i : Fin 32) (v : Nat) : (s.setFpr i v).nextInDelaySlot = s.nextInDelaySlot := rfl
@[simp] theorem setFpr_snapshot (s : State) (i : Fin 32) (v : Nat) : (s.setFpr i v).snapshot = s.snapshot := rfl
@[simp] theorem setFpr_setup (s : State) (i : Fin 32) (v : Nat) : (s.setFpr i v).setup = s.setup := rfl
@[simp] theorem setFpr_inputQueue (s : State) (i : Fin 32) (v : Nat) : (s.setFpr i v).inputQueue = s.inputQueue := rfl
@[simp] theorem setFpr_undoLog (s : State) (i : Fin 32) (v : Nat) : (s.setFpr i v).undoLog = s.undoLog := rfl
@[simp] theorem setFpr_memoryLevels (s : State) (i : Fin 32) (v : Nat) : (s.setFpr i v).memoryLevels = s.memoryLevels := rfl
@[simp] theorem setFpr_unsynced (s : State) (i : Fin 32) (v : Nat) : (s.setFpr i v).unsynced = s.unsynced := rfl
@[simp] theorem setFpr_singleStep (s : State) (i : Fin 32) (v : Nat) : (s.setFpr i v).singleStep = s.singleStep := rfl
@[simp] theorem setFpr_executing (s : State) (i : Fin 32) (v : Nat) : (s.setFpr i v).executing = s.executing := rfl
@[simp] theorem setFpr_deltas (s : State) (i : Fin 32) (v : Nat) : (s.setFpr i v).deltas = s.recorded (.fpr i s.regs.fpr[i]) := rfl
@[simp] theorem setFpr_openEntry (s : State) (i : Fin 32) (v : Nat) : (s.setFpr i v).openEntry = s.openEntry := rfl
@[simp] theorem setFpr_commands (s : State) (i : Fin 32) (v : Nat) : (s.setFpr i v).commands = s.commands := rfl
@[simp] theorem setFpr_interleaved (s : State) (i : Fin 32) (v : Nat) : (s.setFpr i v).interleaved = s.interleaved := rfl
@[simp] theorem setFpr_report (s : State) (i : Fin 32) (v : Nat) : (s.setFpr i v).report = s.report := rfl
@[simp] theorem setFpr_freeIndex (s : State) (i : Fin 32) (v : Nat) : (s.setFpr i v).freeIndex = s.freeIndex := rfl

/-! `setCop0` -/

@[simp] theorem setCop0_regs (s : State) (c : Cop0Reg) (v : Word) : (s.setCop0 c v).regs = Regs.writeCop0 s.regs c v := rfl
@[simp] theorem setCop0_mem (s : State) (c : Cop0Reg) (v : Word) : (s.setCop0 c v).mem = s.mem := rfl
@[simp] theorem setCop0_cache (s : State) (c : Cop0Reg) (v : Word) : (s.setCop0 c v).cache = s.cache := rfl
@[simp] theorem setCop0_hwPending (s : State) (c : Cop0Reg) (v : Word) : (s.setCop0 c v).hwPending = s.hwPending := rfl
@[simp] theorem setCop0_swPending (s : State) (c : Cop0Reg) (v : Word) : (s.setCop0 c v).swPending = s.swPending := rfl
@[simp] theorem setCop0_runState (s : State) (c : Cop0Reg) (v : Word) : (s.setCop0 c v).runState = s.runState := rfl
@[simp] theorem setCop0_cycles (s : State) (c : Cop0Reg) (v : Word) : (s.setCop0 c v).cycles = s.cycles := rfl
@[simp] theorem setCop0_execTime (s : State) (c : Cop0Reg) (v : Word) : (s.setCop0 c v).execTime = s.execTime := rfl
@[simp] theorem setCop0_exitCode (s : State) (c : Cop0Reg) (v : Word) : (s.setCop0 c v).exitCode = s.exitCode := rfl
@[simp] theorem setCop0_breakpoints (s : State) (c : Cop0Reg) (v : Word) : (s.setCop0 c v).breakpoints = s.breakpoints := rfl
@[simp] theorem setCop0_nextInDelaySlot (s : State) (c : Cop0Reg) (v : Word) : (s.setCop0 c v).nextInDelaySlot = s.nextInDelaySlot := rfl
@[simp] theorem setCop0_snapshot (s : State) (c : Cop0Reg) (v : Word) : (s.setCop0 c v).snapshot = s.snapshot := rfl
@[simp] theorem setCop0_setup (s : State) (c : Cop0Reg) (v : Word) : (s.setCop0 c v).setup = s.setup := rfl
@[simp] theorem setCop0_inputQueue (s : State) (c : Cop0Reg) (v : Word) : (s.setCop0 c v).inputQueue = s.inputQueue := rfl
@[simp] theorem setCop0_undoLog (s : State) (c : Cop0Reg) (v : Word) : (s.setCop0 c v).undoLog = s.undoLog := rfl
@[simp] theorem setCop0_memoryLevels (s : State) (c : Cop0Reg) (v : Word) : (s.setCop0 c v).memoryLevels = s.memoryLevels := rfl
@[simp] theorem setCop0_unsynced (s : State) (c : Cop0Reg) (v : Word) : (s.setCop0 c v).unsynced = s.unsynced := rfl
@[simp] theorem setCop0_singleStep (s : State) (c : Cop0Reg) (v : Word) : (s.setCop0 c v).singleStep = s.singleStep := rfl
@[simp] theorem setCop0_executing (s : State) (c : Cop0Reg) (v : Word) : (s.setCop0 c v).executing = s.executing := rfl
@[simp] theorem setCop0_deltas (s : State) (c : Cop0Reg) (v : Word) : (s.setCop0 c v).deltas = s.recorded (.cop0 c (Cop0.read s.regs.cop0 c)) := rfl
@[simp] theorem setCop0_openEntry (s : State) (c : Cop0Reg) (v : Word) : (s.setCop0 c v).openEntry = s.openEntry := rfl
@[simp] theorem setCop0_commands (s : State) (c : Cop0Reg) (v : Word) : (s.setCop0 c v).commands = s.commands := rfl
@[simp] theorem setCop0_interleaved (s : State) (c : Cop0Reg) (v : Word) : (s.setCop0 c v).interleaved = s.interleaved := rfl
@[simp] theorem setCop0_report (s : State) (c : Cop0Reg) (v : Word) : (s.setCop0 c v).report = s.report := rfl
@[simp] theorem setCop0_freeIndex (s : State) (c : Cop0Reg) (v : Word) : (s.setCop0 c v).freeIndex = s.freeIndex := rfl

/-! `setPc` -/

@[simp] theorem setPc_regs (s : State) (v : Word) : (s.setPc v).regs = Regs.writePc s.regs v := rfl
@[simp] theorem setPc_mem (s : State) (v : Word) : (s.setPc v).mem = s.mem := rfl
@[simp] theorem setPc_cache (s : State) (v : Word) : (s.setPc v).cache = s.cache := rfl
@[simp] theorem setPc_hwPending (s : State) (v : Word) : (s.setPc v).hwPending = s.hwPending := rfl
@[simp] theorem setPc_swPending (s : State) (v : Word) : (s.setPc v).swPending = s.swPending := rfl
@[simp] theorem setPc_runState (s : State) (v : Word) : (s.setPc v).runState = s.runState := rfl
@[simp] theorem setPc_cycles (s : State) (v : Word) : (s.setPc v).cycles = s.cycles := rfl
@[simp] theorem setPc_execTime (s : State) (v : Word) : (s.setPc v).execTime = s.execTime := rfl
@[simp] theorem setPc_exitCode (s : State) (v : Word) : (s.setPc v).exitCode = s.exitCode := rfl
@[simp] theorem setPc_breakpoints (s : State) (v : Word) : (s.setPc v).breakpoints = s.breakpoints := rfl
@[simp] theorem setPc_nextInDelaySlot (s : State) (v : Word) : (s.setPc v).nextInDelaySlot = s.nextInDelaySlot := rfl
@[simp] theorem setPc_snapshot (s : State) (v : Word) : (s.setPc v).snapshot = s.snapshot := rfl
@[simp] theorem setPc_setup (s : State) (v : Word) : (s.setPc v).setup = s.setup := rfl
@[simp] theorem setPc_inputQueue (s : State) (v : Word) : (s.setPc v).inputQueue = s.inputQueue := rfl
@[simp] theorem setPc_undoLog (s : State) (v : Word) : (s.setPc v).undoLog = s.undoLog := rfl
@[simp] theorem setPc_memoryLevels (s : State) (v : Word) : (s.setPc v).memoryLevels = s.memoryLevels := rfl
@[simp] theorem setPc_unsynced (s : State) (v : Word) : (s.setPc v).unsynced = s.unsynced := rfl
@[simp] theorem setPc_singleStep (s : State) (v : Word) : (s.setPc v).singleStep = s.singleStep := rfl
@[simp] theorem setPc_executing (s : State) (v : Word) : (s.setPc v).executing = s.executing := rfl
@[simp] theorem setPc_deltas (s : State) (v : Word) : (s.setPc v).deltas = s.recorded (.pc s.regs.pc) := rfl
@[simp] theorem setPc_openEntry (s : State) (v : Word) : (s.setPc v).openEntry = s.openEntry := rfl
@[simp] theorem setPc_commands (s : State) (v : Word) : (s.setPc v).commands = s.commands := rfl
@[simp] theorem setPc_interleaved (s : State) (v : Word) : (s.setPc v).interleaved = s.interleaved := rfl
@[simp] theorem setPc_report (s : State) (v : Word) : (s.setPc v).report = s.report := rfl
@[simp] theorem setPc_freeIndex (s : State) (v : Word) : (s.setPc v).freeIndex = s.freeIndex := rfl

/-! `portWrite` -/

@[simp] theorem portWrite_regs (s : State) (a : Word) (bs : List Byte) : (s.portWrite a bs).regs = s.regs := rfl
@[simp] theorem portWrite_mem (s : State) (a : Word) (bs : List Byte) : (s.portWrite a bs).mem = Mem.writeBytes s.mem a bs := rfl
@[simp] theorem portWrite_cache (s : State) (a : Word) (bs : List Byte) : (s.portWrite a bs).cache = s.cache.snoopWrite a bs.length := rfl
@[simp] theorem portWrite_hwPending (s : State) (a : Word) (bs : List Byte) : (s.portWrite a bs).hwPending = s.hwPending := rfl
@[simp] theorem portWrite_swPending (s : State) (a : Word) (bs : List Byte) : (s.portWrite a bs).swPending = s.swPending := rfl
@[simp] theorem portWrite_runState (s : State) (a : Word) (bs : List Byte) : (s.portWrite a bs).runState = s.runState := rfl
@[simp] theorem portWrite_cycles (s : State) (a : Word) (bs : List Byte) : (s.portWrite a bs).cycles = s.cycles := rfl
@[simp] theorem portWrite_execTime (s : State) (a : Word) (bs : List Byte) : (s.portWrite a bs).execTime = s.execTime := rfl
@[simp] theorem portWrite_exitCode (s : State) (a : Word) (bs : List Byte) : (s.portWrite a bs).exitCode = s.exitCode := rfl
@[simp] theorem portWrite_breakpoints (s : State) (a : Word) (bs : List Byte) : (s.portWrite a bs).breakpoints = s.breakpoints := rfl
@[simp] theorem portWrite_nextInDelaySlot (s : State) (a : Word) (bs : List Byte) : (s.portWrite a bs).nextInDelaySlot = s.nextInDelaySlot := rfl
@[simp] theorem portWrite_snapshot (s : State) (a : Word) (bs : List Byte) : (s.portWrite a bs).snapshot = s.snapshot := rfl
@[simp] theorem portWrite_setup (s : State) (a : Word) (bs : List Byte) : (s.portWrite a bs).setup = s.setup := rfl
@[simp] theorem portWrite_inputQueue (s : State) (a : Word) (bs : List Byte) : (s.portWrite a bs).inputQueue = s.inputQueue := rfl
@[simp] theorem portWrite_undoLog (s : State) (a : Word) (bs : List Byte) : (s.portWrite a bs).undoLog = s.undoLog := rfl
@[simp] theorem portWrite_memoryLevels (s : State) (a : Word) (bs : List Byte) : (s.portWrite a bs).memoryLevels = s.memoryLevels := rfl
@[simp] theorem portWrite_unsynced (s : State) (a : Word) (bs : List Byte) : (s.portWrite a bs).unsynced = s.unsynced.snooped (touchedWords a bs.length) := rfl
@[simp] theorem portWrite_singleStep (s : State) (a : Word) (bs : List Byte) : (s.portWrite a bs).singleStep = s.singleStep := rfl
@[simp] theorem portWrite_executing (s : State) (a : Word) (bs : List Byte) : (s.portWrite a bs).executing = s.executing := rfl
@[simp] theorem portWrite_deltas (s : State) (a : Word) (bs : List Byte) : (s.portWrite a bs).deltas = s.deltas := rfl
@[simp] theorem portWrite_openEntry (s : State) (a : Word) (bs : List Byte) : (s.portWrite a bs).openEntry = s.openEntry := rfl
@[simp] theorem portWrite_commands (s : State) (a : Word) (bs : List Byte) : (s.portWrite a bs).commands = s.commands := rfl
@[simp] theorem portWrite_interleaved (s : State) (a : Word) (bs : List Byte) : (s.portWrite a bs).interleaved = s.interleaved := rfl
@[simp] theorem portWrite_report (s : State) (a : Word) (bs : List Byte) : (s.portWrite a bs).report = s.report := rfl
@[simp] theorem portWrite_freeIndex (s : State) (a : Word) (bs : List Byte) : (s.portWrite a bs).freeIndex = s.freeIndex := rfl

/-! `bypassWrite` -/

@[simp] theorem bypassWrite_regs (s : State) (a : Word) (bs : List Byte) : (s.bypassWrite a bs).regs = s.regs := rfl
@[simp] theorem bypassWrite_mem (s : State) (a : Word) (bs : List Byte) : (s.bypassWrite a bs).mem = Mem.writeBytes s.mem a bs := rfl
@[simp] theorem bypassWrite_cache (s : State) (a : Word) (bs : List Byte) : (s.bypassWrite a bs).cache = s.cache := rfl
@[simp] theorem bypassWrite_hwPending (s : State) (a : Word) (bs : List Byte) : (s.bypassWrite a bs).hwPending = s.hwPending := rfl
@[simp] theorem bypassWrite_swPending (s : State) (a : Word) (bs : List Byte) : (s.bypassWrite a bs).swPending = s.swPending := rfl
@[simp] theorem bypassWrite_runState (s : State) (a : Word) (bs : List Byte) : (s.bypassWrite a bs).runState = s.runState := rfl
@[simp] theorem bypassWrite_cycles (s : State) (a : Word) (bs : List Byte) : (s.bypassWrite a bs).cycles = s.cycles := rfl
@[simp] theorem bypassWrite_execTime (s : State) (a : Word) (bs : List Byte) : (s.bypassWrite a bs).execTime = s.execTime := rfl
@[simp] theorem bypassWrite_exitCode (s : State) (a : Word) (bs : List Byte) : (s.bypassWrite a bs).exitCode = s.exitCode := rfl
@[simp] theorem bypassWrite_breakpoints (s : State) (a : Word) (bs : List Byte) : (s.bypassWrite a bs).breakpoints = s.breakpoints := rfl
@[simp] theorem bypassWrite_nextInDelaySlot (s : State) (a : Word) (bs : List Byte) : (s.bypassWrite a bs).nextInDelaySlot = s.nextInDelaySlot := rfl
@[simp] theorem bypassWrite_snapshot (s : State) (a : Word) (bs : List Byte) : (s.bypassWrite a bs).snapshot = s.snapshot := rfl
@[simp] theorem bypassWrite_setup (s : State) (a : Word) (bs : List Byte) : (s.bypassWrite a bs).setup = s.setup := rfl
@[simp] theorem bypassWrite_inputQueue (s : State) (a : Word) (bs : List Byte) : (s.bypassWrite a bs).inputQueue = s.inputQueue := rfl
@[simp] theorem bypassWrite_undoLog (s : State) (a : Word) (bs : List Byte) : (s.bypassWrite a bs).undoLog = s.undoLog := rfl
@[simp] theorem bypassWrite_memoryLevels (s : State) (a : Word) (bs : List Byte) : (s.bypassWrite a bs).memoryLevels = s.memoryLevels := rfl
@[simp] theorem bypassWrite_unsynced (s : State) (a : Word) (bs : List Byte) : (s.bypassWrite a bs).unsynced = s.unsynced.bypassed (touchedWords a bs.length) := rfl
@[simp] theorem bypassWrite_singleStep (s : State) (a : Word) (bs : List Byte) : (s.bypassWrite a bs).singleStep = s.singleStep := rfl
@[simp] theorem bypassWrite_executing (s : State) (a : Word) (bs : List Byte) : (s.bypassWrite a bs).executing = s.executing := rfl
@[simp] theorem bypassWrite_deltas (s : State) (a : Word) (bs : List Byte) : (s.bypassWrite a bs).deltas = s.deltas := rfl
@[simp] theorem bypassWrite_openEntry (s : State) (a : Word) (bs : List Byte) : (s.bypassWrite a bs).openEntry = s.openEntry := rfl
@[simp] theorem bypassWrite_commands (s : State) (a : Word) (bs : List Byte) : (s.bypassWrite a bs).commands = s.commands := rfl
@[simp] theorem bypassWrite_interleaved (s : State) (a : Word) (bs : List Byte) : (s.bypassWrite a bs).interleaved = s.interleaved := rfl
@[simp] theorem bypassWrite_report (s : State) (a : Word) (bs : List Byte) : (s.bypassWrite a bs).report = s.report := rfl
@[simp] theorem bypassWrite_freeIndex (s : State) (a : Word) (bs : List Byte) : (s.bypassWrite a bs).freeIndex = s.freeIndex := rfl

/-! `clearCache` -/

@[simp] theorem clearCache_regs (s : State) : (s.clearCache).regs = s.regs := rfl
@[simp] theorem clearCache_mem (s : State) : (s.clearCache).mem = s.mem := rfl
@[simp] theorem clearCache_cache (s : State) : (s.clearCache).cache = s.cache.clear s.setup.initialEntries := rfl
@[simp] theorem clearCache_hwPending (s : State) : (s.clearCache).hwPending = s.hwPending := rfl
@[simp] theorem clearCache_swPending (s : State) : (s.clearCache).swPending = s.swPending := rfl
@[simp] theorem clearCache_runState (s : State) : (s.clearCache).runState = s.runState := rfl
@[simp] theorem clearCache_cycles (s : State) : (s.clearCache).cycles = s.cycles := rfl
@[simp] theorem clearCache_execTime (s : State) : (s.clearCache).execTime = s.execTime := rfl
@[simp] theorem clearCache_exitCode (s : State) : (s.clearCache).exitCode = s.exitCode := rfl
@[simp] theorem clearCache_breakpoints (s : State) : (s.clearCache).breakpoints = s.breakpoints := rfl
@[simp] theorem clearCache_nextInDelaySlot (s : State) : (s.clearCache).nextInDelaySlot = s.nextInDelaySlot := rfl
@[simp] theorem clearCache_snapshot (s : State) : (s.clearCache).snapshot = s.snapshot := rfl
@[simp] theorem clearCache_setup (s : State) : (s.clearCache).setup = s.setup := rfl
@[simp] theorem clearCache_inputQueue (s : State) : (s.clearCache).inputQueue = s.inputQueue := rfl
@[simp] theorem clearCache_undoLog (s : State) : (s.clearCache).undoLog = s.undoLog := rfl
@[simp] theorem clearCache_memoryLevels (s : State) : (s.clearCache).memoryLevels = s.memoryLevels := rfl
@[simp] theorem clearCache_unsynced (s : State) : (s.clearCache).unsynced = ⟨[], []⟩ := rfl
@[simp] theorem clearCache_singleStep (s : State) : (s.clearCache).singleStep = s.singleStep := rfl
@[simp] theorem clearCache_executing (s : State) : (s.clearCache).executing = s.executing := rfl
@[simp] theorem clearCache_deltas (s : State) : (s.clearCache).deltas = s.deltas := rfl
@[simp] theorem clearCache_openEntry (s : State) : (s.clearCache).openEntry = s.openEntry := rfl
@[simp] theorem clearCache_commands (s : State) : (s.clearCache).commands = s.commands := rfl
@[simp] theorem clearCache_interleaved (s : State) : (s.clearCache).interleaved = s.interleaved := rfl
@[simp] theorem clearCache_report (s : State) : (s.clearCache).report = s.report := rfl
@[simp] theorem clearCache_freeIndex (s : State) : (s.clearCache).freeIndex = s.freeIndex := rfl

/-! `cachesReset` -/

@[simp] theorem cachesReset_regs (s : State) : (s.cachesReset).regs = s.regs := rfl
@[simp] theorem cachesReset_mem (s : State) : (s.cachesReset).mem = s.mem := rfl
@[simp] theorem cachesReset_cache (s : State) : (s.cachesReset).cache = s.cache.clear s.setup.initialEntries := rfl
@[simp] theorem cachesReset_hwPending (s : State) : (s.cachesReset).hwPending = s.hwPending := rfl
@[simp] theorem cachesReset_swPending (s : State) : (s.cachesReset).swPending = s.swPending := rfl
@[simp] theorem cachesReset_runState (s : State) : (s.cachesReset).runState = s.runState := rfl
@[simp] theorem cachesReset_cycles (s : State) : (s.cachesReset).cycles = s.cycles := rfl
@[simp] theorem cachesReset_execTime (s : State) : (s.cachesReset).execTime = s.execTime := rfl
@[simp] theorem cachesReset_exitCode (s : State) : (s.cachesReset).exitCode = s.exitCode := rfl
@[simp] theorem cachesReset_breakpoints (s : State) : (s.cachesReset).breakpoints = s.breakpoints := rfl
@[simp] theorem cachesReset_nextInDelaySlot (s : State) : (s.cachesReset).nextInDelaySlot = s.nextInDelaySlot := rfl
@[simp] theorem cachesReset_snapshot (s : State) : (s.cachesReset).snapshot = s.snapshot := rfl
@[simp] theorem cachesReset_setup (s : State) : (s.cachesReset).setup = s.setup := rfl
@[simp] theorem cachesReset_inputQueue (s : State) : (s.cachesReset).inputQueue = s.inputQueue := rfl
@[simp] theorem cachesReset_undoLog (s : State) : (s.cachesReset).undoLog = s.undoLog := rfl
@[simp] theorem cachesReset_memoryLevels (s : State) : (s.cachesReset).memoryLevels = s.memoryLevels.map (fun m => { m with resets := m.resets + 1 }) := rfl
@[simp] theorem cachesReset_unsynced (s : State) : (s.cachesReset).unsynced = ⟨[], []⟩ := rfl
@[simp] theorem cachesReset_singleStep (s : State) : (s.cachesReset).singleStep = s.singleStep := rfl
@[simp] theorem cachesReset_executing (s : State) : (s.cachesReset).executing = s.executing := rfl
@[simp] theorem cachesReset_deltas (s : State) : (s.cachesReset).deltas = s.deltas := rfl
@[simp] theorem cachesReset_openEntry (s : State) : (s.cachesReset).openEntry = s.openEntry := rfl
@[simp] theorem cachesReset_commands (s : State) : (s.cachesReset).commands = s.commands := rfl
@[simp] theorem cachesReset_interleaved (s : State) : (s.cachesReset).interleaved = s.interleaved := rfl
@[simp] theorem cachesReset_report (s : State) : (s.cachesReset).report = s.report := rfl
@[simp] theorem cachesReset_freeIndex (s : State) : (s.cachesReset).freeIndex = s.freeIndex := rfl

/-! `freeFetched` -/

@[simp] theorem freeFetched_regs (s : State) (pc : Word) (e : Entry) : (s.freeFetched pc e).regs = s.regs := rfl
@[simp] theorem freeFetched_mem (s : State) (pc : Word) (e : Entry) : (s.freeFetched pc e).mem = s.mem := rfl
@[simp] theorem freeFetched_cache (s : State) (pc : Word) (e : Entry) : (s.freeFetched pc e).cache = if s.cache.inBounds pc then s.cache.fill (s.cache.index pc) e else s.cache := rfl
@[simp] theorem freeFetched_hwPending (s : State) (pc : Word) (e : Entry) : (s.freeFetched pc e).hwPending = s.hwPending := rfl
@[simp] theorem freeFetched_swPending (s : State) (pc : Word) (e : Entry) : (s.freeFetched pc e).swPending = s.swPending := rfl
@[simp] theorem freeFetched_runState (s : State) (pc : Word) (e : Entry) : (s.freeFetched pc e).runState = s.runState := rfl
@[simp] theorem freeFetched_cycles (s : State) (pc : Word) (e : Entry) : (s.freeFetched pc e).cycles = s.cycles := rfl
@[simp] theorem freeFetched_execTime (s : State) (pc : Word) (e : Entry) : (s.freeFetched pc e).execTime = s.execTime := rfl
@[simp] theorem freeFetched_exitCode (s : State) (pc : Word) (e : Entry) : (s.freeFetched pc e).exitCode = s.exitCode := rfl
@[simp] theorem freeFetched_breakpoints (s : State) (pc : Word) (e : Entry) : (s.freeFetched pc e).breakpoints = s.breakpoints := rfl
@[simp] theorem freeFetched_nextInDelaySlot (s : State) (pc : Word) (e : Entry) : (s.freeFetched pc e).nextInDelaySlot = s.nextInDelaySlot := rfl
@[simp] theorem freeFetched_snapshot (s : State) (pc : Word) (e : Entry) : (s.freeFetched pc e).snapshot = s.snapshot := rfl
@[simp] theorem freeFetched_setup (s : State) (pc : Word) (e : Entry) : (s.freeFetched pc e).setup = s.setup := rfl
@[simp] theorem freeFetched_inputQueue (s : State) (pc : Word) (e : Entry) : (s.freeFetched pc e).inputQueue = s.inputQueue := rfl
@[simp] theorem freeFetched_undoLog (s : State) (pc : Word) (e : Entry) : (s.freeFetched pc e).undoLog = s.undoLog := rfl
@[simp] theorem freeFetched_memoryLevels (s : State) (pc : Word) (e : Entry) : (s.freeFetched pc e).memoryLevels = s.memoryLevels := rfl
@[simp] theorem freeFetched_unsynced (s : State) (pc : Word) (e : Entry) : (s.freeFetched pc e).unsynced = s.unsynced.fetched pc (s.cache.inBounds pc) := rfl
@[simp] theorem freeFetched_singleStep (s : State) (pc : Word) (e : Entry) : (s.freeFetched pc e).singleStep = s.singleStep := rfl
@[simp] theorem freeFetched_executing (s : State) (pc : Word) (e : Entry) : (s.freeFetched pc e).executing = s.executing := rfl
@[simp] theorem freeFetched_deltas (s : State) (pc : Word) (e : Entry) : (s.freeFetched pc e).deltas = s.deltas := rfl
@[simp] theorem freeFetched_openEntry (s : State) (pc : Word) (e : Entry) : (s.freeFetched pc e).openEntry = s.openEntry := rfl
@[simp] theorem freeFetched_commands (s : State) (pc : Word) (e : Entry) : (s.freeFetched pc e).commands = s.commands := rfl
@[simp] theorem freeFetched_interleaved (s : State) (pc : Word) (e : Entry) : (s.freeFetched pc e).interleaved = s.interleaved := rfl
@[simp] theorem freeFetched_report (s : State) (pc : Word) (e : Entry) : (s.freeFetched pc e).report = s.report := rfl
@[simp] theorem freeFetched_freeIndex (s : State) (pc : Word) (e : Entry) : (s.freeFetched pc e).freeIndex = s.freeIndex + 1 := rfl

/-! `openFor` -/

@[simp] theorem openFor_regs (s : State) (r : Request) : (s.openFor r).regs = s.regs := rfl
@[simp] theorem openFor_mem (s : State) (r : Request) : (s.openFor r).mem = s.mem := rfl
@[simp] theorem openFor_cache (s : State) (r : Request) : (s.openFor r).cache = s.cache := rfl
@[simp] theorem openFor_hwPending (s : State) (r : Request) : (s.openFor r).hwPending = s.hwPending := rfl
@[simp] theorem openFor_swPending (s : State) (r : Request) : (s.openFor r).swPending = s.swPending := rfl
@[simp] theorem openFor_runState (s : State) (r : Request) : (s.openFor r).runState = s.runState := rfl
@[simp] theorem openFor_cycles (s : State) (r : Request) : (s.openFor r).cycles = s.cycles := rfl
@[simp] theorem openFor_execTime (s : State) (r : Request) : (s.openFor r).execTime = s.execTime := rfl
@[simp] theorem openFor_exitCode (s : State) (r : Request) : (s.openFor r).exitCode = s.exitCode := rfl
@[simp] theorem openFor_breakpoints (s : State) (r : Request) : (s.openFor r).breakpoints = s.breakpoints := rfl
@[simp] theorem openFor_nextInDelaySlot (s : State) (r : Request) : (s.openFor r).nextInDelaySlot = s.nextInDelaySlot := rfl
@[simp] theorem openFor_snapshot (s : State) (r : Request) : (s.openFor r).snapshot = s.snapshot := rfl
@[simp] theorem openFor_setup (s : State) (r : Request) : (s.openFor r).setup = s.setup := rfl
@[simp] theorem openFor_inputQueue (s : State) (r : Request) : (s.openFor r).inputQueue = s.inputQueue := rfl
@[simp] theorem openFor_undoLog (s : State) (r : Request) : (s.openFor r).undoLog = s.undoLog := rfl
@[simp] theorem openFor_memoryLevels (s : State) (r : Request) : (s.openFor r).memoryLevels = s.memoryLevels := rfl
@[simp] theorem openFor_unsynced (s : State) (r : Request) : (s.openFor r).unsynced = s.unsynced := rfl
@[simp] theorem openFor_singleStep (s : State) (r : Request) : (s.openFor r).singleStep = s.singleStep := rfl
@[simp] theorem openFor_executing (s : State) (r : Request) : (s.openFor r).executing = s.executing := rfl
@[simp] theorem openFor_deltas (s : State) (r : Request) : (s.openFor r).deltas = s.deltas := rfl
@[simp] theorem openFor_openEntry (s : State) (r : Request) : (s.openFor r).openEntry = some ⟨r, s.regs.cop0, s.regs.pc⟩ := rfl
@[simp] theorem openFor_commands (s : State) (r : Request) : (s.openFor r).commands = s.commands := rfl
@[simp] theorem openFor_interleaved (s : State) (r : Request) : (s.openFor r).interleaved = s.interleaved := rfl
@[simp] theorem openFor_report (s : State) (r : Request) : (s.openFor r).report = s.report := rfl
@[simp] theorem openFor_freeIndex (s : State) (r : Request) : (s.openFor r).freeIndex = s.freeIndex := rfl

/-! `memWrite` -/

@[simp] theorem memWrite_regs (s : State) (a : Word) (w : Width) (v : BitVec 64) (q : Bool) : (s.memWrite a w v q).regs = s.regs := rfl
@[simp] theorem memWrite_mem (s : State) (a : Word) (w : Width) (v : BitVec 64) (q : Bool) : (s.memWrite a w v q).mem = Mem.writeBytes s.mem a (s.storedBytes w v) := rfl
@[simp] theorem memWrite_cache (s : State) (a : Word) (w : Width) (v : BitVec 64) (q : Bool) : (s.memWrite a w v q).cache = s.cache.snoopWrite a (s.storedBytes w v).length := rfl
@[simp] theorem memWrite_hwPending (s : State) (a : Word) (w : Width) (v : BitVec 64) (q : Bool) : (s.memWrite a w v q).hwPending = s.hwPending := rfl
@[simp] theorem memWrite_swPending (s : State) (a : Word) (w : Width) (v : BitVec 64) (q : Bool) : (s.memWrite a w v q).swPending = s.swPending := rfl
@[simp] theorem memWrite_runState (s : State) (a : Word) (w : Width) (v : BitVec 64) (q : Bool) : (s.memWrite a w v q).runState = s.runState := rfl
@[simp] theorem memWrite_cycles (s : State) (a : Word) (w : Width) (v : BitVec 64) (q : Bool) : (s.memWrite a w v q).cycles = s.cycles := rfl
@[simp] theorem memWrite_execTime (s : State) (a : Word) (w : Width) (v : BitVec 64) (q : Bool) : (s.memWrite a w v q).execTime = s.execTime := rfl
@[simp] theorem memWrite_exitCode (s : State) (a : Word) (w : Width) (v : BitVec 64) (q : Bool) : (s.memWrite a w v q).exitCode = s.exitCode := rfl
@[simp] theorem memWrite_breakpoints (s : State) (a : Word) (w : Width) (v : BitVec 64) (q : Bool) : (s.memWrite a w v q).breakpoints = s.breakpoints := rfl
@[simp] theorem memWrite_nextInDelaySlot (s : State) (a : Word) (w : Width) (v : BitVec 64) (q : Bool) : (s.memWrite a w v q).nextInDelaySlot = s.nextInDelaySlot := rfl
@[simp] theorem memWrite_snapshot (s : State) (a : Word) (w : Width) (v : BitVec 64) (q : Bool) : (s.memWrite a w v q).snapshot = s.snapshot := rfl
@[simp] theorem memWrite_setup (s : State) (a : Word) (w : Width) (v : BitVec 64) (q : Bool) : (s.memWrite a w v q).setup = s.setup := rfl
@[simp] theorem memWrite_inputQueue (s : State) (a : Word) (w : Width) (v : BitVec 64) (q : Bool) : (s.memWrite a w v q).inputQueue = s.inputQueue := rfl
@[simp] theorem memWrite_undoLog (s : State) (a : Word) (w : Width) (v : BitVec 64) (q : Bool) : (s.memWrite a w v q).undoLog = s.undoLog := rfl
@[simp] theorem memWrite_memoryLevels (s : State) (a : Word) (w : Width) (v : BitVec 64) (q : Bool) : (s.memWrite a w v q).memoryLevels = s.memoryLevels := rfl
@[simp] theorem memWrite_unsynced (s : State) (a : Word) (w : Width) (v : BitVec 64) (q : Bool) : (s.memWrite a w v q).unsynced = s.unsynced.snooped (touchedWords a (s.storedBytes w v).length) := rfl
@[simp] theorem memWrite_singleStep (s : State) (a : Word) (w : Width) (v : BitVec 64) (q : Bool) : (s.memWrite a w v q).singleStep = s.singleStep := rfl
@[simp] theorem memWrite_executing (s : State) (a : Word) (w : Width) (v : BitVec 64) (q : Bool) : (s.memWrite a w v q).executing = s.executing := rfl
@[simp] theorem memWrite_deltas (s : State) (a : Word) (w : Width) (v : BitVec 64) (q : Bool) : (s.memWrite a w v q).deltas = if q then s.deltas else s.recorded (.mem a w (s.memRead a w)) := rfl
@[simp] theorem memWrite_openEntry (s : State) (a : Word) (w : Width) (v : BitVec 64) (q : Bool) : (s.memWrite a w v q).openEntry = s.openEntry := rfl
@[simp] theorem memWrite_commands (s : State) (a : Word) (w : Width) (v : BitVec 64) (q : Bool) : (s.memWrite a w v q).commands = s.commands := rfl
@[simp] theorem memWrite_interleaved (s : State) (a : Word) (w : Width) (v : BitVec 64) (q : Bool) : (s.memWrite a w v q).interleaved = s.interleaved := rfl
@[simp] theorem memWrite_report (s : State) (a : Word) (w : Width) (v : BitVec 64) (q : Bool) : (s.memWrite a w v q).report = s.report := rfl
@[simp] theorem memWrite_freeIndex (s : State) (a : Word) (w : Width) (v : BitVec 64) (q : Bool) : (s.memWrite a w v q).freeIndex = s.freeIndex := rfl

/-! `requestSoftware` -/

@[simp] theorem requestSoftware_regs (s : State) (q : SoftwareRequest) : (s.requestSoftware q).regs = Regs.writeCop0 s.regs .cause (setCauseBit s.regs.cop0.cause s.setup.softwarePendingCauseBit) := rfl
@[simp] theorem requestSoftware_mem (s : State) (q : SoftwareRequest) : (s.requestSoftware q).mem = s.mem := rfl
@[simp] theorem requestSoftware_cache (s : State) (q : SoftwareRequest) : (s.requestSoftware q).cache = s.cache := rfl
@[simp] theorem requestSoftware_hwPending (s : State) (q : SoftwareRequest) : (s.requestSoftware q).hwPending = s.hwPending := rfl
@[simp] theorem requestSoftware_swPending (s : State) (q : SoftwareRequest) : (s.requestSoftware q).swPending = s.swPending ++ [q] := rfl
@[simp] theorem requestSoftware_runState (s : State) (q : SoftwareRequest) : (s.requestSoftware q).runState = s.runState := rfl
@[simp] theorem requestSoftware_cycles (s : State) (q : SoftwareRequest) : (s.requestSoftware q).cycles = s.cycles := rfl
@[simp] theorem requestSoftware_execTime (s : State) (q : SoftwareRequest) : (s.requestSoftware q).execTime = s.execTime := rfl
@[simp] theorem requestSoftware_exitCode (s : State) (q : SoftwareRequest) : (s.requestSoftware q).exitCode = s.exitCode := rfl
@[simp] theorem requestSoftware_breakpoints (s : State) (q : SoftwareRequest) : (s.requestSoftware q).breakpoints = s.breakpoints := rfl
@[simp] theorem requestSoftware_nextInDelaySlot (s : State) (q : SoftwareRequest) : (s.requestSoftware q).nextInDelaySlot = s.nextInDelaySlot := rfl
@[simp] theorem requestSoftware_snapshot (s : State) (q : SoftwareRequest) : (s.requestSoftware q).snapshot = s.snapshot := rfl
@[simp] theorem requestSoftware_setup (s : State) (q : SoftwareRequest) : (s.requestSoftware q).setup = s.setup := rfl
@[simp] theorem requestSoftware_inputQueue (s : State) (q : SoftwareRequest) : (s.requestSoftware q).inputQueue = s.inputQueue := rfl
@[simp] theorem requestSoftware_undoLog (s : State) (q : SoftwareRequest) : (s.requestSoftware q).undoLog = s.undoLog := rfl
@[simp] theorem requestSoftware_memoryLevels (s : State) (q : SoftwareRequest) : (s.requestSoftware q).memoryLevels = s.memoryLevels := rfl
@[simp] theorem requestSoftware_unsynced (s : State) (q : SoftwareRequest) : (s.requestSoftware q).unsynced = s.unsynced := rfl
@[simp] theorem requestSoftware_singleStep (s : State) (q : SoftwareRequest) : (s.requestSoftware q).singleStep = s.singleStep := rfl
@[simp] theorem requestSoftware_executing (s : State) (q : SoftwareRequest) : (s.requestSoftware q).executing = s.executing := rfl
@[simp] theorem requestSoftware_deltas (s : State) (q : SoftwareRequest) : (s.requestSoftware q).deltas = s.recorded (.cop0 .cause s.regs.cop0.cause) := rfl
@[simp] theorem requestSoftware_openEntry (s : State) (q : SoftwareRequest) : (s.requestSoftware q).openEntry = s.openEntry := rfl
@[simp] theorem requestSoftware_commands (s : State) (q : SoftwareRequest) : (s.requestSoftware q).commands = s.commands := rfl
@[simp] theorem requestSoftware_interleaved (s : State) (q : SoftwareRequest) : (s.requestSoftware q).interleaved = s.interleaved := rfl
@[simp] theorem requestSoftware_report (s : State) (q : SoftwareRequest) : (s.requestSoftware q).report = s.report := rfl
@[simp] theorem requestSoftware_freeIndex (s : State) (q : SoftwareRequest) : (s.requestSoftware q).freeIndex = s.freeIndex := rfl

/-! `requestExit` -/

@[simp] theorem requestExit_regs (s : State) (c : Int) : (s.requestExit c).regs = s.regs := rfl
@[simp] theorem requestExit_mem (s : State) (c : Int) : (s.requestExit c).mem = s.mem := rfl
@[simp] theorem requestExit_cache (s : State) (c : Int) : (s.requestExit c).cache = s.cache := rfl
@[simp] theorem requestExit_hwPending (s : State) (c : Int) : (s.requestExit c).hwPending = s.hwPending := rfl
@[simp] theorem requestExit_swPending (s : State) (c : Int) : (s.requestExit c).swPending = s.swPending := rfl
@[simp] theorem requestExit_runState (s : State) (c : Int) : (s.requestExit c).runState = .finished := rfl
@[simp] theorem requestExit_cycles (s : State) (c : Int) : (s.requestExit c).cycles = s.cycles := rfl
@[simp] theorem requestExit_execTime (s : State) (c : Int) : (s.requestExit c).execTime = s.execTime := rfl
@[simp] theorem requestExit_exitCode (s : State) (c : Int) : (s.requestExit c).exitCode = some c := rfl
@[simp] theorem requestExit_breakpoints (s : State) (c : Int) : (s.requestExit c).breakpoints = s.breakpoints := rfl
@[simp] theorem requestExit_nextInDelaySlot (s : State) (c : Int) : (s.requestExit c).nextInDelaySlot = s.nextInDelaySlot := rfl
@[simp] theorem requestExit_snapshot (s : State) (c : Int) : (s.requestExit c).snapshot = s.snapshot := rfl
@[simp] theorem requestExit_setup (s : State) (c : Int) : (s.requestExit c).setup = s.setup := rfl
@[simp] theorem requestExit_inputQueue (s : State) (c : Int) : (s.requestExit c).inputQueue = s.inputQueue := rfl
@[simp] theorem requestExit_undoLog (s : State) (c : Int) : (s.requestExit c).undoLog = s.undoLog := rfl
@[simp] theorem requestExit_memoryLevels (s : State) (c : Int) : (s.requestExit c).memoryLevels = s.memoryLevels := rfl
@[simp] theorem requestExit_unsynced (s : State) (c : Int) : (s.requestExit c).unsynced = s.unsynced := rfl
@[simp] theorem requestExit_singleStep (s : State) (c : Int) : (s.requestExit c).singleStep = s.singleStep := rfl
@[simp] theorem requestExit_executing (s : State) (c : Int) : (s.requestExit c).executing = s.executing := rfl
@[simp] theorem requestExit_deltas (s : State) (c : Int) : (s.requestExit c).deltas = s.deltas := rfl
@[simp] theorem requestExit_openEntry (s : State) (c : Int) : (s.requestExit c).openEntry = s.openEntry := rfl
@[simp] theorem requestExit_commands (s : State) (c : Int) : (s.requestExit c).commands = s.commands := rfl
@[simp] theorem requestExit_interleaved (s : State) (c : Int) : (s.requestExit c).interleaved = s.interleaved := rfl
@[simp] theorem requestExit_report (s : State) (c : Int) : (s.requestExit c).report = s.report := rfl
@[simp] theorem requestExit_freeIndex (s : State) (c : Int) : (s.requestExit c).freeIndex = s.freeIndex := rfl

/-! `beginCycle` -/

@[simp] theorem beginCycle_regs (s : State) (b : Bool) : (s.beginCycle b).regs = s.regs := rfl
@[simp] theorem beginCycle_mem (s : State) (b : Bool) : (s.beginCycle b).mem = s.mem := rfl
@[simp] theorem beginCycle_cache (s : State) (b : Bool) : (s.beginCycle b).cache = s.cache := rfl
@[simp] theorem beginCycle_hwPending (s : State) (b : Bool) : (s.beginCycle b).hwPending = s.hwPending := rfl
@[simp] theorem beginCycle_swPending (s : State) (b : Bool) : (s.beginCycle b).swPending = s.swPending := rfl
@[simp] theorem beginCycle_runState (s : State) (b : Bool) : (s.beginCycle b).runState = .running := rfl
@[simp] theorem beginCycle_cycles (s : State) (b : Bool) : (s.beginCycle b).cycles = s.cycles := rfl
@[simp] theorem beginCycle_execTime (s : State) (b : Bool) : (s.beginCycle b).execTime = s.execTime := rfl
@[simp] theorem beginCycle_exitCode (s : State) (b : Bool) : (s.beginCycle b).exitCode = s.exitCode := rfl
@[simp] theorem beginCycle_breakpoints (s : State) (b : Bool) : (s.beginCycle b).breakpoints = s.breakpoints := rfl
@[simp] theorem beginCycle_nextInDelaySlot (s : State) (b : Bool) : (s.beginCycle b).nextInDelaySlot = s.nextInDelaySlot := rfl
@[simp] theorem beginCycle_snapshot (s : State) (b : Bool) : (s.beginCycle b).snapshot = s.snapshot := rfl
@[simp] theorem beginCycle_setup (s : State) (b : Bool) : (s.beginCycle b).setup = s.setup := rfl
@[simp] theorem beginCycle_inputQueue (s : State) (b : Bool) : (s.beginCycle b).inputQueue = s.inputQueue := rfl
@[simp] theorem beginCycle_undoLog (s : State) (b : Bool) : (s.beginCycle b).undoLog = s.undoLog := rfl
@[simp] theorem beginCycle_memoryLevels (s : State) (b : Bool) : (s.beginCycle b).memoryLevels = s.memoryLevels := rfl
@[simp] theorem beginCycle_unsynced (s : State) (b : Bool) : (s.beginCycle b).unsynced = s.unsynced := rfl
@[simp] theorem beginCycle_singleStep (s : State) (b : Bool) : (s.beginCycle b).singleStep = b := rfl
@[simp] theorem beginCycle_executing (s : State) (b : Bool) : (s.beginCycle b).executing = s.executing := rfl
@[simp] theorem beginCycle_deltas (s : State) (b : Bool) : (s.beginCycle b).deltas = [] := rfl
@[simp] theorem beginCycle_openEntry (s : State) (b : Bool) : (s.beginCycle b).openEntry = none := rfl
@[simp] theorem beginCycle_commands (s : State) (b : Bool) : (s.beginCycle b).commands = s.commands := rfl
@[simp] theorem beginCycle_interleaved (s : State) (b : Bool) : (s.beginCycle b).interleaved = s.interleaved := rfl
@[simp] theorem beginCycle_report (s : State) (b : Bool) : (s.beginCycle b).report = s.report := rfl
@[simp] theorem beginCycle_freeIndex (s : State) (b : Bool) : (s.beginCycle b).freeIndex = s.freeIndex := rfl

/-! `advanceCount` -/

@[simp] theorem advanceCount_regs (s : State) : (s.advanceCount).regs = Regs.writeCop0 s.regs .count (Config.countBehaviour s.freeIndex s.regs.cop0.count) := rfl
@[simp] theorem advanceCount_mem (s : State) : (s.advanceCount).mem = s.mem := rfl
@[simp] theorem advanceCount_cache (s : State) : (s.advanceCount).cache = s.cache := rfl
@[simp] theorem advanceCount_hwPending (s : State) : (s.advanceCount).hwPending = s.hwPending := rfl
@[simp] theorem advanceCount_swPending (s : State) : (s.advanceCount).swPending = s.swPending := rfl
@[simp] theorem advanceCount_runState (s : State) : (s.advanceCount).runState = s.runState := rfl
@[simp] theorem advanceCount_cycles (s : State) : (s.advanceCount).cycles = s.cycles := rfl
@[simp] theorem advanceCount_execTime (s : State) : (s.advanceCount).execTime = s.execTime := rfl
@[simp] theorem advanceCount_exitCode (s : State) : (s.advanceCount).exitCode = s.exitCode := rfl
@[simp] theorem advanceCount_breakpoints (s : State) : (s.advanceCount).breakpoints = s.breakpoints := rfl
@[simp] theorem advanceCount_nextInDelaySlot (s : State) : (s.advanceCount).nextInDelaySlot = s.nextInDelaySlot := rfl
@[simp] theorem advanceCount_snapshot (s : State) : (s.advanceCount).snapshot = s.snapshot := rfl
@[simp] theorem advanceCount_setup (s : State) : (s.advanceCount).setup = s.setup := rfl
@[simp] theorem advanceCount_inputQueue (s : State) : (s.advanceCount).inputQueue = s.inputQueue := rfl
@[simp] theorem advanceCount_undoLog (s : State) : (s.advanceCount).undoLog = s.undoLog := rfl
@[simp] theorem advanceCount_memoryLevels (s : State) : (s.advanceCount).memoryLevels = s.memoryLevels := rfl
@[simp] theorem advanceCount_unsynced (s : State) : (s.advanceCount).unsynced = s.unsynced := rfl
@[simp] theorem advanceCount_singleStep (s : State) : (s.advanceCount).singleStep = s.singleStep := rfl
@[simp] theorem advanceCount_executing (s : State) : (s.advanceCount).executing = s.executing := rfl
@[simp] theorem advanceCount_deltas (s : State) : (s.advanceCount).deltas = s.recorded (.cop0 .count s.regs.cop0.count) := rfl
@[simp] theorem advanceCount_openEntry (s : State) : (s.advanceCount).openEntry = s.openEntry := rfl
@[simp] theorem advanceCount_commands (s : State) : (s.advanceCount).commands = s.commands := rfl
@[simp] theorem advanceCount_interleaved (s : State) : (s.advanceCount).interleaved = s.interleaved := rfl
@[simp] theorem advanceCount_report (s : State) : (s.advanceCount).report = s.report := rfl
@[simp] theorem advanceCount_freeIndex (s : State) : (s.advanceCount).freeIndex = s.freeIndex := rfl

/-! `closeCycle` -/

@[simp] theorem closeCycle_regs (s : State) (b : Bool) : (s.closeCycle b).regs = s.regs := rfl
@[simp] theorem closeCycle_mem (s : State) (b : Bool) : (s.closeCycle b).mem = s.mem := rfl
@[simp] theorem closeCycle_cache (s : State) (b : Bool) : (s.closeCycle b).cache = s.cache := rfl
@[simp] theorem closeCycle_hwPending (s : State) (b : Bool) : (s.closeCycle b).hwPending = s.hwPending := rfl
@[simp] theorem closeCycle_swPending (s : State) (b : Bool) : (s.closeCycle b).swPending = s.swPending := rfl
@[simp] theorem closeCycle_runState (s : State) (b : Bool) : (s.closeCycle b).runState = s.runState := rfl
@[simp] theorem closeCycle_cycles (s : State) (b : Bool) : (s.closeCycle b).cycles = s.cycles := rfl
@[simp] theorem closeCycle_execTime (s : State) (b : Bool) : (s.closeCycle b).execTime = s.execTime := rfl
@[simp] theorem closeCycle_exitCode (s : State) (b : Bool) : (s.closeCycle b).exitCode = s.exitCode := rfl
@[simp] theorem closeCycle_breakpoints (s : State) (b : Bool) : (s.closeCycle b).breakpoints = s.breakpoints := rfl
@[simp] theorem closeCycle_nextInDelaySlot (s : State) (b : Bool) : (s.closeCycle b).nextInDelaySlot = s.nextInDelaySlot := rfl
@[simp] theorem closeCycle_snapshot (s : State) (b : Bool) : (s.closeCycle b).snapshot = s.snapshot := rfl
@[simp] theorem closeCycle_setup (s : State) (b : Bool) : (s.closeCycle b).setup = s.setup := rfl
@[simp] theorem closeCycle_inputQueue (s : State) (b : Bool) : (s.closeCycle b).inputQueue = s.inputQueue := rfl
@[simp] theorem closeCycle_undoLog (s : State) (b : Bool) : (s.closeCycle b).undoLog = if s.setup.undoEnabled then ⟨s.deltas, b⟩ :: s.undoLog else s.undoLog := rfl
@[simp] theorem closeCycle_memoryLevels (s : State) (b : Bool) : (s.closeCycle b).memoryLevels = s.memoryLevels := rfl
@[simp] theorem closeCycle_unsynced (s : State) (b : Bool) : (s.closeCycle b).unsynced = s.unsynced := rfl
@[simp] theorem closeCycle_singleStep (s : State) (b : Bool) : (s.closeCycle b).singleStep = s.singleStep := rfl
@[simp] theorem closeCycle_executing (s : State) (b : Bool) : (s.closeCycle b).executing = s.executing := rfl
@[simp] theorem closeCycle_deltas (s : State) (b : Bool) : (s.closeCycle b).deltas = [] := rfl
@[simp] theorem closeCycle_openEntry (s : State) (b : Bool) : (s.closeCycle b).openEntry = none := rfl
@[simp] theorem closeCycle_commands (s : State) (b : Bool) : (s.closeCycle b).commands = s.commands := rfl
@[simp] theorem closeCycle_interleaved (s : State) (b : Bool) : (s.closeCycle b).interleaved = s.interleaved := rfl
@[simp] theorem closeCycle_report (s : State) (b : Bool) : (s.closeCycle b).report = s.report := rfl
@[simp] theorem closeCycle_freeIndex (s : State) (b : Bool) : (s.closeCycle b).freeIndex = s.freeIndex := rfl

/-! `countCycle` -/

@[simp] theorem countCycle_regs (s : State) : (s.countCycle).regs = Regs.writeCop0 s.regs .count (Config.countBehaviour s.freeIndex s.regs.cop0.count) := rfl
@[simp] theorem countCycle_mem (s : State) : (s.countCycle).mem = s.mem := rfl
@[simp] theorem countCycle_cache (s : State) : (s.countCycle).cache = s.cache := rfl
@[simp] theorem countCycle_hwPending (s : State) : (s.countCycle).hwPending = s.hwPending := rfl
@[simp] theorem countCycle_swPending (s : State) : (s.countCycle).swPending = s.swPending := rfl
@[simp] theorem countCycle_runState (s : State) : (s.countCycle).runState = s.runState := rfl
@[simp] theorem countCycle_cycles (s : State) : (s.countCycle).cycles = s.cycles + 1 := rfl
@[simp] theorem countCycle_execTime (s : State) : (s.countCycle).execTime = s.execTime + Config.executionTime s.freeIndex := rfl
@[simp] theorem countCycle_exitCode (s : State) : (s.countCycle).exitCode = s.exitCode := rfl
@[simp] theorem countCycle_breakpoints (s : State) : (s.countCycle).breakpoints = s.breakpoints := rfl
@[simp] theorem countCycle_nextInDelaySlot (s : State) : (s.countCycle).nextInDelaySlot = s.nextInDelaySlot := rfl
@[simp] theorem countCycle_snapshot (s : State) : (s.countCycle).snapshot = s.snapshot := rfl
@[simp] theorem countCycle_setup (s : State) : (s.countCycle).setup = s.setup := rfl
@[simp] theorem countCycle_inputQueue (s : State) : (s.countCycle).inputQueue = s.inputQueue := rfl
@[simp] theorem countCycle_undoLog (s : State) : (s.countCycle).undoLog = if s.setup.undoEnabled then ⟨s.recorded (.cop0 .count s.regs.cop0.count), true⟩ :: s.undoLog else s.undoLog := rfl
@[simp] theorem countCycle_memoryLevels (s : State) : (s.countCycle).memoryLevels = s.memoryLevels := rfl
@[simp] theorem countCycle_unsynced (s : State) : (s.countCycle).unsynced = s.unsynced := rfl
@[simp] theorem countCycle_singleStep (s : State) : (s.countCycle).singleStep = s.singleStep := rfl
@[simp] theorem countCycle_executing (s : State) : (s.countCycle).executing = s.executing := rfl
@[simp] theorem countCycle_deltas (s : State) : (s.countCycle).deltas = [] := rfl
@[simp] theorem countCycle_openEntry (s : State) : (s.countCycle).openEntry = none := rfl
@[simp] theorem countCycle_commands (s : State) : (s.countCycle).commands = s.commands := rfl
@[simp] theorem countCycle_interleaved (s : State) : (s.countCycle).interleaved = s.interleaved := rfl
@[simp] theorem countCycle_report (s : State) : (s.countCycle).report = s.report := rfl
@[simp] theorem countCycle_freeIndex (s : State) : (s.countCycle).freeIndex = s.freeIndex + 1 := rfl

/-! `resetController` -/

@[simp] theorem resetController_regs (s : State) : (s.resetController).regs = s.regs := rfl
@[simp] theorem resetController_mem (s : State) : (s.resetController).mem = s.mem := rfl
@[simp] theorem resetController_cache (s : State) : (s.resetController).cache = s.cache := rfl
@[simp] theorem resetController_hwPending (s : State) : (s.resetController).hwPending = [] := rfl
@[simp] theorem resetController_swPending (s : State) : (s.resetController).swPending = [] := rfl
@[simp] theorem resetController_runState (s : State) : (s.resetController).runState = s.runState := rfl
@[simp] theorem resetController_cycles (s : State) : (s.resetController).cycles = s.cycles := rfl
@[simp] theorem resetController_execTime (s : State) : (s.resetController).execTime = s.execTime := rfl
@[simp] theorem resetController_exitCode (s : State) : (s.resetController).exitCode = s.exitCode := rfl
@[simp] theorem resetController_breakpoints (s : State) : (s.resetController).breakpoints = s.breakpoints := rfl
@[simp] theorem resetController_nextInDelaySlot (s : State) : (s.resetController).nextInDelaySlot = s.nextInDelaySlot := rfl
@[simp] theorem resetController_snapshot (s : State) : (s.resetController).snapshot = s.snapshot := rfl
@[simp] theorem resetController_setup (s : State) : (s.resetController).setup = s.setup := rfl
@[simp] theorem resetController_inputQueue (s : State) : (s.resetController).inputQueue = s.inputQueue := rfl
@[simp] theorem resetController_undoLog (s : State) : (s.resetController).undoLog = s.undoLog := rfl
@[simp] theorem resetController_memoryLevels (s : State) : (s.resetController).memoryLevels = s.memoryLevels := rfl
@[simp] theorem resetController_unsynced (s : State) : (s.resetController).unsynced = s.unsynced := rfl
@[simp] theorem resetController_singleStep (s : State) : (s.resetController).singleStep = s.singleStep := rfl
@[simp] theorem resetController_executing (s : State) : (s.resetController).executing = s.executing := rfl
@[simp] theorem resetController_deltas (s : State) : (s.resetController).deltas = s.deltas := rfl
@[simp] theorem resetController_openEntry (s : State) : (s.resetController).openEntry = s.openEntry := rfl
@[simp] theorem resetController_commands (s : State) : (s.resetController).commands = s.commands := rfl
@[simp] theorem resetController_interleaved (s : State) : (s.resetController).interleaved = s.interleaved := rfl
@[simp] theorem resetController_report (s : State) : (s.resetController).report = s.report := rfl
@[simp] theorem resetController_freeIndex (s : State) : (s.resetController).freeIndex = s.freeIndex := rfl

/-! `resetEngine` -/

@[simp] theorem resetEngine_regs (s : State) : (s.resetEngine).regs = s.snapshot.regs := rfl
@[simp] theorem resetEngine_mem (s : State) : (s.resetEngine).mem = s.snapshot.mem := rfl
@[simp] theorem resetEngine_cache (s : State) : (s.resetEngine).cache = s.cache.clear s.setup.initialEntries := rfl
@[simp] theorem resetEngine_hwPending (s : State) : (s.resetEngine).hwPending = [] := rfl
@[simp] theorem resetEngine_swPending (s : State) : (s.resetEngine).swPending = [] := rfl
@[simp] theorem resetEngine_runState (s : State) : (s.resetEngine).runState = .ready := rfl
@[simp] theorem resetEngine_cycles (s : State) : (s.resetEngine).cycles = 0 := rfl
@[simp] theorem resetEngine_execTime (s : State) : (s.resetEngine).execTime = 0 := rfl
@[simp] theorem resetEngine_exitCode (s : State) : (s.resetEngine).exitCode = none := rfl
@[simp] theorem resetEngine_breakpoints (s : State) : (s.resetEngine).breakpoints = s.breakpoints := rfl
@[simp] theorem resetEngine_nextInDelaySlot (s : State) : (s.resetEngine).nextInDelaySlot = false := rfl
@[simp] theorem resetEngine_snapshot (s : State) : (s.resetEngine).snapshot = s.snapshot := rfl
@[simp] theorem resetEngine_setup (s : State) : (s.resetEngine).setup = s.setup := rfl
@[simp] theorem resetEngine_inputQueue (s : State) : (s.resetEngine).inputQueue = s.inputQueue := rfl
@[simp] theorem resetEngine_undoLog (s : State) : (s.resetEngine).undoLog = [] := rfl
@[simp] theorem resetEngine_memoryLevels (s : State) : (s.resetEngine).memoryLevels = s.memoryLevels := rfl
@[simp] theorem resetEngine_unsynced (s : State) : (s.resetEngine).unsynced = ⟨[], []⟩ := rfl
@[simp] theorem resetEngine_singleStep (s : State) : (s.resetEngine).singleStep = s.singleStep := rfl
@[simp] theorem resetEngine_executing (s : State) : (s.resetEngine).executing = none := rfl
@[simp] theorem resetEngine_deltas (s : State) : (s.resetEngine).deltas = [] := rfl
@[simp] theorem resetEngine_openEntry (s : State) : (s.resetEngine).openEntry = none := rfl
@[simp] theorem resetEngine_commands (s : State) : (s.resetEngine).commands = s.commands := rfl
@[simp] theorem resetEngine_interleaved (s : State) : (s.resetEngine).interleaved = s.interleaved := rfl
@[simp] theorem resetEngine_report (s : State) : (s.resetEngine).report = s.report := rfl
@[simp] theorem resetEngine_freeIndex (s : State) : (s.resetEngine).freeIndex = s.freeIndex := rfl

/-! `defer` -/

@[simp] theorem defer_regs (s : State) (c : Command) : (s.defer c).regs = s.regs := rfl
@[simp] theorem defer_mem (s : State) (c : Command) : (s.defer c).mem = s.mem := rfl
@[simp] theorem defer_cache (s : State) (c : Command) : (s.defer c).cache = s.cache := rfl
@[simp] theorem defer_hwPending (s : State) (c : Command) : (s.defer c).hwPending = s.hwPending := rfl
@[simp] theorem defer_swPending (s : State) (c : Command) : (s.defer c).swPending = s.swPending := rfl
@[simp] theorem defer_runState (s : State) (c : Command) : (s.defer c).runState = s.runState := rfl
@[simp] theorem defer_cycles (s : State) (c : Command) : (s.defer c).cycles = s.cycles := rfl
@[simp] theorem defer_execTime (s : State) (c : Command) : (s.defer c).execTime = s.execTime := rfl
@[simp] theorem defer_exitCode (s : State) (c : Command) : (s.defer c).exitCode = s.exitCode := rfl
@[simp] theorem defer_breakpoints (s : State) (c : Command) : (s.defer c).breakpoints = s.breakpoints := rfl
@[simp] theorem defer_nextInDelaySlot (s : State) (c : Command) : (s.defer c).nextInDelaySlot = s.nextInDelaySlot := rfl
@[simp] theorem defer_snapshot (s : State) (c : Command) : (s.defer c).snapshot = s.snapshot := rfl
@[simp] theorem defer_setup (s : State) (c : Command) : (s.defer c).setup = s.setup := rfl
@[simp] theorem defer_inputQueue (s : State) (c : Command) : (s.defer c).inputQueue = s.inputQueue := rfl
@[simp] theorem defer_undoLog (s : State) (c : Command) : (s.defer c).undoLog = s.undoLog := rfl
@[simp] theorem defer_memoryLevels (s : State) (c : Command) : (s.defer c).memoryLevels = s.memoryLevels := rfl
@[simp] theorem defer_unsynced (s : State) (c : Command) : (s.defer c).unsynced = s.unsynced := rfl
@[simp] theorem defer_singleStep (s : State) (c : Command) : (s.defer c).singleStep = s.singleStep := rfl
@[simp] theorem defer_executing (s : State) (c : Command) : (s.defer c).executing = s.executing := rfl
@[simp] theorem defer_deltas (s : State) (c : Command) : (s.defer c).deltas = s.deltas := rfl
@[simp] theorem defer_openEntry (s : State) (c : Command) : (s.defer c).openEntry = s.openEntry := rfl
@[simp] theorem defer_commands (s : State) (c : Command) : (s.defer c).commands = s.commands ++ [c] := rfl
@[simp] theorem defer_interleaved (s : State) (c : Command) : (s.defer c).interleaved = s.interleaved := rfl
@[simp] theorem defer_report (s : State) (c : Command) : (s.defer c).report = s.report := rfl
@[simp] theorem defer_freeIndex (s : State) (c : Command) : (s.defer c).freeIndex = s.freeIndex := rfl

/-! `saveRestart` -/

@[simp] theorem saveRestart_mem (s : State) (b : Bool) (pc : Word) : (s.saveRestart b pc).mem = s.mem := by unfold State.saveRestart; split <;> rfl
@[simp] theorem saveRestart_cache (s : State) (b : Bool) (pc : Word) : (s.saveRestart b pc).cache = s.cache := by unfold State.saveRestart; split <;> rfl
@[simp] theorem saveRestart_hwPending (s : State) (b : Bool) (pc : Word) : (s.saveRestart b pc).hwPending = s.hwPending := by unfold State.saveRestart; split <;> rfl
@[simp] theorem saveRestart_swPending (s : State) (b : Bool) (pc : Word) : (s.saveRestart b pc).swPending = s.swPending := by unfold State.saveRestart; split <;> rfl
@[simp] theorem saveRestart_runState (s : State) (b : Bool) (pc : Word) : (s.saveRestart b pc).runState = s.runState := by unfold State.saveRestart; split <;> rfl
@[simp] theorem saveRestart_cycles (s : State) (b : Bool) (pc : Word) : (s.saveRestart b pc).cycles = s.cycles := by unfold State.saveRestart; split <;> rfl
@[simp] theorem saveRestart_execTime (s : State) (b : Bool) (pc : Word) : (s.saveRestart b pc).execTime = s.execTime := by unfold State.saveRestart; split <;> rfl
@[simp] theorem saveRestart_exitCode (s : State) (b : Bool) (pc : Word) : (s.saveRestart b pc).exitCode = s.exitCode := by unfold State.saveRestart; split <;> rfl
@[simp] theorem saveRestart_breakpoints (s : State) (b : Bool) (pc : Word) : (s.saveRestart b pc).breakpoints = s.breakpoints := by unfold State.saveRestart; split <;> rfl
@[simp] theorem saveRestart_nextInDelaySlot (s : State) (b : Bool) (pc : Word) : (s.saveRestart b pc).nextInDelaySlot = s.nextInDelaySlot := by unfold State.saveRestart; split <;> rfl
@[simp] theorem saveRestart_snapshot (s : State) (b : Bool) (pc : Word) : (s.saveRestart b pc).snapshot = s.snapshot := by unfold State.saveRestart; split <;> rfl
@[simp] theorem saveRestart_setup (s : State) (b : Bool) (pc : Word) : (s.saveRestart b pc).setup = s.setup := by unfold State.saveRestart; split <;> rfl
@[simp] theorem saveRestart_inputQueue (s : State) (b : Bool) (pc : Word) : (s.saveRestart b pc).inputQueue = s.inputQueue := by unfold State.saveRestart; split <;> rfl
@[simp] theorem saveRestart_undoLog (s : State) (b : Bool) (pc : Word) : (s.saveRestart b pc).undoLog = s.undoLog := by unfold State.saveRestart; split <;> rfl
@[simp] theorem saveRestart_memoryLevels (s : State) (b : Bool) (pc : Word) : (s.saveRestart b pc).memoryLevels = s.memoryLevels := by unfold State.saveRestart; split <;> rfl
@[simp] theorem saveRestart_unsynced (s : State) (b : Bool) (pc : Word) : (s.saveRestart b pc).unsynced = s.unsynced := by unfold State.saveRestart; split <;> rfl
@[simp] theorem saveRestart_singleStep (s : State) (b : Bool) (pc : Word) : (s.saveRestart b pc).singleStep = s.singleStep := by unfold State.saveRestart; split <;> rfl
@[simp] theorem saveRestart_executing (s : State) (b : Bool) (pc : Word) : (s.saveRestart b pc).executing = s.executing := by unfold State.saveRestart; split <;> rfl
@[simp] theorem saveRestart_openEntry (s : State) (b : Bool) (pc : Word) : (s.saveRestart b pc).openEntry = s.openEntry := by unfold State.saveRestart; split <;> rfl
@[simp] theorem saveRestart_commands (s : State) (b : Bool) (pc : Word) : (s.saveRestart b pc).commands = s.commands := by unfold State.saveRestart; split <;> rfl
@[simp] theorem saveRestart_interleaved (s : State) (b : Bool) (pc : Word) : (s.saveRestart b pc).interleaved = s.interleaved := by unfold State.saveRestart; split <;> rfl
@[simp] theorem saveRestart_report (s : State) (b : Bool) (pc : Word) : (s.saveRestart b pc).report = s.report := by unfold State.saveRestart; split <;> rfl
@[simp] theorem saveRestart_freeIndex (s : State) (b : Bool) (pc : Word) : (s.saveRestart b pc).freeIndex = s.freeIndex := by unfold State.saveRestart; split <;> rfl

/-! `recordCause` -/

@[simp] theorem recordCause_mem (s : State) (c : BitVec 5) (l : Fin 64) : (s.recordCause c l).mem = s.mem := rfl
@[simp] theorem recordCause_cache (s : State) (c : BitVec 5) (l : Fin 64) : (s.recordCause c l).cache = s.cache := rfl
@[simp] theorem recordCause_hwPending (s : State) (c : BitVec 5) (l : Fin 64) : (s.recordCause c l).hwPending = s.hwPending := rfl
@[simp] theorem recordCause_swPending (s : State) (c : BitVec 5) (l : Fin 64) : (s.recordCause c l).swPending = s.swPending := rfl
@[simp] theorem recordCause_runState (s : State) (c : BitVec 5) (l : Fin 64) : (s.recordCause c l).runState = s.runState := rfl
@[simp] theorem recordCause_cycles (s : State) (c : BitVec 5) (l : Fin 64) : (s.recordCause c l).cycles = s.cycles := rfl
@[simp] theorem recordCause_execTime (s : State) (c : BitVec 5) (l : Fin 64) : (s.recordCause c l).execTime = s.execTime := rfl
@[simp] theorem recordCause_exitCode (s : State) (c : BitVec 5) (l : Fin 64) : (s.recordCause c l).exitCode = s.exitCode := rfl
@[simp] theorem recordCause_breakpoints (s : State) (c : BitVec 5) (l : Fin 64) : (s.recordCause c l).breakpoints = s.breakpoints := rfl
@[simp] theorem recordCause_nextInDelaySlot (s : State) (c : BitVec 5) (l : Fin 64) : (s.recordCause c l).nextInDelaySlot = s.nextInDelaySlot := rfl
@[simp] theorem recordCause_snapshot (s : State) (c : BitVec 5) (l : Fin 64) : (s.recordCause c l).snapshot = s.snapshot := rfl
@[simp] theorem recordCause_setup (s : State) (c : BitVec 5) (l : Fin 64) : (s.recordCause c l).setup = s.setup := rfl
@[simp] theorem recordCause_inputQueue (s : State) (c : BitVec 5) (l : Fin 64) : (s.recordCause c l).inputQueue = s.inputQueue := rfl
@[simp] theorem recordCause_undoLog (s : State) (c : BitVec 5) (l : Fin 64) : (s.recordCause c l).undoLog = s.undoLog := rfl
@[simp] theorem recordCause_memoryLevels (s : State) (c : BitVec 5) (l : Fin 64) : (s.recordCause c l).memoryLevels = s.memoryLevels := rfl
@[simp] theorem recordCause_unsynced (s : State) (c : BitVec 5) (l : Fin 64) : (s.recordCause c l).unsynced = s.unsynced := rfl
@[simp] theorem recordCause_singleStep (s : State) (c : BitVec 5) (l : Fin 64) : (s.recordCause c l).singleStep = s.singleStep := rfl
@[simp] theorem recordCause_executing (s : State) (c : BitVec 5) (l : Fin 64) : (s.recordCause c l).executing = s.executing := rfl
@[simp] theorem recordCause_openEntry (s : State) (c : BitVec 5) (l : Fin 64) : (s.recordCause c l).openEntry = s.openEntry := rfl
@[simp] theorem recordCause_commands (s : State) (c : BitVec 5) (l : Fin 64) : (s.recordCause c l).commands = s.commands := rfl
@[simp] theorem recordCause_interleaved (s : State) (c : BitVec 5) (l : Fin 64) : (s.recordCause c l).interleaved = s.interleaved := rfl
@[simp] theorem recordCause_report (s : State) (c : BitVec 5) (l : Fin 64) : (s.recordCause c l).report = s.report := rfl
@[simp] theorem recordCause_freeIndex (s : State) (c : BitVec 5) (l : Fin 64) : (s.recordCause c l).freeIndex = s.freeIndex := rfl

/-! `recordBadAddr` -/

@[simp] theorem recordBadAddr_mem (s : State) (b : Option Word) : (s.recordBadAddr b).mem = s.mem := by cases b <;> rfl
@[simp] theorem recordBadAddr_cache (s : State) (b : Option Word) : (s.recordBadAddr b).cache = s.cache := by cases b <;> rfl
@[simp] theorem recordBadAddr_hwPending (s : State) (b : Option Word) : (s.recordBadAddr b).hwPending = s.hwPending := by cases b <;> rfl
@[simp] theorem recordBadAddr_swPending (s : State) (b : Option Word) : (s.recordBadAddr b).swPending = s.swPending := by cases b <;> rfl
@[simp] theorem recordBadAddr_runState (s : State) (b : Option Word) : (s.recordBadAddr b).runState = s.runState := by cases b <;> rfl
@[simp] theorem recordBadAddr_cycles (s : State) (b : Option Word) : (s.recordBadAddr b).cycles = s.cycles := by cases b <;> rfl
@[simp] theorem recordBadAddr_execTime (s : State) (b : Option Word) : (s.recordBadAddr b).execTime = s.execTime := by cases b <;> rfl
@[simp] theorem recordBadAddr_exitCode (s : State) (b : Option Word) : (s.recordBadAddr b).exitCode = s.exitCode := by cases b <;> rfl
@[simp] theorem recordBadAddr_breakpoints (s : State) (b : Option Word) : (s.recordBadAddr b).breakpoints = s.breakpoints := by cases b <;> rfl
@[simp] theorem recordBadAddr_nextInDelaySlot (s : State) (b : Option Word) : (s.recordBadAddr b).nextInDelaySlot = s.nextInDelaySlot := by cases b <;> rfl
@[simp] theorem recordBadAddr_snapshot (s : State) (b : Option Word) : (s.recordBadAddr b).snapshot = s.snapshot := by cases b <;> rfl
@[simp] theorem recordBadAddr_setup (s : State) (b : Option Word) : (s.recordBadAddr b).setup = s.setup := by cases b <;> rfl
@[simp] theorem recordBadAddr_inputQueue (s : State) (b : Option Word) : (s.recordBadAddr b).inputQueue = s.inputQueue := by cases b <;> rfl
@[simp] theorem recordBadAddr_undoLog (s : State) (b : Option Word) : (s.recordBadAddr b).undoLog = s.undoLog := by cases b <;> rfl
@[simp] theorem recordBadAddr_memoryLevels (s : State) (b : Option Word) : (s.recordBadAddr b).memoryLevels = s.memoryLevels := by cases b <;> rfl
@[simp] theorem recordBadAddr_unsynced (s : State) (b : Option Word) : (s.recordBadAddr b).unsynced = s.unsynced := by cases b <;> rfl
@[simp] theorem recordBadAddr_singleStep (s : State) (b : Option Word) : (s.recordBadAddr b).singleStep = s.singleStep := by cases b <;> rfl
@[simp] theorem recordBadAddr_executing (s : State) (b : Option Word) : (s.recordBadAddr b).executing = s.executing := by cases b <;> rfl
@[simp] theorem recordBadAddr_openEntry (s : State) (b : Option Word) : (s.recordBadAddr b).openEntry = s.openEntry := by cases b <;> rfl
@[simp] theorem recordBadAddr_commands (s : State) (b : Option Word) : (s.recordBadAddr b).commands = s.commands := by cases b <;> rfl
@[simp] theorem recordBadAddr_interleaved (s : State) (b : Option Word) : (s.recordBadAddr b).interleaved = s.interleaved := by cases b <;> rfl
@[simp] theorem recordBadAddr_report (s : State) (b : Option Word) : (s.recordBadAddr b).report = s.report := by cases b <;> rfl
@[simp] theorem recordBadAddr_freeIndex (s : State) (b : Option Word) : (s.recordBadAddr b).freeIndex = s.freeIndex := by cases b <;> rfl

/-! `checkVector` -/

@[simp] theorem checkVector_regs (s : State) (t : Word) (c : BitVec 5) : (s.checkVector t c).regs = s.regs := by unfold State.checkVector; split <;> rfl
@[simp] theorem checkVector_mem (s : State) (t : Word) (c : BitVec 5) : (s.checkVector t c).mem = s.mem := by unfold State.checkVector; split <;> rfl
@[simp] theorem checkVector_cache (s : State) (t : Word) (c : BitVec 5) : (s.checkVector t c).cache = s.cache := by unfold State.checkVector; split <;> rfl
@[simp] theorem checkVector_hwPending (s : State) (t : Word) (c : BitVec 5) : (s.checkVector t c).hwPending = s.hwPending := by unfold State.checkVector; split <;> rfl
@[simp] theorem checkVector_swPending (s : State) (t : Word) (c : BitVec 5) : (s.checkVector t c).swPending = s.swPending := by unfold State.checkVector; split <;> rfl
@[simp] theorem checkVector_cycles (s : State) (t : Word) (c : BitVec 5) : (s.checkVector t c).cycles = s.cycles := by unfold State.checkVector; split <;> rfl
@[simp] theorem checkVector_execTime (s : State) (t : Word) (c : BitVec 5) : (s.checkVector t c).execTime = s.execTime := by unfold State.checkVector; split <;> rfl
@[simp] theorem checkVector_breakpoints (s : State) (t : Word) (c : BitVec 5) : (s.checkVector t c).breakpoints = s.breakpoints := by unfold State.checkVector; split <;> rfl
@[simp] theorem checkVector_nextInDelaySlot (s : State) (t : Word) (c : BitVec 5) : (s.checkVector t c).nextInDelaySlot = s.nextInDelaySlot := by unfold State.checkVector; split <;> rfl
@[simp] theorem checkVector_snapshot (s : State) (t : Word) (c : BitVec 5) : (s.checkVector t c).snapshot = s.snapshot := by unfold State.checkVector; split <;> rfl
@[simp] theorem checkVector_setup (s : State) (t : Word) (c : BitVec 5) : (s.checkVector t c).setup = s.setup := by unfold State.checkVector; split <;> rfl
@[simp] theorem checkVector_inputQueue (s : State) (t : Word) (c : BitVec 5) : (s.checkVector t c).inputQueue = s.inputQueue := by unfold State.checkVector; split <;> rfl
@[simp] theorem checkVector_undoLog (s : State) (t : Word) (c : BitVec 5) : (s.checkVector t c).undoLog = s.undoLog := by unfold State.checkVector; split <;> rfl
@[simp] theorem checkVector_memoryLevels (s : State) (t : Word) (c : BitVec 5) : (s.checkVector t c).memoryLevels = s.memoryLevels := by unfold State.checkVector; split <;> rfl
@[simp] theorem checkVector_unsynced (s : State) (t : Word) (c : BitVec 5) : (s.checkVector t c).unsynced = s.unsynced := by unfold State.checkVector; split <;> rfl
@[simp] theorem checkVector_singleStep (s : State) (t : Word) (c : BitVec 5) : (s.checkVector t c).singleStep = s.singleStep := by unfold State.checkVector; split <;> rfl
@[simp] theorem checkVector_executing (s : State) (t : Word) (c : BitVec 5) : (s.checkVector t c).executing = s.executing := by unfold State.checkVector; split <;> rfl
@[simp] theorem checkVector_deltas (s : State) (t : Word) (c : BitVec 5) : (s.checkVector t c).deltas = s.deltas := by unfold State.checkVector; split <;> rfl
@[simp] theorem checkVector_openEntry (s : State) (t : Word) (c : BitVec 5) : (s.checkVector t c).openEntry = s.openEntry := by unfold State.checkVector; split <;> rfl
@[simp] theorem checkVector_commands (s : State) (t : Word) (c : BitVec 5) : (s.checkVector t c).commands = s.commands := by unfold State.checkVector; split <;> rfl
@[simp] theorem checkVector_interleaved (s : State) (t : Word) (c : BitVec 5) : (s.checkVector t c).interleaved = s.interleaved := by unfold State.checkVector; split <;> rfl
@[simp] theorem checkVector_freeIndex (s : State) (t : Word) (c : BitVec 5) : (s.checkVector t c).freeIndex = s.freeIndex := by unfold State.checkVector; split <;> rfl

/-! `invokeInterrupt` -/

@[simp] theorem invokeInterrupt_mem (s : State) (c : BitVec 5) (b : Option Word) (d : Bool) (pc : Word) (l : Fin 64) : (s.invokeInterrupt c b d pc l).mem = s.mem := by simp [State.invokeInterrupt]
@[simp] theorem invokeInterrupt_cache (s : State) (c : BitVec 5) (b : Option Word) (d : Bool) (pc : Word) (l : Fin 64) : (s.invokeInterrupt c b d pc l).cache = s.cache := by simp [State.invokeInterrupt]
@[simp] theorem invokeInterrupt_hwPending (s : State) (c : BitVec 5) (b : Option Word) (d : Bool) (pc : Word) (l : Fin 64) : (s.invokeInterrupt c b d pc l).hwPending = s.hwPending := by simp [State.invokeInterrupt]
@[simp] theorem invokeInterrupt_swPending (s : State) (c : BitVec 5) (b : Option Word) (d : Bool) (pc : Word) (l : Fin 64) : (s.invokeInterrupt c b d pc l).swPending = s.swPending := by simp [State.invokeInterrupt]
@[simp] theorem invokeInterrupt_cycles (s : State) (c : BitVec 5) (b : Option Word) (d : Bool) (pc : Word) (l : Fin 64) : (s.invokeInterrupt c b d pc l).cycles = s.cycles := by simp [State.invokeInterrupt]
@[simp] theorem invokeInterrupt_execTime (s : State) (c : BitVec 5) (b : Option Word) (d : Bool) (pc : Word) (l : Fin 64) : (s.invokeInterrupt c b d pc l).execTime = s.execTime := by simp [State.invokeInterrupt]
@[simp] theorem invokeInterrupt_breakpoints (s : State) (c : BitVec 5) (b : Option Word) (d : Bool) (pc : Word) (l : Fin 64) : (s.invokeInterrupt c b d pc l).breakpoints = s.breakpoints := by simp [State.invokeInterrupt]
@[simp] theorem invokeInterrupt_nextInDelaySlot (s : State) (c : BitVec 5) (b : Option Word) (d : Bool) (pc : Word) (l : Fin 64) : (s.invokeInterrupt c b d pc l).nextInDelaySlot = s.nextInDelaySlot := by simp [State.invokeInterrupt]
@[simp] theorem invokeInterrupt_snapshot (s : State) (c : BitVec 5) (b : Option Word) (d : Bool) (pc : Word) (l : Fin 64) : (s.invokeInterrupt c b d pc l).snapshot = s.snapshot := by simp [State.invokeInterrupt]
@[simp] theorem invokeInterrupt_setup (s : State) (c : BitVec 5) (b : Option Word) (d : Bool) (pc : Word) (l : Fin 64) : (s.invokeInterrupt c b d pc l).setup = s.setup := by simp [State.invokeInterrupt]
@[simp] theorem invokeInterrupt_inputQueue (s : State) (c : BitVec 5) (b : Option Word) (d : Bool) (pc : Word) (l : Fin 64) : (s.invokeInterrupt c b d pc l).inputQueue = s.inputQueue := by simp [State.invokeInterrupt]
@[simp] theorem invokeInterrupt_undoLog (s : State) (c : BitVec 5) (b : Option Word) (d : Bool) (pc : Word) (l : Fin 64) : (s.invokeInterrupt c b d pc l).undoLog = s.undoLog := by simp [State.invokeInterrupt]
@[simp] theorem invokeInterrupt_memoryLevels (s : State) (c : BitVec 5) (b : Option Word) (d : Bool) (pc : Word) (l : Fin 64) : (s.invokeInterrupt c b d pc l).memoryLevels = s.memoryLevels := by simp [State.invokeInterrupt]
@[simp] theorem invokeInterrupt_unsynced (s : State) (c : BitVec 5) (b : Option Word) (d : Bool) (pc : Word) (l : Fin 64) : (s.invokeInterrupt c b d pc l).unsynced = s.unsynced := by simp [State.invokeInterrupt]
@[simp] theorem invokeInterrupt_singleStep (s : State) (c : BitVec 5) (b : Option Word) (d : Bool) (pc : Word) (l : Fin 64) : (s.invokeInterrupt c b d pc l).singleStep = s.singleStep := by simp [State.invokeInterrupt]
@[simp] theorem invokeInterrupt_executing (s : State) (c : BitVec 5) (b : Option Word) (d : Bool) (pc : Word) (l : Fin 64) : (s.invokeInterrupt c b d pc l).executing = s.executing := by simp [State.invokeInterrupt]
@[simp] theorem invokeInterrupt_openEntry (s : State) (c : BitVec 5) (b : Option Word) (d : Bool) (pc : Word) (l : Fin 64) : (s.invokeInterrupt c b d pc l).openEntry = s.openEntry := by simp [State.invokeInterrupt]
@[simp] theorem invokeInterrupt_commands (s : State) (c : BitVec 5) (b : Option Word) (d : Bool) (pc : Word) (l : Fin 64) : (s.invokeInterrupt c b d pc l).commands = s.commands := by simp [State.invokeInterrupt]
@[simp] theorem invokeInterrupt_interleaved (s : State) (c : BitVec 5) (b : Option Word) (d : Bool) (pc : Word) (l : Fin 64) : (s.invokeInterrupt c b d pc l).interleaved = s.interleaved := by simp [State.invokeInterrupt]
@[simp] theorem invokeInterrupt_freeIndex (s : State) (c : BitVec 5) (b : Option Word) (d : Bool) (pc : Word) (l : Fin 64) : (s.invokeInterrupt c b d pc l).freeIndex = s.freeIndex := by simp [State.invokeInterrupt]

/-! `returnFromException` -/

@[simp] theorem returnFromException_mem (s : State) : (s.returnFromException).mem = s.mem := by unfold State.returnFromException; split <;> rfl
@[simp] theorem returnFromException_cache (s : State) : (s.returnFromException).cache = s.cache := by unfold State.returnFromException; split <;> rfl
@[simp] theorem returnFromException_hwPending (s : State) : (s.returnFromException).hwPending = s.hwPending := by unfold State.returnFromException; split <;> rfl
@[simp] theorem returnFromException_swPending (s : State) : (s.returnFromException).swPending = s.swPending := by unfold State.returnFromException; split <;> rfl
@[simp] theorem returnFromException_runState (s : State) : (s.returnFromException).runState = s.runState := by unfold State.returnFromException; split <;> rfl
@[simp] theorem returnFromException_cycles (s : State) : (s.returnFromException).cycles = s.cycles := by unfold State.returnFromException; split <;> rfl
@[simp] theorem returnFromException_execTime (s : State) : (s.returnFromException).execTime = s.execTime := by unfold State.returnFromException; split <;> rfl
@[simp] theorem returnFromException_exitCode (s : State) : (s.returnFromException).exitCode = s.exitCode := by unfold State.returnFromException; split <;> rfl
@[simp] theorem returnFromException_breakpoints (s : State) : (s.returnFromException).breakpoints = s.breakpoints := by unfold State.returnFromException; split <;> rfl
@[simp] theorem returnFromException_nextInDelaySlot (s : State) : (s.returnFromException).nextInDelaySlot = s.nextInDelaySlot := by unfold State.returnFromException; split <;> rfl
@[simp] theorem returnFromException_snapshot (s : State) : (s.returnFromException).snapshot = s.snapshot := by unfold State.returnFromException; split <;> rfl
@[simp] theorem returnFromException_setup (s : State) : (s.returnFromException).setup = s.setup := by unfold State.returnFromException; split <;> rfl
@[simp] theorem returnFromException_inputQueue (s : State) : (s.returnFromException).inputQueue = s.inputQueue := by unfold State.returnFromException; split <;> rfl
@[simp] theorem returnFromException_undoLog (s : State) : (s.returnFromException).undoLog = s.undoLog := by unfold State.returnFromException; split <;> rfl
@[simp] theorem returnFromException_memoryLevels (s : State) : (s.returnFromException).memoryLevels = s.memoryLevels := by unfold State.returnFromException; split <;> rfl
@[simp] theorem returnFromException_unsynced (s : State) : (s.returnFromException).unsynced = s.unsynced := by unfold State.returnFromException; split <;> rfl
@[simp] theorem returnFromException_singleStep (s : State) : (s.returnFromException).singleStep = s.singleStep := by unfold State.returnFromException; split <;> rfl
@[simp] theorem returnFromException_executing (s : State) : (s.returnFromException).executing = s.executing := by unfold State.returnFromException; split <;> rfl
@[simp] theorem returnFromException_openEntry (s : State) : (s.returnFromException).openEntry = s.openEntry := by unfold State.returnFromException; split <;> rfl
@[simp] theorem returnFromException_commands (s : State) : (s.returnFromException).commands = s.commands := by unfold State.returnFromException; split <;> rfl
@[simp] theorem returnFromException_interleaved (s : State) : (s.returnFromException).interleaved = s.interleaved := by unfold State.returnFromException; split <;> rfl
@[simp] theorem returnFromException_report (s : State) : (s.returnFromException).report = s.report := by unfold State.returnFromException; split <;> rfl
@[simp] theorem returnFromException_freeIndex (s : State) : (s.returnFromException).freeIndex = s.freeIndex := by unfold State.returnFromException; split <;> rfl

/-! `takeRequest` -/

@[simp] theorem takeRequest_mem (s : State) : (s.takeRequest).mem = s.mem := by unfold State.takeRequest; split <;> (try split) <;> simp
@[simp] theorem takeRequest_cache (s : State) : (s.takeRequest).cache = s.cache := by unfold State.takeRequest; split <;> (try split) <;> simp
@[simp] theorem takeRequest_cycles (s : State) : (s.takeRequest).cycles = s.cycles := by unfold State.takeRequest; split <;> (try split) <;> simp
@[simp] theorem takeRequest_execTime (s : State) : (s.takeRequest).execTime = s.execTime := by unfold State.takeRequest; split <;> (try split) <;> simp
@[simp] theorem takeRequest_breakpoints (s : State) : (s.takeRequest).breakpoints = s.breakpoints := by unfold State.takeRequest; split <;> (try split) <;> simp
@[simp] theorem takeRequest_nextInDelaySlot (s : State) : (s.takeRequest).nextInDelaySlot = s.nextInDelaySlot := by unfold State.takeRequest; split <;> (try split) <;> simp
@[simp] theorem takeRequest_snapshot (s : State) : (s.takeRequest).snapshot = s.snapshot := by unfold State.takeRequest; split <;> (try split) <;> simp
@[simp] theorem takeRequest_setup (s : State) : (s.takeRequest).setup = s.setup := by unfold State.takeRequest; split <;> (try split) <;> simp
@[simp] theorem takeRequest_inputQueue (s : State) : (s.takeRequest).inputQueue = s.inputQueue := by unfold State.takeRequest; split <;> (try split) <;> simp
@[simp] theorem takeRequest_undoLog (s : State) : (s.takeRequest).undoLog = s.undoLog := by unfold State.takeRequest; split <;> (try split) <;> simp
@[simp] theorem takeRequest_memoryLevels (s : State) : (s.takeRequest).memoryLevels = s.memoryLevels := by unfold State.takeRequest; split <;> (try split) <;> simp
@[simp] theorem takeRequest_unsynced (s : State) : (s.takeRequest).unsynced = s.unsynced := by unfold State.takeRequest; split <;> (try split) <;> simp
@[simp] theorem takeRequest_singleStep (s : State) : (s.takeRequest).singleStep = s.singleStep := by unfold State.takeRequest; split <;> (try split) <;> simp
@[simp] theorem takeRequest_executing (s : State) : (s.takeRequest).executing = s.executing := by unfold State.takeRequest; split <;> (try split) <;> simp
@[simp] theorem takeRequest_commands (s : State) : (s.takeRequest).commands = s.commands := by unfold State.takeRequest; split <;> (try split) <;> simp
@[simp] theorem takeRequest_interleaved (s : State) : (s.takeRequest).interleaved = s.interleaved := by unfold State.takeRequest; split <;> (try split) <;> simp
@[simp] theorem takeRequest_freeIndex (s : State) : (s.takeRequest).freeIndex = s.freeIndex := by unfold State.takeRequest; split <;> (try split) <;> simp

/-! `interruptCheck` -/

@[simp] theorem interruptCheck_mem (s : State) : (s.interruptCheck).mem = s.mem := by unfold State.interruptCheck; split <;> simp
@[simp] theorem interruptCheck_cache (s : State) : (s.interruptCheck).cache = s.cache := by unfold State.interruptCheck; split <;> simp
@[simp] theorem interruptCheck_cycles (s : State) : (s.interruptCheck).cycles = s.cycles := by unfold State.interruptCheck; split <;> simp
@[simp] theorem interruptCheck_execTime (s : State) : (s.interruptCheck).execTime = s.execTime := by unfold State.interruptCheck; split <;> simp
@[simp] theorem interruptCheck_breakpoints (s : State) : (s.interruptCheck).breakpoints = s.breakpoints := by unfold State.interruptCheck; split <;> simp
@[simp] theorem interruptCheck_nextInDelaySlot (s : State) : (s.interruptCheck).nextInDelaySlot = s.nextInDelaySlot := by unfold State.interruptCheck; split <;> simp
@[simp] theorem interruptCheck_snapshot (s : State) : (s.interruptCheck).snapshot = s.snapshot := by unfold State.interruptCheck; split <;> simp
@[simp] theorem interruptCheck_setup (s : State) : (s.interruptCheck).setup = s.setup := by unfold State.interruptCheck; split <;> simp
@[simp] theorem interruptCheck_inputQueue (s : State) : (s.interruptCheck).inputQueue = s.inputQueue := by unfold State.interruptCheck; split <;> simp
@[simp] theorem interruptCheck_undoLog (s : State) : (s.interruptCheck).undoLog = s.undoLog := by unfold State.interruptCheck; split <;> simp
@[simp] theorem interruptCheck_memoryLevels (s : State) : (s.interruptCheck).memoryLevels = s.memoryLevels := by unfold State.interruptCheck; split <;> simp
@[simp] theorem interruptCheck_unsynced (s : State) : (s.interruptCheck).unsynced = s.unsynced := by unfold State.interruptCheck; split <;> simp
@[simp] theorem interruptCheck_singleStep (s : State) : (s.interruptCheck).singleStep = s.singleStep := by unfold State.interruptCheck; split <;> simp
@[simp] theorem interruptCheck_executing (s : State) : (s.interruptCheck).executing = s.executing := by unfold State.interruptCheck; split <;> simp
@[simp] theorem interruptCheck_commands (s : State) : (s.interruptCheck).commands = s.commands := by unfold State.interruptCheck; split <;> simp
@[simp] theorem interruptCheck_interleaved (s : State) : (s.interruptCheck).interleaved = s.interleaved := by unfold State.interruptCheck; split <;> simp
@[simp] theorem interruptCheck_freeIndex (s : State) : (s.interruptCheck).freeIndex = s.freeIndex := by unfold State.interruptCheck; split <;> simp

/-! `checkBreakpoints` -/

@[simp] theorem checkBreakpoints_regs (s : State) : (s.checkBreakpoints).regs = s.regs := by unfold State.checkBreakpoints; split <;> rfl
@[simp] theorem checkBreakpoints_mem (s : State) : (s.checkBreakpoints).mem = s.mem := by unfold State.checkBreakpoints; split <;> rfl
@[simp] theorem checkBreakpoints_cache (s : State) : (s.checkBreakpoints).cache = s.cache := by unfold State.checkBreakpoints; split <;> rfl
@[simp] theorem checkBreakpoints_hwPending (s : State) : (s.checkBreakpoints).hwPending = s.hwPending := by unfold State.checkBreakpoints; split <;> rfl
@[simp] theorem checkBreakpoints_swPending (s : State) : (s.checkBreakpoints).swPending = s.swPending := by unfold State.checkBreakpoints; split <;> rfl
@[simp] theorem checkBreakpoints_cycles (s : State) : (s.checkBreakpoints).cycles = s.cycles := by unfold State.checkBreakpoints; split <;> rfl
@[simp] theorem checkBreakpoints_execTime (s : State) : (s.checkBreakpoints).execTime = s.execTime := by unfold State.checkBreakpoints; split <;> rfl
@[simp] theorem checkBreakpoints_exitCode (s : State) : (s.checkBreakpoints).exitCode = s.exitCode := by unfold State.checkBreakpoints; split <;> rfl
@[simp] theorem checkBreakpoints_breakpoints (s : State) : (s.checkBreakpoints).breakpoints = s.breakpoints := by unfold State.checkBreakpoints; split <;> rfl
@[simp] theorem checkBreakpoints_nextInDelaySlot (s : State) : (s.checkBreakpoints).nextInDelaySlot = s.nextInDelaySlot := by unfold State.checkBreakpoints; split <;> rfl
@[simp] theorem checkBreakpoints_snapshot (s : State) : (s.checkBreakpoints).snapshot = s.snapshot := by unfold State.checkBreakpoints; split <;> rfl
@[simp] theorem checkBreakpoints_setup (s : State) : (s.checkBreakpoints).setup = s.setup := by unfold State.checkBreakpoints; split <;> rfl
@[simp] theorem checkBreakpoints_inputQueue (s : State) : (s.checkBreakpoints).inputQueue = s.inputQueue := by unfold State.checkBreakpoints; split <;> rfl
@[simp] theorem checkBreakpoints_undoLog (s : State) : (s.checkBreakpoints).undoLog = s.undoLog := by unfold State.checkBreakpoints; split <;> rfl
@[simp] theorem checkBreakpoints_memoryLevels (s : State) : (s.checkBreakpoints).memoryLevels = s.memoryLevels := by unfold State.checkBreakpoints; split <;> rfl
@[simp] theorem checkBreakpoints_unsynced (s : State) : (s.checkBreakpoints).unsynced = s.unsynced := by unfold State.checkBreakpoints; split <;> rfl
@[simp] theorem checkBreakpoints_singleStep (s : State) : (s.checkBreakpoints).singleStep = s.singleStep := by unfold State.checkBreakpoints; split <;> rfl
@[simp] theorem checkBreakpoints_executing (s : State) : (s.checkBreakpoints).executing = s.executing := by unfold State.checkBreakpoints; split <;> rfl
@[simp] theorem checkBreakpoints_deltas (s : State) : (s.checkBreakpoints).deltas = s.deltas := by unfold State.checkBreakpoints; split <;> rfl
@[simp] theorem checkBreakpoints_openEntry (s : State) : (s.checkBreakpoints).openEntry = s.openEntry := by unfold State.checkBreakpoints; split <;> rfl
@[simp] theorem checkBreakpoints_commands (s : State) : (s.checkBreakpoints).commands = s.commands := by unfold State.checkBreakpoints; split <;> rfl
@[simp] theorem checkBreakpoints_interleaved (s : State) : (s.checkBreakpoints).interleaved = s.interleaved := by unfold State.checkBreakpoints; split <;> rfl
@[simp] theorem checkBreakpoints_report (s : State) : (s.checkBreakpoints).report = s.report := by unfold State.checkBreakpoints; split <;> rfl
@[simp] theorem checkBreakpoints_freeIndex (s : State) : (s.checkBreakpoints).freeIndex = s.freeIndex := by unfold State.checkBreakpoints; split <;> rfl

/-! `endStep` -/

@[simp] theorem endStep_regs (s : State) : (s.endStep).regs = s.regs := by unfold State.endStep; split <;> rfl
@[simp] theorem endStep_mem (s : State) : (s.endStep).mem = s.mem := by unfold State.endStep; split <;> rfl
@[simp] theorem endStep_cache (s : State) : (s.endStep).cache = s.cache := by unfold State.endStep; split <;> rfl
@[simp] theorem endStep_hwPending (s : State) : (s.endStep).hwPending = s.hwPending := by unfold State.endStep; split <;> rfl
@[simp] theorem endStep_swPending (s : State) : (s.endStep).swPending = s.swPending := by unfold State.endStep; split <;> rfl
@[simp] theorem endStep_cycles (s : State) : (s.endStep).cycles = s.cycles := by unfold State.endStep; split <;> rfl
@[simp] theorem endStep_execTime (s : State) : (s.endStep).execTime = s.execTime := by unfold State.endStep; split <;> rfl
@[simp] theorem endStep_exitCode (s : State) : (s.endStep).exitCode = s.exitCode := by unfold State.endStep; split <;> rfl
@[simp] theorem endStep_breakpoints (s : State) : (s.endStep).breakpoints = s.breakpoints := by unfold State.endStep; split <;> rfl
@[simp] theorem endStep_nextInDelaySlot (s : State) : (s.endStep).nextInDelaySlot = s.nextInDelaySlot := by unfold State.endStep; split <;> rfl
@[simp] theorem endStep_snapshot (s : State) : (s.endStep).snapshot = s.snapshot := by unfold State.endStep; split <;> rfl
@[simp] theorem endStep_setup (s : State) : (s.endStep).setup = s.setup := by unfold State.endStep; split <;> rfl
@[simp] theorem endStep_inputQueue (s : State) : (s.endStep).inputQueue = s.inputQueue := by unfold State.endStep; split <;> rfl
@[simp] theorem endStep_undoLog (s : State) : (s.endStep).undoLog = s.undoLog := by unfold State.endStep; split <;> rfl
@[simp] theorem endStep_memoryLevels (s : State) : (s.endStep).memoryLevels = s.memoryLevels := by unfold State.endStep; split <;> rfl
@[simp] theorem endStep_unsynced (s : State) : (s.endStep).unsynced = s.unsynced := by unfold State.endStep; split <;> rfl
@[simp] theorem endStep_singleStep (s : State) : (s.endStep).singleStep = s.singleStep := by unfold State.endStep; split <;> rfl
@[simp] theorem endStep_executing (s : State) : (s.endStep).executing = s.executing := by unfold State.endStep; split <;> rfl
@[simp] theorem endStep_deltas (s : State) : (s.endStep).deltas = s.deltas := by unfold State.endStep; split <;> rfl
@[simp] theorem endStep_openEntry (s : State) : (s.endStep).openEntry = s.openEntry := by unfold State.endStep; split <;> rfl
@[simp] theorem endStep_commands (s : State) : (s.endStep).commands = s.commands := by unfold State.endStep; split <;> rfl
@[simp] theorem endStep_interleaved (s : State) : (s.endStep).interleaved = s.interleaved := by unfold State.endStep; split <;> rfl
@[simp] theorem endStep_report (s : State) : (s.endStep).report = s.report := by unfold State.endStep; split <;> rfl
@[simp] theorem endStep_freeIndex (s : State) : (s.endStep).freeIndex = s.freeIndex := by unfold State.endStep; split <;> rfl

/-! `applyEffect` -/

@[simp] theorem applyEffect_hwPending (s : State) (e : Effect) : (s.applyEffect e).hwPending = s.hwPending := by cases e <;> simp [State.applyEffect]
@[simp] theorem applyEffect_cycles (s : State) (e : Effect) : (s.applyEffect e).cycles = s.cycles := by cases e <;> simp [State.applyEffect]
@[simp] theorem applyEffect_execTime (s : State) (e : Effect) : (s.applyEffect e).execTime = s.execTime := by cases e <;> simp [State.applyEffect]
@[simp] theorem applyEffect_breakpoints (s : State) (e : Effect) : (s.applyEffect e).breakpoints = s.breakpoints := by cases e <;> simp [State.applyEffect]
@[simp] theorem applyEffect_snapshot (s : State) (e : Effect) : (s.applyEffect e).snapshot = s.snapshot := by cases e <;> simp [State.applyEffect]
@[simp] theorem applyEffect_setup (s : State) (e : Effect) : (s.applyEffect e).setup = s.setup := by cases e <;> simp [State.applyEffect]
@[simp] theorem applyEffect_inputQueue (s : State) (e : Effect) : (s.applyEffect e).inputQueue = s.inputQueue := by cases e <;> simp [State.applyEffect]
@[simp] theorem applyEffect_undoLog (s : State) (e : Effect) : (s.applyEffect e).undoLog = s.undoLog := by cases e <;> simp [State.applyEffect]
@[simp] theorem applyEffect_memoryLevels (s : State) (e : Effect) : (s.applyEffect e).memoryLevels = s.memoryLevels := by cases e <;> simp [State.applyEffect]
@[simp] theorem applyEffect_singleStep (s : State) (e : Effect) : (s.applyEffect e).singleStep = s.singleStep := by cases e <;> simp [State.applyEffect]
@[simp] theorem applyEffect_executing (s : State) (e : Effect) : (s.applyEffect e).executing = s.executing := by cases e <;> simp [State.applyEffect]
@[simp] theorem applyEffect_openEntry (s : State) (e : Effect) : (s.applyEffect e).openEntry = s.openEntry := by cases e <;> simp [State.applyEffect]
@[simp] theorem applyEffect_commands (s : State) (e : Effect) : (s.applyEffect e).commands = s.commands := by cases e <;> simp [State.applyEffect]
@[simp] theorem applyEffect_interleaved (s : State) (e : Effect) : (s.applyEffect e).interleaved = s.interleaved := by cases e <;> simp [State.applyEffect]
@[simp] theorem applyEffect_report (s : State) (e : Effect) : (s.applyEffect e).report = s.report := by cases e <;> simp [State.applyEffect]
@[simp] theorem applyEffect_freeIndex (s : State) (e : Effect) : (s.applyEffect e).freeIndex = s.freeIndex := by cases e <;> simp [State.applyEffect]

/-! `mutate` -/

@[simp] theorem mutate_hwPending (s : State) (e : Effect) : (s.mutate e).hwPending = s.hwPending := by cases e <;> simp [State.mutate, Effect.isMutation, State.applyEffect]
@[simp] theorem mutate_swPending (s : State) (e : Effect) : (s.mutate e).swPending = s.swPending := by cases e <;> simp [State.mutate, Effect.isMutation, State.applyEffect]
@[simp] theorem mutate_runState (s : State) (e : Effect) : (s.mutate e).runState = s.runState := by cases e <;> simp [State.mutate, Effect.isMutation, State.applyEffect]
@[simp] theorem mutate_cycles (s : State) (e : Effect) : (s.mutate e).cycles = s.cycles := by cases e <;> simp [State.mutate, Effect.isMutation, State.applyEffect]
@[simp] theorem mutate_execTime (s : State) (e : Effect) : (s.mutate e).execTime = s.execTime := by cases e <;> simp [State.mutate, Effect.isMutation, State.applyEffect]
@[simp] theorem mutate_exitCode (s : State) (e : Effect) : (s.mutate e).exitCode = s.exitCode := by cases e <;> simp [State.mutate, Effect.isMutation, State.applyEffect]
@[simp] theorem mutate_breakpoints (s : State) (e : Effect) : (s.mutate e).breakpoints = s.breakpoints := by cases e <;> simp [State.mutate, Effect.isMutation, State.applyEffect]
@[simp] theorem mutate_nextInDelaySlot (s : State) (e : Effect) : (s.mutate e).nextInDelaySlot = s.nextInDelaySlot := by cases e <;> simp [State.mutate, Effect.isMutation, State.applyEffect]
@[simp] theorem mutate_snapshot (s : State) (e : Effect) : (s.mutate e).snapshot = s.snapshot := by cases e <;> simp [State.mutate, Effect.isMutation, State.applyEffect]
@[simp] theorem mutate_setup (s : State) (e : Effect) : (s.mutate e).setup = s.setup := by cases e <;> simp [State.mutate, Effect.isMutation, State.applyEffect]
@[simp] theorem mutate_inputQueue (s : State) (e : Effect) : (s.mutate e).inputQueue = s.inputQueue := by cases e <;> simp [State.mutate, Effect.isMutation, State.applyEffect]
@[simp] theorem mutate_undoLog (s : State) (e : Effect) : (s.mutate e).undoLog = s.undoLog := by cases e <;> simp [State.mutate, Effect.isMutation, State.applyEffect]
@[simp] theorem mutate_memoryLevels (s : State) (e : Effect) : (s.mutate e).memoryLevels = s.memoryLevels := by cases e <;> simp [State.mutate, Effect.isMutation, State.applyEffect]
@[simp] theorem mutate_singleStep (s : State) (e : Effect) : (s.mutate e).singleStep = s.singleStep := by cases e <;> simp [State.mutate, Effect.isMutation, State.applyEffect]
@[simp] theorem mutate_executing (s : State) (e : Effect) : (s.mutate e).executing = s.executing := by cases e <;> simp [State.mutate, Effect.isMutation, State.applyEffect]
@[simp] theorem mutate_deltas (s : State) (e : Effect) : (s.mutate e).deltas = s.deltas := by cases e <;> simp [State.mutate, Effect.isMutation, State.applyEffect]
@[simp] theorem mutate_openEntry (s : State) (e : Effect) : (s.mutate e).openEntry = s.openEntry := by cases e <;> simp [State.mutate, Effect.isMutation, State.applyEffect]
@[simp] theorem mutate_commands (s : State) (e : Effect) : (s.mutate e).commands = s.commands := by cases e <;> simp [State.mutate, Effect.isMutation, State.applyEffect]
@[simp] theorem mutate_interleaved (s : State) (e : Effect) : (s.mutate e).interleaved = s.interleaved := by cases e <;> simp [State.mutate, Effect.isMutation, State.applyEffect]
@[simp] theorem mutate_report (s : State) (e : Effect) : (s.mutate e).report = s.report := by cases e <;> simp [State.mutate, Effect.isMutation, State.applyEffect]
@[simp] theorem mutate_freeIndex (s : State) (e : Effect) : (s.mutate e).freeIndex = s.freeIndex := by cases e <;> simp [State.mutate, Effect.isMutation, State.applyEffect]

/-! `requestHardware` -/

@[simp] theorem requestHardware_regs (s : State) (l : Nat) : (s.requestHardware l).regs = s.regs := by unfold State.requestHardware; split <;> rfl
@[simp] theorem requestHardware_mem (s : State) (l : Nat) : (s.requestHardware l).mem = s.mem := by unfold State.requestHardware; split <;> rfl
@[simp] theorem requestHardware_cache (s : State) (l : Nat) : (s.requestHardware l).cache = s.cache := by unfold State.requestHardware; split <;> rfl
@[simp] theorem requestHardware_swPending (s : State) (l : Nat) : (s.requestHardware l).swPending = s.swPending := by unfold State.requestHardware; split <;> rfl
@[simp] theorem requestHardware_runState (s : State) (l : Nat) : (s.requestHardware l).runState = s.runState := by unfold State.requestHardware; split <;> rfl
@[simp] theorem requestHardware_cycles (s : State) (l : Nat) : (s.requestHardware l).cycles = s.cycles := by unfold State.requestHardware; split <;> rfl
@[simp] theorem requestHardware_execTime (s : State) (l : Nat) : (s.requestHardware l).execTime = s.execTime := by unfold State.requestHardware; split <;> rfl
@[simp] theorem requestHardware_exitCode (s : State) (l : Nat) : (s.requestHardware l).exitCode = s.exitCode := by unfold State.requestHardware; split <;> rfl
@[simp] theorem requestHardware_breakpoints (s : State) (l : Nat) : (s.requestHardware l).breakpoints = s.breakpoints := by unfold State.requestHardware; split <;> rfl
@[simp] theorem requestHardware_nextInDelaySlot (s : State) (l : Nat) : (s.requestHardware l).nextInDelaySlot = s.nextInDelaySlot := by unfold State.requestHardware; split <;> rfl
@[simp] theorem requestHardware_snapshot (s : State) (l : Nat) : (s.requestHardware l).snapshot = s.snapshot := by unfold State.requestHardware; split <;> rfl
@[simp] theorem requestHardware_setup (s : State) (l : Nat) : (s.requestHardware l).setup = s.setup := by unfold State.requestHardware; split <;> rfl
@[simp] theorem requestHardware_inputQueue (s : State) (l : Nat) : (s.requestHardware l).inputQueue = s.inputQueue := by unfold State.requestHardware; split <;> rfl
@[simp] theorem requestHardware_undoLog (s : State) (l : Nat) : (s.requestHardware l).undoLog = s.undoLog := by unfold State.requestHardware; split <;> rfl
@[simp] theorem requestHardware_memoryLevels (s : State) (l : Nat) : (s.requestHardware l).memoryLevels = s.memoryLevels := by unfold State.requestHardware; split <;> rfl
@[simp] theorem requestHardware_unsynced (s : State) (l : Nat) : (s.requestHardware l).unsynced = s.unsynced := by unfold State.requestHardware; split <;> rfl
@[simp] theorem requestHardware_singleStep (s : State) (l : Nat) : (s.requestHardware l).singleStep = s.singleStep := by unfold State.requestHardware; split <;> rfl
@[simp] theorem requestHardware_executing (s : State) (l : Nat) : (s.requestHardware l).executing = s.executing := by unfold State.requestHardware; split <;> rfl
@[simp] theorem requestHardware_deltas (s : State) (l : Nat) : (s.requestHardware l).deltas = s.deltas := by unfold State.requestHardware; split <;> rfl
@[simp] theorem requestHardware_openEntry (s : State) (l : Nat) : (s.requestHardware l).openEntry = s.openEntry := by unfold State.requestHardware; split <;> rfl
@[simp] theorem requestHardware_commands (s : State) (l : Nat) : (s.requestHardware l).commands = s.commands := by unfold State.requestHardware; split <;> rfl
@[simp] theorem requestHardware_interleaved (s : State) (l : Nat) : (s.requestHardware l).interleaved = s.interleaved := by unfold State.requestHardware; split <;> rfl
@[simp] theorem requestHardware_freeIndex (s : State) (l : Nat) : (s.requestHardware l).freeIndex = s.freeIndex := by unfold State.requestHardware; split <;> rfl

/-! `putBack` -/

@[simp] theorem putBack_regs (s : State) (r : Request) : (s.putBack r).regs = s.regs := by cases r <;> rfl
@[simp] theorem putBack_mem (s : State) (r : Request) : (s.putBack r).mem = s.mem := by cases r <;> rfl
@[simp] theorem putBack_cache (s : State) (r : Request) : (s.putBack r).cache = s.cache := by cases r <;> rfl
@[simp] theorem putBack_runState (s : State) (r : Request) : (s.putBack r).runState = s.runState := by cases r <;> rfl
@[simp] theorem putBack_cycles (s : State) (r : Request) : (s.putBack r).cycles = s.cycles := by cases r <;> rfl
@[simp] theorem putBack_execTime (s : State) (r : Request) : (s.putBack r).execTime = s.execTime := by cases r <;> rfl
@[simp] theorem putBack_exitCode (s : State) (r : Request) : (s.putBack r).exitCode = s.exitCode := by cases r <;> rfl
@[simp] theorem putBack_breakpoints (s : State) (r : Request) : (s.putBack r).breakpoints = s.breakpoints := by cases r <;> rfl
@[simp] theorem putBack_nextInDelaySlot (s : State) (r : Request) : (s.putBack r).nextInDelaySlot = s.nextInDelaySlot := by cases r <;> rfl
@[simp] theorem putBack_snapshot (s : State) (r : Request) : (s.putBack r).snapshot = s.snapshot := by cases r <;> rfl
@[simp] theorem putBack_setup (s : State) (r : Request) : (s.putBack r).setup = s.setup := by cases r <;> rfl
@[simp] theorem putBack_inputQueue (s : State) (r : Request) : (s.putBack r).inputQueue = s.inputQueue := by cases r <;> rfl
@[simp] theorem putBack_undoLog (s : State) (r : Request) : (s.putBack r).undoLog = s.undoLog := by cases r <;> rfl
@[simp] theorem putBack_memoryLevels (s : State) (r : Request) : (s.putBack r).memoryLevels = s.memoryLevels := by cases r <;> rfl
@[simp] theorem putBack_unsynced (s : State) (r : Request) : (s.putBack r).unsynced = s.unsynced := by cases r <;> rfl
@[simp] theorem putBack_singleStep (s : State) (r : Request) : (s.putBack r).singleStep = s.singleStep := by cases r <;> rfl
@[simp] theorem putBack_executing (s : State) (r : Request) : (s.putBack r).executing = s.executing := by cases r <;> rfl
@[simp] theorem putBack_deltas (s : State) (r : Request) : (s.putBack r).deltas = s.deltas := by cases r <;> rfl
@[simp] theorem putBack_openEntry (s : State) (r : Request) : (s.putBack r).openEntry = s.openEntry := by cases r <;> rfl
@[simp] theorem putBack_commands (s : State) (r : Request) : (s.putBack r).commands = s.commands := by cases r <;> rfl
@[simp] theorem putBack_interleaved (s : State) (r : Request) : (s.putBack r).interleaved = s.interleaved := by cases r <;> rfl
@[simp] theorem putBack_report (s : State) (r : Request) : (s.putBack r).report = s.report := by cases r <;> rfl
@[simp] theorem putBack_freeIndex (s : State) (r : Request) : (s.putBack r).freeIndex = s.freeIndex := by cases r <;> rfl

/-! `outside` -/

@[simp] theorem outside_runState (s : State) (c : OutsideCall) : (s.outside c).runState = s.runState := by cases c <;> simp [State.outside]
@[simp] theorem outside_cycles (s : State) (c : OutsideCall) : (s.outside c).cycles = s.cycles := by cases c <;> simp [State.outside]
@[simp] theorem outside_execTime (s : State) (c : OutsideCall) : (s.outside c).execTime = s.execTime := by cases c <;> simp [State.outside]
@[simp] theorem outside_exitCode (s : State) (c : OutsideCall) : (s.outside c).exitCode = s.exitCode := by cases c <;> simp [State.outside]
@[simp] theorem outside_nextInDelaySlot (s : State) (c : OutsideCall) : (s.outside c).nextInDelaySlot = s.nextInDelaySlot := by cases c <;> simp [State.outside]
@[simp] theorem outside_snapshot (s : State) (c : OutsideCall) : (s.outside c).snapshot = s.snapshot := by cases c <;> simp [State.outside]
@[simp] theorem outside_setup (s : State) (c : OutsideCall) : (s.outside c).setup = s.setup := by cases c <;> simp [State.outside]
@[simp] theorem outside_undoLog (s : State) (c : OutsideCall) : (s.outside c).undoLog = s.undoLog := by cases c <;> simp [State.outside]
@[simp] theorem outside_singleStep (s : State) (c : OutsideCall) : (s.outside c).singleStep = s.singleStep := by cases c <;> simp [State.outside]
@[simp] theorem outside_executing (s : State) (c : OutsideCall) : (s.outside c).executing = s.executing := by cases c <;> simp [State.outside]
@[simp] theorem outside_deltas (s : State) (c : OutsideCall) : (s.outside c).deltas = s.deltas := by cases c <;> simp [State.outside]
@[simp] theorem outside_openEntry (s : State) (c : OutsideCall) : (s.outside c).openEntry = s.openEntry := by cases c <;> simp [State.outside]
@[simp] theorem outside_commands (s : State) (c : OutsideCall) : (s.outside c).commands = s.commands := by cases c <;> simp [State.outside]
@[simp] theorem outside_interleaved (s : State) (c : OutsideCall) : (s.outside c).interleaved = s.interleaved := by cases c <;> simp [State.outside]
@[simp] theorem outside_freeIndex (s : State) (c : OutsideCall) : (s.outside c).freeIndex = s.freeIndex := by cases c <;> simp [State.outside]

/-! `outsideAll` and `gap` -/

@[simp] theorem outsideAll_runState (s : State) (cs : List OutsideCall) : (s.outsideAll cs).runState = s.runState := by
  induction cs generalizing s with
  | nil => rfl
  | cons c cs ih => simp [State.outsideAll, ih]
@[simp] theorem outsideAll_cycles (s : State) (cs : List OutsideCall) : (s.outsideAll cs).cycles = s.cycles := by
  induction cs generalizing s with
  | nil => rfl
  | cons c cs ih => simp [State.outsideAll, ih]
@[simp] theorem outsideAll_execTime (s : State) (cs : List OutsideCall) : (s.outsideAll cs).execTime = s.execTime := by
  induction cs generalizing s with
  | nil => rfl
  | cons c cs ih => simp [State.outsideAll, ih]
@[simp] theorem outsideAll_exitCode (s : State) (cs : List OutsideCall) : (s.outsideAll cs).exitCode = s.exitCode := by
  induction cs generalizing s with
  | nil => rfl
  | cons c cs ih => simp [State.outsideAll, ih]
@[simp] theorem outsideAll_nextInDelaySlot (s : State) (cs : List OutsideCall) : (s.outsideAll cs).nextInDelaySlot = s.nextInDelaySlot := by
  induction cs generalizing s with
  | nil => rfl
  | cons c cs ih => simp [State.outsideAll, ih]
@[simp] theorem outsideAll_snapshot (s : State) (cs : List OutsideCall) : (s.outsideAll cs).snapshot = s.snapshot := by
  induction cs generalizing s with
  | nil => rfl
  | cons c cs ih => simp [State.outsideAll, ih]
@[simp] theorem outsideAll_setup (s : State) (cs : List OutsideCall) : (s.outsideAll cs).setup = s.setup := by
  induction cs generalizing s with
  | nil => rfl
  | cons c cs ih => simp [State.outsideAll, ih]
@[simp] theorem outsideAll_undoLog (s : State) (cs : List OutsideCall) : (s.outsideAll cs).undoLog = s.undoLog := by
  induction cs generalizing s with
  | nil => rfl
  | cons c cs ih => simp [State.outsideAll, ih]
@[simp] theorem outsideAll_singleStep (s : State) (cs : List OutsideCall) : (s.outsideAll cs).singleStep = s.singleStep := by
  induction cs generalizing s with
  | nil => rfl
  | cons c cs ih => simp [State.outsideAll, ih]
@[simp] theorem outsideAll_executing (s : State) (cs : List OutsideCall) : (s.outsideAll cs).executing = s.executing := by
  induction cs generalizing s with
  | nil => rfl
  | cons c cs ih => simp [State.outsideAll, ih]
@[simp] theorem outsideAll_deltas (s : State) (cs : List OutsideCall) : (s.outsideAll cs).deltas = s.deltas := by
  induction cs generalizing s with
  | nil => rfl
  | cons c cs ih => simp [State.outsideAll, ih]
@[simp] theorem outsideAll_openEntry (s : State) (cs : List OutsideCall) : (s.outsideAll cs).openEntry = s.openEntry := by
  induction cs generalizing s with
  | nil => rfl
  | cons c cs ih => simp [State.outsideAll, ih]
@[simp] theorem outsideAll_commands (s : State) (cs : List OutsideCall) : (s.outsideAll cs).commands = s.commands := by
  induction cs generalizing s with
  | nil => rfl
  | cons c cs ih => simp [State.outsideAll, ih]
@[simp] theorem outsideAll_interleaved (s : State) (cs : List OutsideCall) : (s.outsideAll cs).interleaved = s.interleaved := by
  induction cs generalizing s with
  | nil => rfl
  | cons c cs ih => simp [State.outsideAll, ih]
@[simp] theorem outsideAll_freeIndex (s : State) (cs : List OutsideCall) : (s.outsideAll cs).freeIndex = s.freeIndex := by
  induction cs generalizing s with
  | nil => rfl
  | cons c cs ih => simp [State.outsideAll, ih]
@[simp] theorem gap_runState (s : State) : s.gap.runState = s.runState := by unfold State.gap; split <;> simp
@[simp] theorem gap_cycles (s : State) : s.gap.cycles = s.cycles := by unfold State.gap; split <;> simp
@[simp] theorem gap_execTime (s : State) : s.gap.execTime = s.execTime := by unfold State.gap; split <;> simp
@[simp] theorem gap_exitCode (s : State) : s.gap.exitCode = s.exitCode := by unfold State.gap; split <;> simp
@[simp] theorem gap_nextInDelaySlot (s : State) : s.gap.nextInDelaySlot = s.nextInDelaySlot := by unfold State.gap; split <;> simp
@[simp] theorem gap_snapshot (s : State) : s.gap.snapshot = s.snapshot := by unfold State.gap; split <;> simp
@[simp] theorem gap_setup (s : State) : s.gap.setup = s.setup := by unfold State.gap; split <;> simp
@[simp] theorem gap_undoLog (s : State) : s.gap.undoLog = s.undoLog := by unfold State.gap; split <;> simp
@[simp] theorem gap_singleStep (s : State) : s.gap.singleStep = s.singleStep := by unfold State.gap; split <;> simp
@[simp] theorem gap_executing (s : State) : s.gap.executing = s.executing := by unfold State.gap; split <;> simp
@[simp] theorem gap_deltas (s : State) : s.gap.deltas = s.deltas := by unfold State.gap; split <;> simp
@[simp] theorem gap_openEntry (s : State) : s.gap.openEntry = s.openEntry := by unfold State.gap; split <;> simp
@[simp] theorem gap_commands (s : State) : s.gap.commands = s.commands := by unfold State.gap; split <;> simp
@[simp] theorem gap_freeIndex (s : State) : s.gap.freeIndex = s.freeIndex := by unfold State.gap; split <;> simp

/-! `runEffects`: what every effect and every gap leaves alone, a run leaves alone -/

theorem runBatches_field {α : Type} (f : State → α) (he : ∀ s e, f (s.applyEffect e) = f s) (hg : ∀ s, f s.gap = f s)
    (next : Continue) (batches : List (List OutsideCall)) (done : List Effect) (seen : List View) (rest : Continuation)
    (s : State) : f (State.runBatches next batches done seen rest s).1 = f s := by
  induction batches generalizing done seen rest s with
  | nil =>
    simp only [State.runBatches]
    induction rest.effects generalizing s with
    | nil => rfl
    | cons e es ih => rw [List.foldl_cons, ih, he]
  | cons calls later ih =>
    obtain ⟨es, conclusion⟩ := rest
    cases es with
    | nil => cases calls <;> rfl
    | cons e es => cases calls <;> rw [State.runBatches, ih, hg, he]

@[simp] theorem runEffects_cycles (s : State) (next : Continue) (rest : Continuation) :
    (s.runEffects next rest).1.cycles = s.cycles :=
  runBatches_field State.cycles (fun s e => applyEffect_cycles s e) (fun s => gap_cycles s) ..
@[simp] theorem runEffects_execTime (s : State) (next : Continue) (rest : Continuation) :
    (s.runEffects next rest).1.execTime = s.execTime :=
  runBatches_field State.execTime (fun s e => applyEffect_execTime s e) (fun s => gap_execTime s) ..
@[simp] theorem runEffects_snapshot (s : State) (next : Continue) (rest : Continuation) :
    (s.runEffects next rest).1.snapshot = s.snapshot :=
  runBatches_field State.snapshot (fun s e => applyEffect_snapshot s e) (fun s => gap_snapshot s) ..
@[simp] theorem runEffects_setup (s : State) (next : Continue) (rest : Continuation) :
    (s.runEffects next rest).1.setup = s.setup :=
  runBatches_field State.setup (fun s e => applyEffect_setup s e) (fun s => gap_setup s) ..
@[simp] theorem runEffects_undoLog (s : State) (next : Continue) (rest : Continuation) :
    (s.runEffects next rest).1.undoLog = s.undoLog :=
  runBatches_field State.undoLog (fun s e => applyEffect_undoLog s e) (fun s => gap_undoLog s) ..
@[simp] theorem runEffects_singleStep (s : State) (next : Continue) (rest : Continuation) :
    (s.runEffects next rest).1.singleStep = s.singleStep :=
  runBatches_field State.singleStep (fun s e => applyEffect_singleStep s e) (fun s => gap_singleStep s) ..
@[simp] theorem runEffects_executing (s : State) (next : Continue) (rest : Continuation) :
    (s.runEffects next rest).1.executing = s.executing :=
  runBatches_field State.executing (fun s e => applyEffect_executing s e) (fun s => gap_executing s) ..
@[simp] theorem runEffects_openEntry (s : State) (next : Continue) (rest : Continuation) :
    (s.runEffects next rest).1.openEntry = s.openEntry :=
  runBatches_field State.openEntry (fun s e => applyEffect_openEntry s e) (fun s => gap_openEntry s) ..
@[simp] theorem runEffects_commands (s : State) (next : Continue) (rest : Continuation) :
    (s.runEffects next rest).1.commands = s.commands :=
  runBatches_field State.commands (fun s e => applyEffect_commands s e) (fun s => gap_commands s) ..
@[simp] theorem runEffects_freeIndex (s : State) (next : Continue) (rest : Continuation) :
    (s.runEffects next rest).1.freeIndex = s.freeIndex :=
  runBatches_field State.freeIndex (fun s e => applyEffect_freeIndex s e) (fun s => gap_freeIndex s) ..

/-! `conclude` -/

@[simp] theorem conclude_regs (s : State) (i : Instr) (c : Conclusion) : (s.conclude i c).regs = s.regs := by cases c <;> rfl
@[simp] theorem conclude_mem (s : State) (i : Instr) (c : Conclusion) : (s.conclude i c).mem = s.mem := by cases c <;> rfl
@[simp] theorem conclude_cache (s : State) (i : Instr) (c : Conclusion) : (s.conclude i c).cache = s.cache := by cases c <;> rfl
@[simp] theorem conclude_hwPending (s : State) (i : Instr) (c : Conclusion) : (s.conclude i c).hwPending = s.hwPending := by cases c <;> rfl
@[simp] theorem conclude_swPending (s : State) (i : Instr) (c : Conclusion) : (s.conclude i c).swPending = s.swPending := by cases c <;> rfl
@[simp] theorem conclude_cycles (s : State) (i : Instr) (c : Conclusion) : (s.conclude i c).cycles = s.cycles := by cases c <;> rfl
@[simp] theorem conclude_execTime (s : State) (i : Instr) (c : Conclusion) : (s.conclude i c).execTime = s.execTime := by cases c <;> rfl
@[simp] theorem conclude_exitCode (s : State) (i : Instr) (c : Conclusion) : (s.conclude i c).exitCode = s.exitCode := by cases c <;> rfl
@[simp] theorem conclude_breakpoints (s : State) (i : Instr) (c : Conclusion) : (s.conclude i c).breakpoints = s.breakpoints := by cases c <;> rfl
@[simp] theorem conclude_nextInDelaySlot (s : State) (i : Instr) (c : Conclusion) : (s.conclude i c).nextInDelaySlot = s.nextInDelaySlot := by cases c <;> rfl
@[simp] theorem conclude_snapshot (s : State) (i : Instr) (c : Conclusion) : (s.conclude i c).snapshot = s.snapshot := by cases c <;> rfl
@[simp] theorem conclude_setup (s : State) (i : Instr) (c : Conclusion) : (s.conclude i c).setup = s.setup := by cases c <;> rfl
@[simp] theorem conclude_undoLog (s : State) (i : Instr) (c : Conclusion) : (s.conclude i c).undoLog = s.undoLog := by cases c <;> rfl
@[simp] theorem conclude_memoryLevels (s : State) (i : Instr) (c : Conclusion) : (s.conclude i c).memoryLevels = s.memoryLevels := by cases c <;> rfl
@[simp] theorem conclude_unsynced (s : State) (i : Instr) (c : Conclusion) : (s.conclude i c).unsynced = s.unsynced := by cases c <;> rfl
@[simp] theorem conclude_singleStep (s : State) (i : Instr) (c : Conclusion) : (s.conclude i c).singleStep = s.singleStep := by cases c <;> rfl
@[simp] theorem conclude_deltas (s : State) (i : Instr) (c : Conclusion) : (s.conclude i c).deltas = s.deltas := by cases c <;> rfl
@[simp] theorem conclude_openEntry (s : State) (i : Instr) (c : Conclusion) : (s.conclude i c).openEntry = s.openEntry := by cases c <;> rfl
@[simp] theorem conclude_commands (s : State) (i : Instr) (c : Conclusion) : (s.conclude i c).commands = s.commands := by cases c <;> rfl
@[simp] theorem conclude_interleaved (s : State) (i : Instr) (c : Conclusion) : (s.conclude i c).interleaved = s.interleaved := by cases c <;> rfl
@[simp] theorem conclude_freeIndex (s : State) (i : Instr) (c : Conclusion) : (s.conclude i c).freeIndex = s.freeIndex := by cases c <;> rfl

/-! `undoDelta` -/

@[simp] theorem undoDelta_hwPending (s : State) (d : Delta) : (s.undoDelta d).hwPending = s.hwPending := by cases d <;> simp [State.undoDelta]
@[simp] theorem undoDelta_swPending (s : State) (d : Delta) : (s.undoDelta d).swPending = s.swPending := by cases d <;> simp [State.undoDelta]
@[simp] theorem undoDelta_runState (s : State) (d : Delta) : (s.undoDelta d).runState = s.runState := by cases d <;> simp [State.undoDelta]
@[simp] theorem undoDelta_cycles (s : State) (d : Delta) : (s.undoDelta d).cycles = s.cycles := by cases d <;> simp [State.undoDelta]
@[simp] theorem undoDelta_execTime (s : State) (d : Delta) : (s.undoDelta d).execTime = s.execTime := by cases d <;> simp [State.undoDelta]
@[simp] theorem undoDelta_exitCode (s : State) (d : Delta) : (s.undoDelta d).exitCode = s.exitCode := by cases d <;> simp [State.undoDelta]
@[simp] theorem undoDelta_breakpoints (s : State) (d : Delta) : (s.undoDelta d).breakpoints = s.breakpoints := by cases d <;> simp [State.undoDelta]
@[simp] theorem undoDelta_nextInDelaySlot (s : State) (d : Delta) : (s.undoDelta d).nextInDelaySlot = s.nextInDelaySlot := by cases d <;> simp [State.undoDelta]
@[simp] theorem undoDelta_snapshot (s : State) (d : Delta) : (s.undoDelta d).snapshot = s.snapshot := by cases d <;> simp [State.undoDelta]
@[simp] theorem undoDelta_setup (s : State) (d : Delta) : (s.undoDelta d).setup = s.setup := by cases d <;> simp [State.undoDelta]
@[simp] theorem undoDelta_inputQueue (s : State) (d : Delta) : (s.undoDelta d).inputQueue = s.inputQueue := by cases d <;> simp [State.undoDelta]
@[simp] theorem undoDelta_undoLog (s : State) (d : Delta) : (s.undoDelta d).undoLog = s.undoLog := by cases d <;> simp [State.undoDelta]
@[simp] theorem undoDelta_memoryLevels (s : State) (d : Delta) : (s.undoDelta d).memoryLevels = s.memoryLevels := by cases d <;> simp [State.undoDelta]
@[simp] theorem undoDelta_singleStep (s : State) (d : Delta) : (s.undoDelta d).singleStep = s.singleStep := by cases d <;> simp [State.undoDelta]
@[simp] theorem undoDelta_executing (s : State) (d : Delta) : (s.undoDelta d).executing = s.executing := by cases d <;> simp [State.undoDelta]
@[simp] theorem undoDelta_deltas (s : State) (d : Delta) : (s.undoDelta d).deltas = s.deltas := by cases d <;> simp [State.undoDelta]
@[simp] theorem undoDelta_openEntry (s : State) (d : Delta) : (s.undoDelta d).openEntry = s.openEntry := by cases d <;> simp [State.undoDelta]
@[simp] theorem undoDelta_commands (s : State) (d : Delta) : (s.undoDelta d).commands = s.commands := by cases d <;> simp [State.undoDelta]
@[simp] theorem undoDelta_interleaved (s : State) (d : Delta) : (s.undoDelta d).interleaved = s.interleaved := by cases d <;> simp [State.undoDelta]
@[simp] theorem undoDelta_report (s : State) (d : Delta) : (s.undoDelta d).report = s.report := by cases d <;> simp [State.undoDelta]
@[simp] theorem undoDelta_freeIndex (s : State) (d : Delta) : (s.undoDelta d).freeIndex = s.freeIndex := by cases d <;> simp [State.undoDelta]

/-! `undoDeltas` -/

@[simp] theorem undoDeltas_hwPending (s : State) (ds : List Delta) : (s.undoDeltas ds).hwPending = s.hwPending := by
  induction ds generalizing s with
  | nil => rfl
  | cons d ds ih => simp [State.undoDeltas, ih]
@[simp] theorem undoDeltas_swPending (s : State) (ds : List Delta) : (s.undoDeltas ds).swPending = s.swPending := by
  induction ds generalizing s with
  | nil => rfl
  | cons d ds ih => simp [State.undoDeltas, ih]
@[simp] theorem undoDeltas_runState (s : State) (ds : List Delta) : (s.undoDeltas ds).runState = s.runState := by
  induction ds generalizing s with
  | nil => rfl
  | cons d ds ih => simp [State.undoDeltas, ih]
@[simp] theorem undoDeltas_cycles (s : State) (ds : List Delta) : (s.undoDeltas ds).cycles = s.cycles := by
  induction ds generalizing s with
  | nil => rfl
  | cons d ds ih => simp [State.undoDeltas, ih]
@[simp] theorem undoDeltas_execTime (s : State) (ds : List Delta) : (s.undoDeltas ds).execTime = s.execTime := by
  induction ds generalizing s with
  | nil => rfl
  | cons d ds ih => simp [State.undoDeltas, ih]
@[simp] theorem undoDeltas_exitCode (s : State) (ds : List Delta) : (s.undoDeltas ds).exitCode = s.exitCode := by
  induction ds generalizing s with
  | nil => rfl
  | cons d ds ih => simp [State.undoDeltas, ih]
@[simp] theorem undoDeltas_breakpoints (s : State) (ds : List Delta) : (s.undoDeltas ds).breakpoints = s.breakpoints := by
  induction ds generalizing s with
  | nil => rfl
  | cons d ds ih => simp [State.undoDeltas, ih]
@[simp] theorem undoDeltas_nextInDelaySlot (s : State) (ds : List Delta) : (s.undoDeltas ds).nextInDelaySlot = s.nextInDelaySlot := by
  induction ds generalizing s with
  | nil => rfl
  | cons d ds ih => simp [State.undoDeltas, ih]
@[simp] theorem undoDeltas_snapshot (s : State) (ds : List Delta) : (s.undoDeltas ds).snapshot = s.snapshot := by
  induction ds generalizing s with
  | nil => rfl
  | cons d ds ih => simp [State.undoDeltas, ih]
@[simp] theorem undoDeltas_setup (s : State) (ds : List Delta) : (s.undoDeltas ds).setup = s.setup := by
  induction ds generalizing s with
  | nil => rfl
  | cons d ds ih => simp [State.undoDeltas, ih]
@[simp] theorem undoDeltas_inputQueue (s : State) (ds : List Delta) : (s.undoDeltas ds).inputQueue = s.inputQueue := by
  induction ds generalizing s with
  | nil => rfl
  | cons d ds ih => simp [State.undoDeltas, ih]
@[simp] theorem undoDeltas_undoLog (s : State) (ds : List Delta) : (s.undoDeltas ds).undoLog = s.undoLog := by
  induction ds generalizing s with
  | nil => rfl
  | cons d ds ih => simp [State.undoDeltas, ih]
@[simp] theorem undoDeltas_memoryLevels (s : State) (ds : List Delta) : (s.undoDeltas ds).memoryLevels = s.memoryLevels := by
  induction ds generalizing s with
  | nil => rfl
  | cons d ds ih => simp [State.undoDeltas, ih]
@[simp] theorem undoDeltas_singleStep (s : State) (ds : List Delta) : (s.undoDeltas ds).singleStep = s.singleStep := by
  induction ds generalizing s with
  | nil => rfl
  | cons d ds ih => simp [State.undoDeltas, ih]
@[simp] theorem undoDeltas_executing (s : State) (ds : List Delta) : (s.undoDeltas ds).executing = s.executing := by
  induction ds generalizing s with
  | nil => rfl
  | cons d ds ih => simp [State.undoDeltas, ih]
@[simp] theorem undoDeltas_deltas (s : State) (ds : List Delta) : (s.undoDeltas ds).deltas = s.deltas := by
  induction ds generalizing s with
  | nil => rfl
  | cons d ds ih => simp [State.undoDeltas, ih]
@[simp] theorem undoDeltas_openEntry (s : State) (ds : List Delta) : (s.undoDeltas ds).openEntry = s.openEntry := by
  induction ds generalizing s with
  | nil => rfl
  | cons d ds ih => simp [State.undoDeltas, ih]
@[simp] theorem undoDeltas_commands (s : State) (ds : List Delta) : (s.undoDeltas ds).commands = s.commands := by
  induction ds generalizing s with
  | nil => rfl
  | cons d ds ih => simp [State.undoDeltas, ih]
@[simp] theorem undoDeltas_interleaved (s : State) (ds : List Delta) : (s.undoDeltas ds).interleaved = s.interleaved := by
  induction ds generalizing s with
  | nil => rfl
  | cons d ds ih => simp [State.undoDeltas, ih]
@[simp] theorem undoDeltas_report (s : State) (ds : List Delta) : (s.undoDeltas ds).report = s.report := by
  induction ds generalizing s with
  | nil => rfl
  | cons d ds ih => simp [State.undoDeltas, ih]
@[simp] theorem undoDeltas_freeIndex (s : State) (ds : List Delta) : (s.undoDeltas ds).freeIndex = s.freeIndex := by
  induction ds generalizing s with
  | nil => rfl
  | cons d ds ih => simp [State.undoDeltas, ih]

end Sys2Proof.Machine
end

