-- ==== Sys2Proof/Laws/Cache.lean ====
section
/-! SUPPORT. Laws of the instruction cache: what the snoop, a fill and a clear do to entries, that they
keep its bounds, and that a snooped write keeps it coherent (R24, R216). -/

namespace Sys2Proof.Machine

/-! ## Sets of addresses -/

theorem mem_insertAddress {a x : Word} {bs : List Word} : x ∈ insertAddress a bs ↔ x = a ∨ x ∈ bs := by
  induction bs with
  | nil => simp [insertAddress]
  | cons b bs ih =>
    unfold insertAddress
    split
    · simp
    · split
      · rename_i h; subst h; simp
      · simp only [List.mem_cons, ih]; tauto

theorem insertAddress_ordered {a : Word} {bs : List Word} (h : bs.Pairwise (fun a b => a.toNat < b.toNat)) :
    (insertAddress a bs).Pairwise (fun a b => a.toNat < b.toNat) := by
  induction bs with
  | nil => simp [insertAddress]
  | cons b bs ih =>
    have hc := List.pairwise_cons.mp h
    unfold insertAddress
    split
    · rename_i hlt
      refine List.pairwise_cons.mpr ⟨fun x hx => ?_, h⟩
      rcases List.mem_cons.mp hx with rfl | hx
      · exact hlt
      · exact lt_trans hlt (hc.1 x hx)
    · split
      · exact h
      · rename_i h1 h2
        refine List.pairwise_cons.mpr ⟨fun x hx => ?_, ih hc.2⟩
        rcases mem_insertAddress.mp hx with rfl | hx
        · have hne : x.toNat ≠ b.toNat := fun he => h2 (BitVec.eq_of_toNat_eq he)
          omega
        · exact hc.1 x hx

theorem mem_foldr_insertAddress {x : Word} {ws bs : List Word} :
    x ∈ ws.foldr insertAddress bs ↔ x ∈ ws ∨ x ∈ bs := by
  induction ws with
  | nil => simp
  | cons w ws ih => simp only [List.foldr_cons, mem_insertAddress, ih, List.mem_cons]; tauto

theorem foldr_insertAddress_ordered {ws bs : List Word} (h : bs.Pairwise (fun a b => a.toNat < b.toNat)) :
    (ws.foldr insertAddress bs).Pairwise (fun a b => a.toNat < b.toNat) := by
  induction ws with
  | nil => exact h
  | cons w ws ih => exact insertAddress_ordered ih

theorem erase_insertAddress {a : Word} {bs : List Word} (h : bs.Pairwise (fun a b => a.toNat < b.toNat)) :
    (insertAddress a bs).erase a = bs.erase a := by
  induction bs with
  | nil => simp [insertAddress]
  | cons b bs ih =>
    have hc := List.pairwise_cons.mp h
    unfold insertAddress
    split
    · rename_i hlt
      have hnot : a ∉ b :: bs := fun hm => by
        rcases List.mem_cons.mp hm with rfl | hm
        · exact lt_irrefl _ hlt
        · exact absurd (hc.1 a hm) (by omega)
      rw [List.erase_cons_head, List.erase_of_not_mem hnot]
    · split
      · rfl
      · rename_i hne
        rw [List.erase_cons_tail (by simpa using fun he => hne he.symm), ih hc.2,
          List.erase_cons_tail (by simpa using fun he => hne he.symm)]

theorem toggled_ordered {a : Word} {bs : List Word} (h : bs.Pairwise (fun a b => a.toNat < b.toNat)) :
    (toggled a bs).Pairwise (fun a b => a.toNat < b.toNat) := by
  unfold toggled
  split
  · exact insertAddress_ordered h
  · exact h.sublist List.erase_sublist
  · exact h

/-- A toggle changes the membership of its own address only. -/
theorem mem_toggled_of_ne {a x : Word} {bs : List Word} (h : x ≠ a) : x ∈ toggled a bs ↔ x ∈ bs := by
  unfold toggled
  split
  · simp [mem_insertAddress, h]
  · exact List.mem_erase_of_ne h
  · rfl

/-! ## Words out of step -/

theorem mem_bypassed_next {o : OutOfStep} {ws : List Word} {x : Word} : x ∈ (o.bypassed ws).next ↔ x ∈ ws ∨ x ∈ o.next :=
  mem_foldr_insertAddress

@[simp] theorem bypassed_stale (o : OutOfStep) (ws : List Word) : (o.bypassed ws).stale = o.stale := rfl

theorem mem_snooped_next {o : OutOfStep} {ws : List Word} {x : Word} : x ∈ (o.snooped ws).next ↔ x ∈ o.next ∧ x ∉ ws := by
  simp [OutOfStep.snooped]

theorem mem_snooped_stale {o : OutOfStep} {ws : List Word} {x : Word} : x ∈ (o.snooped ws).stale ↔ x ∈ o.stale ∧ x ∉ ws := by
  simp [OutOfStep.snooped]

theorem mem_fetched_next {o : OutOfStep} {pc x : Word} {b : Bool} : x ∈ (o.fetched pc b).next ↔ x ∈ o.next ∧ x ≠ pc := by
  simp [OutOfStep.fetched]

theorem mem_fetched_stale {o : OutOfStep} {pc x : Word} {b : Bool} :
    x ∈ (o.fetched pc b).stale ↔ (b = true ∧ x = pc) ∨ x ∈ o.stale := by
  cases b <;> simp [OutOfStep.fetched, mem_insertAddress]

theorem bypassed_ordered {o : OutOfStep} (h : o.Ordered) (ws : List Word) : (o.bypassed ws).Ordered :=
  ⟨foldr_insertAddress_ordered h.1, h.2⟩

theorem snooped_ordered {o : OutOfStep} (h : o.Ordered) (ws : List Word) : (o.snooped ws).Ordered :=
  ⟨h.1.filter _, h.2.filter _⟩

theorem fetched_ordered {o : OutOfStep} (h : o.Ordered) (pc : Word) (b : Bool) : (o.fetched pc b).Ordered := by
  refine ⟨h.1.filter _, ?_⟩
  cases b
  · exact h.2
  · exact insertAddress_ordered h.2

/-! ## The containing word -/

/-- `addr & ~3` drops the two low bits. -/
theorem containingWord_toNat (a : Word) : (containingWord a).toNat = a.toNat / 4 * 4 := by
  have hbit : ∀ i < 32, (0xFFFFFFFC#32).getLsbD i = decide (2 ≤ i) := by decide
  have h : containingWord a = (a >>> 2) <<< 2 := by
    apply BitVec.eq_of_getLsbD_eq
    intro i hi
    simp only [containingWord, BitVec.getLsbD_and, hbit i hi, BitVec.getLsbD_shiftLeft, BitVec.getLsbD_ushiftRight, hi]
    by_cases h2 : 2 ≤ i
    · simp [h2, show ¬ i < 2 by omega, show 2 + (i - 2) = i by omega]
    · simp [h2, show i < 2 by omega]
  have := a.isLt
  rw [h, BitVec.toNat_shiftLeft, BitVec.toNat_ushiftRight, Nat.shiftRight_eq_div_pow, Nat.shiftLeft_eq]
  exact Nat.mod_eq_of_lt (by omega)

/-- The word a stored byte lies in is one of the touched words. -/
theorem containingWord_mem_touchedWords (a : Word) {n j : Nat} (hj : j < n) (hn : n ≤ 2 ^ 32) :
    containingWord (a + BitVec.ofNat 32 j) ∈ touchedWords a n := by
  rw [touchedWords, List.mem_map]
  refine ⟨(a.toNat % 4 + j) / 4, ?_, ?_⟩
  · rw [List.mem_range]
    have : (a.toNat % 4 + j) / 4 < (a.toNat % 4 + n + 3) / 4 := by omega
    exact this
  · apply BitVec.eq_of_toNat_eq
    have ha := a.isLt
    simp only [BitVec.toNat_add, containingWord_toNat, BitVec.toNat_ofNat]
    omega

/-- Every touched word holds a stored byte. -/
theorem exists_of_mem_touchedWords {a wa : Word} {n : Nat} (hn : 0 < n) (h : wa ∈ touchedWords a n) :
    ∃ j < n, wa = containingWord (a + BitVec.ofNat 32 j) := by
  rw [touchedWords, List.mem_map] at h
  obtain ⟨k, hk, rfl⟩ := h
  rw [List.mem_range] at hk
  have ha := a.isLt
  refine ⟨4 * k - a.toNat % 4, by omega, BitVec.eq_of_toNat_eq ?_⟩
  simp only [BitVec.toNat_add, containingWord_toNat, BitVec.toNat_ofNat]
  omega

/-- The touched words are word addresses. -/
theorem touchedWords_aligned {a wa : Word} {n : Nat} (h : wa ∈ touchedWords a n) : wa.toNat % 4 = 0 := by
  rw [touchedWords, List.mem_map] at h
  obtain ⟨k, _, rfl⟩ := h
  have ha := a.isLt
  simp only [BitVec.toNat_add, containingWord_toNat, BitVec.toNat_ofNat]
  omega

/-! ## What one snooped word does -/

@[simp] theorem snoopWord_textBase (c : ICache) (a wa : Word) : (c.snoopWord a wa).textBase = c.textBase := by
  unfold ICache.snoopWord; split <;> (try split) <;> rfl

@[simp] theorem snoopWord_textLimit (c : ICache) (a wa : Word) : (c.snoopWord a wa).textLimit = c.textLimit := by
  unfold ICache.snoopWord; split <;> (try split) <;> rfl

/-- A text word in the array loses its entry; beyond it the array grows by empty entries; nothing else
changes. -/
theorem snoopWord_cases (c : ICache) (a wa : Word) :
    (c.isText wa = false ∧ c.snoopWord a wa = c) ∨
    (c.isText wa = true ∧ c.index wa < c.size ∧
      c.snoopWord a wa = { c with entries := c.entries.set (c.index wa) none }) ∨
    (c.isText wa = true ∧ c.size ≤ c.index wa ∧ c.snoopWord a wa = c.grow (c.index wa) (growthEnd a wa)) := by
  unfold ICache.snoopWord
  by_cases ht : c.isText wa = true
  · by_cases hi : c.index wa < c.size
    · exact .inr (.inl ⟨ht, hi, by simp [ht, hi]⟩)
    · exact .inr (.inr ⟨ht, by omega, by simp [ht, hi]⟩)
  · exact .inl ⟨by simpa using ht, by simp [ht]⟩

/-- A filled entry after one snooped word was filled before, and is not that word's. -/
theorem snoopWord_entry {c : ICache} {a wa : Word} {i : Nat} {e : Entry}
    (h : (c.snoopWord a wa).entries[i]? = some (some e)) :
    c.entries[i]? = some (some e) ∧ ¬ (c.isText wa = true ∧ c.index wa = i) := by
  rcases snoopWord_cases c a wa with ⟨ht, heq⟩ | ⟨ht, hi, heq⟩ | ⟨ht, hi, heq⟩ <;> rw [heq] at h
  · exact ⟨h, fun hh => by simp [ht] at hh⟩
  · rw [List.getElem?_set] at h
    split at h
    · split at h <;> simp at h
    · rename_i hne
      exact ⟨h, fun hh => hne hh.2⟩
  · simp only [ICache.grow, List.getElem?_append, List.getElem?_replicate] at h
    split at h
    · rename_i hlt
      refine ⟨h, fun hh => ?_⟩
      unfold ICache.size at hi
      omega
    · split at h <;> simp at h

/-- Every entry after one snooped word is empty or was there before. -/
theorem snoopWord_size (c : ICache) (a wa : Word) : c.size ≤ (c.snoopWord a wa).size := by
  rcases snoopWord_cases c a wa with ⟨_, heq⟩ | ⟨_, _, heq⟩ | ⟨_, _, heq⟩ <;> rw [heq]
  · simp [ICache.size]
  · simp [ICache.size, ICache.grow]

theorem snoopWord_bounded {c : ICache} (h : c.Bounded) (a wa : Word) : (c.snoopWord a wa).Bounded := by
  obtain ⟨h4, hle, hsz⟩ := h
  rcases snoopWord_cases c a wa with ⟨_, heq⟩ | ⟨_, _, heq⟩ | ⟨ht, hi, heq⟩ <;> rw [heq]
  · exact ⟨h4, hle, hsz⟩
  · exact ⟨h4, hle, by simpa [ICache.size] using hsz⟩
  · refine ⟨h4, hle, ?_⟩
    simp only [ICache.isText, decide_eq_true_eq] at ht
    simp only [ICache.grow, ICache.size, List.length_append, List.length_replicate]
    simp only [ICache.index, Nat.shiftRight_eq_div_pow, ICache.size] at hi ⊢
    omega

/-! ## The whole snoop -/

/-- What holds of every word snoop holds of the fold of them. -/
theorem snoopFold_induct {P : ICache → Prop} (a : Word) (ws : List Word)
    (hP : ∀ c, ∀ wa ∈ ws, P c → P (c.snoopWord a wa)) (c : ICache) (h : P c) :
    P (ws.foldl (fun c wa => c.snoopWord a wa) c) := by
  induction ws generalizing c with
  | nil => exact h
  | cons w ws ih =>
    exact ih (fun c wa hwa => hP c wa (List.mem_cons_of_mem _ hwa)) _ (hP c w List.mem_cons_self h)

@[simp] theorem snoopWrite_textBase (c : ICache) (a : Word) (n : Nat) : (c.snoopWrite a n).textBase = c.textBase :=
  snoopFold_induct (P := fun c' => c'.textBase = c.textBase) a _ (fun c' wa _ h => by simpa using h) c rfl

@[simp] theorem snoopWrite_textLimit (c : ICache) (a : Word) (n : Nat) : (c.snoopWrite a n).textLimit = c.textLimit :=
  snoopFold_induct (P := fun c' => c'.textLimit = c.textLimit) a _ (fun c' wa _ h => by simpa using h) c rfl

theorem snoopWrite_bounded {c : ICache} (h : c.Bounded) (a : Word) (n : Nat) : (c.snoopWrite a n).Bounded :=
  snoopFold_induct (P := ICache.Bounded) a _ (fun _ wa _ h => snoopWord_bounded h a wa) c h

/-- The array never shrinks by a snoop (R211). -/
theorem snoopWrite_size (c : ICache) (a : Word) (n : Nat) : c.size ≤ (c.snoopWrite a n).size :=
  snoopFold_induct (P := fun c' => c.size ≤ c'.size) a _
    (fun c' wa _ h => le_trans h (snoopWord_size c' a wa)) c le_rfl

/-- A filled entry after a snoop was filled before, and is of no touched text word (R210, R218). -/
theorem snoopWrite_entry {c : ICache} {a : Word} {n i : Nat} {e : Entry}
    (h : (c.snoopWrite a n).entries[i]? = some (some e)) :
    c.entries[i]? = some (some e) ∧ ∀ wa ∈ touchedWords a n, ¬ (c.isText wa = true ∧ c.index wa = i) := by
  unfold ICache.snoopWrite at h
  generalize touchedWords a n = ws at h ⊢
  induction ws generalizing c with
  | nil => exact ⟨h, by simp⟩
  | cons w ws ih =>
    obtain ⟨h1, h2⟩ := ih h
    obtain ⟨h3, h4⟩ := snoopWord_entry h1
    refine ⟨h3, fun wa hwa => ?_⟩
    rcases List.mem_cons.mp hwa with rfl | hwa
    · exact h4
    · simpa [ICache.isText, ICache.index] using h2 wa hwa

/-- A filled entry that is not the snooped word's stays (R218). -/
theorem snoopWord_keeps {c : ICache} {a wa : Word} {i : Nat} {e : Entry} (h : c.entries[i]? = some (some e))
    (hi : ¬ (c.isText wa = true ∧ c.index wa = i)) : (c.snoopWord a wa).entries[i]? = some (some e) := by
  rcases snoopWord_cases c a wa with ⟨_, heq⟩ | ⟨ht, _, heq⟩ | ⟨_, _, heq⟩ <;> rw [heq]
  · exact h
  · rw [List.getElem?_set_ne (fun hne => hi ⟨ht, hne⟩)]
    exact h
  · obtain ⟨hlt, _⟩ := List.getElem?_eq_some_iff.mp h
    rw [ICache.grow, List.getElem?_append_left hlt]
    exact h

/-- A filled entry of no touched text word stays (R218). -/
theorem snoopWrite_keeps {c : ICache} {a : Word} {n i : Nat} {e : Entry} (h : c.entries[i]? = some (some e))
    (hi : ∀ wa ∈ touchedWords a n, ¬ (c.isText wa = true ∧ c.index wa = i)) :
    (c.snoopWrite a n).entries[i]? = some (some e) := by
  refine (snoopFold_induct (P := fun c' => (c'.textBase = c.textBase ∧ c'.textLimit = c.textLimit) ∧
    c'.entries[i]? = some (some e)) a _ (fun c' wa hwa hc => ?_) c ⟨⟨rfl, rfl⟩, h⟩).2
  refine ⟨by simpa using hc.1, snoopWord_keeps hc.2 ?_⟩
  simpa [ICache.isText, ICache.index, hc.1.1, hc.1.2] using hi wa hwa

/-! ## The end of the covered text -/

/-- The boundary a growth moves to lies in the word grown for (R211). -/
theorem growthEnd_bounds (a wa : Word) :
    wa.toNat ≤ (growthEnd a wa).toNat ∧ (growthEnd a wa).toNat ≤ wa.toNat + 3 := by
  unfold growthEnd
  split
  · rename_i h
    have := a.isLt
    rw [h, containingWord_toNat]
    omega
  · omega

theorem snoopWord_endInLastWord {c : ICache} (hb : c.Bounded) (h : c.EndInLastWord) {a wa : Word}
    (h4 : wa.toNat % 4 = 0) : (c.snoopWord a wa).EndInLastWord := by
  rcases snoopWord_cases c a wa with ⟨_, heq⟩ | ⟨_, _, heq⟩ | ⟨ht, hi, heq⟩ <;> rw [heq]
  · exact h
  · intro hpos
    simpa [ICache.size] using h (by simpa [ICache.size] using hpos)
  · intro _
    obtain ⟨hb4, _, _⟩ := hb
    simp only [ICache.isText, decide_eq_true_eq] at ht
    have hm := growthEnd_bounds a wa
    simp only [ICache.grow, ICache.size, List.length_append, List.length_replicate]
    simp only [ICache.index, Nat.shiftRight_eq_div_pow, ICache.size] at hi ⊢
    omega

theorem snoopWrite_endInLastWord {c : ICache} (hb : c.Bounded) (h : c.EndInLastWord) (a : Word) (n : Nat) :
    (c.snoopWrite a n).EndInLastWord :=
  (snoopFold_induct (P := fun c => c.Bounded ∧ c.EndInLastWord) a _
    (fun _ wa hwa h => ⟨snoopWord_bounded h.1 a wa, snoopWord_endInLastWord h.1 h.2 (touchedWords_aligned hwa)⟩)
    c ⟨hb, h⟩).2

/-! ## Creation, clear and fill -/

theorem create_endInLastWord (b l : Word) (k : Nat) (hk : b.toNat + 4 * k ≤ l.toNat + 3) (h4 : b.toNat % 4 = 0) :
    (ICache.create b l k).EndInLastWord := by
  intro hpos
  simp only [ICache.create, ICache.size, List.length_replicate, ICache.initialEnd] at hpos ⊢
  have hb := b.isLt
  have hl := l.isLt
  simp only [BitVec.toNat_sub, BitVec.toNat_add, BitVec.toNat_ofNat]
  omega

theorem create_bounded (b l : Word) (k : Nat) (hle : b.toNat ≤ l.toNat) (hk : b.toNat + 4 * k ≤ l.toNat + 3)
    (h4 : b.toNat % 4 = 0) : (ICache.create b l k).Bounded := by
  refine ⟨h4, hle, ?_⟩
  simpa [ICache.create, ICache.size] using hk

/-- A created cache has no filled entry. -/
theorem create_entry (b l : Word) (k i : Nat) (e : Entry) : (ICache.create b l k).entries[i]? ≠ some (some e) := by
  simp only [ICache.create, List.getElem?_replicate]
  split <;> simp

@[simp] theorem fill_textBase (c : ICache) (i : Nat) (e : Entry) : (c.fill i e).textBase = c.textBase := rfl
@[simp] theorem fill_textLimit (c : ICache) (i : Nat) (e : Entry) : (c.fill i e).textLimit = c.textLimit := rfl
@[simp] theorem fill_endAddr (c : ICache) (i : Nat) (e : Entry) : (c.fill i e).endAddr = c.endAddr := rfl
@[simp] theorem fill_size (c : ICache) (i : Nat) (e : Entry) : (c.fill i e).size = c.size := by simp [ICache.fill, ICache.size]

@[simp] theorem fill_index (c : ICache) (i : Nat) (e : Entry) (a : Word) : (c.fill i e).index a = c.index a := rfl
@[simp] theorem fill_inBounds (c : ICache) (i : Nat) (e : Entry) (a : Word) : (c.fill i e).inBounds a = c.inBounds a := by
  rw [ICache.inBounds, fill_size]; rfl

/-- A filled entry is there. -/
theorem fill_entry {c : ICache} {i : Nat} (h : i < c.size) (e : Entry) : (c.fill i e).entries[i]? = some (some e) :=
  List.getElem?_set_self h

theorem fill_bounded {c : ICache} (h : c.Bounded) (i : Nat) (e : Entry) : (c.fill i e).Bounded := by
  simpa [ICache.Bounded] using h

theorem fill_endInLastWord {c : ICache} (h : c.EndInLastWord) (i : Nat) (e : Entry) : (c.fill i e).EndInLastWord := by
  simpa [ICache.EndInLastWord] using h

/-! ## Addresses of entries (R23) -/

/-- A covered entry's address is a text address, at its index, and four bytes below the top. -/
theorem entryAddr_spec {c : ICache} (h : c.Bounded) {i : Nat} (hi : i < c.size) :
    (c.entryAddr i).toNat = c.textBase.toNat + 4 * i ∧ c.isText (c.entryAddr i) = true ∧ c.index (c.entryAddr i) = i := by
  obtain ⟨h4, hle, hsz⟩ := h
  have hl := c.textLimit.isLt
  have hv : (c.entryAddr i).toNat = c.textBase.toNat + 4 * i := by
    simp only [ICache.entryAddr, BitVec.toNat_add, BitVec.toNat_ofNat]
    omega
  refine ⟨hv, ?_, ?_⟩
  · simp only [ICache.isText, decide_eq_true_eq, hv]
    omega
  · simp only [ICache.index, hv, Nat.shiftRight_eq_div_pow]
    omega

/-- An aligned in-bounds pc is the address of its entry. -/
theorem entryAddr_index {c : ICache} (h : c.Bounded) {pc : Word} (h4 : pc.toNat % 4 = 0) (hin : c.inBounds pc = true) :
    c.entryAddr (c.index pc) = pc := by
  simp only [ICache.inBounds, Bool.and_eq_true, decide_eq_true_eq] at hin
  obtain ⟨hb4, _, _⟩ := h
  have hp := pc.isLt
  apply BitVec.eq_of_toNat_eq
  simp only [ICache.entryAddr, ICache.index, Nat.shiftRight_eq_div_pow, BitVec.toNat_add, BitVec.toNat_ofNat]
  omega

/-! ## Coherence -/

/-- A fresh decode depends on the decode table, the byte order and the four bytes alone. -/
theorem freshDecode_congr {s t : State} (hs : t.setup = s.setup) (pc : Word)
    (hm : Mem.readBytes t.mem pc 4 = Mem.readBytes s.mem pc 4) : t.freshDecode pc = s.freshDecode pc := by
  simp only [State.freshDecode, State.readWord, hs, hm]

/-- Coherence depends on the cache, memory, setup and the words out of step alone. -/
theorem coherent_congr {s t : State} (hc : t.cache = s.cache) (hm : t.mem = s.mem) (hs : t.setup = s.setup)
    (hu : t.unsynced = s.unsynced) (h : s.Coherent) : t.Coherent := by
  intro i e he hnot
  rw [hc] at he
  rw [State.InStep, hc, hu] at hnot
  rw [freshDecode_congr hs _ (by rw [hm]), hc]
  exact h i e he hnot

/-- A store changes a covered word's fresh decode only where it touches the word. -/
theorem freshDecode_writeBytes {s t : State} (hb : s.cache.Bounded) (hw : Mem.wf s.mem = true) {a : Word} {bs : List Byte}
    (hs : t.setup = s.setup) (hm : t.mem = Mem.writeBytes s.mem a bs) (hn : bs.length ≤ 2 ^ 32) {i : Nat}
    (hi : i < s.cache.size) (hno : s.cache.entryAddr i ∉ touchedWords a bs.length) :
    t.freshDecode (s.cache.entryAddr i) = s.freshDecode (s.cache.entryAddr i) := by
  obtain ⟨haddr, _, _⟩ := entryAddr_spec hb hi
  refine freshDecode_congr hs _ (readBytes_congr _ _ (fun k hk => ?_))
  rw [hm]
  refine readByte_writeBytes_of_outside hw a bs _ (fun j hj heq => ?_)
  have heq' : s.cache.entryAddr i + BitVec.ofNat 32 k = a + BitVec.ofNat 32 j := BitVec.eq_of_toNat_eq heq
  have hcw : containingWord (a + BitVec.ofNat 32 j) = s.cache.entryAddr i := by
    rw [← heq']
    obtain ⟨hb4, _, hsz⟩ := hb
    have hl := s.cache.textLimit.isLt
    apply BitVec.eq_of_toNat_eq
    rw [containingWord_toNat, BitVec.toNat_add, BitVec.toNat_ofNat, haddr]
    omega
  exact hno (hcw ▸ containingWord_mem_touchedWords a hj hn)

theorem lt_size_of_entry {c : ICache} {i : Nat} {e : Entry} (h : c.entries[i]? = some (some e)) : i < c.size :=
  (List.getElem?_eq_some_iff.mp h).1

/-- A snooped store keeps the cache coherent: the entries left are of words the store did not touch. -/
theorem portWrite_coherent {s : State} (hb : s.cache.Bounded) (hw : Mem.wf s.mem = true) (h : s.Coherent)
    (a : Word) (bs : List Byte) (hn : bs.length ≤ 2 ^ 32) : (s.portWrite a bs).Coherent := by
  intro i e he hnot
  simp only [State.InStep, portWrite_cache, portWrite_unsynced, mem_snooped_next, mem_snooped_stale] at he hnot ⊢
  obtain ⟨hold, hno⟩ := snoopWrite_entry he
  have hi := lt_size_of_entry hold
  obtain ⟨_, htext, hidx⟩ := entryAddr_spec hb hi
  have hent : (s.cache.snoopWrite a bs.length).entryAddr i = s.cache.entryAddr i := by simp [ICache.entryAddr]
  rw [hent] at hnot ⊢
  have hout : s.cache.entryAddr i ∉ touchedWords a bs.length := fun hmem => hno _ hmem ⟨htext, hidx⟩
  rw [freshDecode_writeBytes hb hw (portWrite_setup ..) (portWrite_mem ..) hn hi hout]
  exact h i e hold ⟨fun hu => hnot.1 ⟨hu, hout⟩, fun hu => hnot.2 ⟨hu, hout⟩⟩

/-- A store that bypasses the synchronized entry keeps every other word coherent (R423). -/
theorem bypassWrite_coherent {s : State} (hb : s.cache.Bounded) (hw : Mem.wf s.mem = true) (h : s.Coherent)
    (a : Word) (bs : List Byte) (hn : bs.length ≤ 2 ^ 32) : (s.bypassWrite a bs).Coherent := by
  intro i e he hnot
  simp only [State.InStep, bypassWrite_cache, bypassWrite_unsynced, mem_bypassed_next, bypassed_stale, not_or] at he hnot ⊢
  rw [freshDecode_writeBytes hb hw (bypassWrite_setup ..) (bypassWrite_mem ..) hn (lt_size_of_entry he) hnot.1.1]
  exact h i e he ⟨hnot.1.2, hnot.2⟩

/-- A fill with the fresh decode of the word keeps the cache coherent (R202). -/
theorem fill_coherent {s : State} (hb : s.cache.Bounded) (h : s.Coherent) {pc : Word} (h4 : pc.toNat % 4 = 0)
    (hin : s.cache.inBounds pc = true) {e : Entry} (he : s.freshDecode pc = .ok e) :
    ({ s with cache := s.cache.fill (s.cache.index pc) e } : State).Coherent := by
  intro i e' he' hnot
  simp only at he' hnot ⊢
  have hent : (s.cache.fill (s.cache.index pc) e).entryAddr i = s.cache.entryAddr i := by simp [ICache.entryAddr]
  change s.freshDecode ((s.cache.fill (s.cache.index pc) e).entryAddr i) = _
  rw [hent] at hnot ⊢
  simp only [ICache.fill, List.getElem?_set] at he'
  split at he'
  · rename_i heq
    subst heq
    rw [entryAddr_index hb h4 hin]
    split at he'
    · simp only [Option.some.injEq] at he'
      exact he' ▸ he
    · cases he'
  · exact h i e' he' hnot

/-- A covered entry's address is in bounds. -/
theorem inBounds_entryAddr {c : ICache} (h : c.Bounded) {i : Nat} (hi : i < c.size) : c.inBounds (c.entryAddr i) = true := by
  obtain ⟨hv, _, hidx⟩ := entryAddr_spec h hi
  simp only [ICache.inBounds, Bool.and_eq_true, decide_eq_true_eq, hidx]
  omega

/-- The one free fetch of a word keeps every other word coherent: its own, if an entry is left there, is
stale from then on (R423). -/
theorem freeFetched_coherent {s : State} (hb : s.cache.Bounded) (h : s.Coherent) {pc : Word} (h4 : pc.toNat % 4 = 0)
    (e : Entry) : (s.freeFetched pc e).Coherent := by
  intro i e' he' hnot
  have hent : (s.freeFetched pc e).cache.entryAddr i = s.cache.entryAddr i := by
    rw [freeFetched_cache]; split <;> rfl
  simp only [State.InStep, hent, freeFetched_unsynced, mem_fetched_next, mem_fetched_stale, not_or, not_and, not_not] at hnot ⊢
  have hold : s.cache.entries[i]? = some (some e') ∧ s.cache.entryAddr i ≠ pc := by
    rw [freeFetched_cache] at he'
    split at he'
    · rename_i hin
      have hne := hnot.2.1 hin
      refine ⟨?_, hne⟩
      simp only [ICache.fill, List.getElem?_set] at he'
      split at he'
      · rename_i hidx
        exact absurd (hidx ▸ entryAddr_index hb h4 hin) hne
      · exact he'
    · rename_i hin
      exact ⟨he', fun heq => hin (heq ▸ inBounds_entryAddr hb (lt_size_of_entry he'))⟩
  exact h i e' hold.1 ⟨fun hu => hold.2 (hnot.1 hu), hnot.2.2⟩

/-! ## Fetch -/

/-- What a successful fetch does: the pc is aligned; the entry is the one in
the cache or the fresh decode, and at most the cache's entry for the pc changes (R201, R202, R205, R206);
the next fetch of a word a bypassing write touched is the decode of the free word (R423). -/
theorem fetch_cases {s t : State} {pc : Word} {e : Entry} (h : s.fetch pc = .fetched t e) :
    pc.toNat % 4 = 0 ∧
    ((pc ∈ s.unsynced.next ∧ t = s.freeFetched pc e ∧
        decodeRaw s.setup.table pc (Config.unsyncedWord s.freeIndex pc) = .ok e) ∨
     (pc ∉ s.unsynced.next ∧
      ((t = s ∧ s.cache.inBounds pc = true ∧ s.cache.entries[s.cache.index pc]? = some (some e)) ∨
       (t = s ∧ s.cache.inBounds pc = false ∧ s.freshDecode pc = .ok e) ∨
       (t = { s with cache := s.cache.fill (s.cache.index pc) e } ∧ s.cache.inBounds pc = true ∧
        s.freshDecode pc = .ok e)))) := by
  unfold State.fetch at h
  split at h
  · cases h
  · rename_i h4
    refine ⟨by omega, ?_⟩
    split at h
    · rename_i hu
      unfold State.fetchUnsynced at h
      split at h
      · rename_i e' he'
        cases h
        exact .inl ⟨hu, rfl, he'⟩
      · cases h
    · rename_i hu
      refine .inr ⟨hu, ?_⟩
      split at h
      · rename_i hin
        split at h
        · rename_i e' he'
          cases h
          exact .inl ⟨rfl, hin, he'⟩
        · split at h
          · rename_i e' he'
            cases h
            exact .inr (.inr ⟨rfl, hin, he'⟩)
          · cases h
      · rename_i hin
        split at h
        · rename_i e' he'
          cases h
          exact .inr (.inl ⟨rfl, by simpa using hin, he'⟩)
        · cases h

/-- A fetch leaves the bounds of the text segment. -/
theorem fetch_text {s t : State} {pc : Word} {e : Entry} (h : s.fetch pc = .fetched t e) :
    t.cache.textBase = s.cache.textBase ∧ t.cache.textLimit = s.cache.textLimit := by
  obtain ⟨_, ⟨_, rfl, _⟩ | ⟨_, ⟨rfl, _⟩ | ⟨rfl, _⟩ | ⟨rfl, _⟩⟩⟩ := fetch_cases h
  · simp only [freeFetched_cache]
    split <;> exact ⟨rfl, rfl⟩
  all_goals exact ⟨rfl, rfl⟩

/-- In a coherent state a fetch of a word in step gives the fresh decode of memory, hit or not (R216). -/
theorem fetch_fresh {s t : State} {pc : Word} {e : Entry} (hb : s.cache.Bounded) (hc : s.Coherent)
    (hu : s.InStep pc) (h : s.fetch pc = .fetched t e) : s.freshDecode pc = .ok e := by
  obtain ⟨h4, ⟨hu', _⟩ | ⟨_, ⟨_, hin, he⟩ | ⟨_, _, he⟩ | ⟨_, _, he⟩⟩⟩ := fetch_cases h
  · exact absurd hu' hu.1
  · have := hc _ _ he
    rw [entryAddr_index hb h4 hin] at this
    exact this hu
  · exact he
  · exact he

/-- A fetch keeps the cache coherent. -/
theorem fetch_coherent {s t : State} {pc : Word} {e : Entry} (hb : s.cache.Bounded) (hc : s.Coherent)
    (h : s.fetch pc = .fetched t e) : t.Coherent := by
  obtain ⟨h4, ⟨_, rfl, _⟩ | ⟨_, ⟨rfl, _⟩ | ⟨rfl, _⟩ | ⟨rfl, hin, he⟩⟩⟩ := fetch_cases h
  · exact freeFetched_coherent hb hc h4 e
  · exact hc
  · exact hc
  · exact fill_coherent hb hc h4 hin he

/-- A failed fetch of an aligned pc names the word it decoded: memory's, or after a bypassing write the free
one (R301). -/
theorem fetch_failed {s : State} {pc raw : Word} (h : s.fetch pc = .failed raw) :
    pc.toNat % 4 = 0 ∧ decodeRaw s.setup.table pc raw = .error raw ∧ (pc ∈ s.unsynced.next ∨ s.freshDecode pc = .error raw) := by
  have hraw : ∀ w r, decodeRaw s.setup.table pc w = .error r → r = w := by
    intro w r hr
    unfold decodeRaw at hr
    split at hr
    · simpa using hr.symm
    · split at hr
      · simpa using hr.symm
      · simp at hr
  have key : ∀ w, decodeRaw s.setup.table pc w = .error raw → decodeRaw s.setup.table pc raw = .error raw := by
    intro w hw
    rw [← hraw w raw hw] at hw
    exact hw
  unfold State.fetch at h
  split at h
  · cases h
  · rename_i h4
    refine ⟨by omega, ?_⟩
    split at h
    · rename_i hu
      unfold State.fetchUnsynced at h
      split at h
      · cases h
      · rename_i he
        cases h
        exact ⟨key _ he, .inl hu⟩
    · split at h
      · split at h
        · cases h
        · split at h
          · cases h
          · rename_i he
            cases h
            exact ⟨key _ he, .inr he⟩
      · split at h
        · cases h
        · rename_i he
          cases h
          exact ⟨key _ he, .inr he⟩

end Sys2Proof.Machine
end

