-- ==== Sys2Proof/Laws/Codec.lean ====
section
/-! SUPPORT. Laws of the codec: which records encode, the bounds of decoded fields, and the fields of the
generic tables. -/

namespace Sys2Proof

/-- The range check passes when every field is in its range. -/
theorem firstOutOfRange_cons (F : Format) (f : Field) (fs : List Field) (v : Int) (vs : List Int) :
    firstOutOfRange F (f :: fs) (v :: vs) = none ↔ f.inRange v = true ∧ firstOutOfRange F fs vs = none := by
  rw [firstOutOfRange]
  by_cases h : f.inRange v = true <;> simp [h]

theorem firstOutOfRange_nil (F : Format) : firstOutOfRange F [] [] = none := rfl

/-- The table's range check is the explicit one of `Instr.encodable`. -/
theorem firstOutOfRange_eq_none (i : Instr) :
    firstOutOfRange i.format i.format.fields i.values = none ↔ i.encodable = true := by
  cases i <;>
    simp only [Instr.format, Format.fields, Instr.values, firstOutOfRange_cons, firstOutOfRange_nil, Field.inRange,
      Field.width, Instr.encodable, below, between, Bool.and_eq_true, decide_eq_true_eq] <;>
    norm_num <;> omega

/-- `encode` gives the packed word on the records of `Instr.encodable`. -/
theorem encode_of_encodable {i : Instr} (h : i.encodable = true) : encode i = .ok i.pack := by
  simp only [encode, (firstOutOfRange_eq_none i).mpr h]

/-- `encode` refuses every other record. -/
theorem encode_of_not_encodable {i : Instr} (h : i.encodable = false) : ∃ e, encode i = .error e := by
  cases hf : firstOutOfRange i.format i.format.fields i.values with
  | some e => exact ⟨e, by simp only [encode, hf]⟩
  | none => simp [(firstOutOfRange_eq_none i).mp hf] at h

/-- A record as decoded is in the range `encode` accepts. -/
theorem encodable_of_wellFormed {i : Instr} (h : i.wellFormed = true) : i.encodable = true := by
  cases i <;>
    simp only [Instr.wellFormed, Instr.encodable, below, between, Bool.and_eq_true, decide_eq_true_eq] at h ⊢ <;> omega

/-- A field is below two to its width (R9). -/
theorem fieldBits_lt (w : Word) (hi lo : Nat) : fieldBits w hi lo < 2 ^ (hi - lo + 1) :=
  Nat.mod_lt _ (Nat.two_pow_pos _)

theorem ufield_bounds (w : Word) (hi lo : Nat) : 0 ≤ ufield w hi lo ∧ ufield w hi lo < 2 ^ (hi - lo + 1) := by
  have := fieldBits_lt w hi lo
  exact ⟨Int.natCast_nonneg _, by unfold ufield zext; exact_mod_cast this⟩

/-- The document's shift method is two's complement at width `n` (R11). -/
theorem sext_eq {n x : Nat} (h1 : 1 ≤ n) (hn : n ≤ 32) (hx : x < 2 ^ n) :
    sext n x = if x < 2 ^ (n - 1) then (x : Int) else (x : Int) - 2 ^ n := by
  obtain ⟨m, rfl⟩ : ∃ m, n = m + 1 := ⟨n - 1, by omega⟩
  obtain ⟨k, hk⟩ : ∃ k, 32 - (m + 1) = k := ⟨_, rfl⟩
  have hp : 2 ^ (m + 1) * 2 ^ k = 2 ^ 32 := by rw [← pow_add]; congr 1; omega
  have hp1 : 2 ^ m * 2 ^ k = 2 ^ 31 := by rw [← pow_add]; congr 1; omega
  have hk0 : 0 < 2 ^ k := Nat.two_pow_pos k
  have hlt : x * 2 ^ k < 2 ^ 32 := by rw [← hp]; exact Nat.mul_lt_mul_of_pos_right hx hk0
  have hx32 : x < 2 ^ 32 := lt_of_le_of_lt (Nat.le_mul_of_pos_right x hk0) hlt
  have hval : ((BitVec.ofNat 32 x) <<< k).toNat = x * 2 ^ k := by
    rw [BitVec.toNat_shiftLeft, BitVec.toNat_ofNat, Nat.mod_eq_of_lt hx32, Nat.shiftLeft_eq, Nat.mod_eq_of_lt hlt]
  rw [sext, hk, BitVec.toInt_sshiftRight, BitVec.toInt_eq_toNat_cond, hval, Int.shiftRight_eq_div_pow]
  have hkz : ((2 ^ k : Nat) : Int) ≠ 0 := by positivity
  have hcond : (2 * (x * 2 ^ k) < 2 ^ 32) ↔ x < 2 ^ (m + 1 - 1) := by
    simp only [Nat.add_sub_cancel]
    constructor
    · intro h
      by_contra hge
      have := Nat.mul_le_mul_right (2 ^ k) (Nat.le_of_not_lt hge)
      omega
    · intro h
      have := Nat.mul_lt_mul_of_pos_right h hk0
      omega
  by_cases hc : x < 2 ^ (m + 1 - 1)
  · rw [if_pos (hcond.mpr hc), if_pos hc]
    push_cast
    exact Int.mul_ediv_cancel _ (by positivity)
  · rw [if_neg (fun h => hc (hcond.mp h)), if_neg hc]
    have : ((x * 2 ^ k : Nat) : Int) - ((2 ^ 32 : Nat) : Int) = ((x : Int) - 2 ^ (m + 1)) * ((2 ^ k : Nat) : Int) := by
      rw [← hp]; push_cast; ring
    rw [this, Int.mul_ediv_cancel _ hkz]

theorem sfield_bounds (w : Word) (hi lo : Nat) (h : hi - lo + 1 ≤ 32) :
    -(2 ^ (hi - lo) : Int) ≤ sfield w hi lo ∧ sfield w hi lo < 2 ^ (hi - lo) := by
  have hx := fieldBits_lt w hi lo
  rw [sfield, sext_eq (by omega) h hx, Nat.add_sub_cancel]
  have h2 : (2 : Int) ^ (hi - lo + 1) = 2 * 2 ^ (hi - lo) := by ring
  have h2n : 2 ^ (hi - lo + 1) = 2 * 2 ^ (hi - lo) := by ring
  have hpos : (0 : Int) < 2 ^ (hi - lo) := by positivity
  rw [h2]
  split
  · rename_i hlt
    have : ((fieldBits w hi lo : Nat) : Int) < 2 ^ (hi - lo) := by exact_mod_cast hlt
    constructor <;> omega
  · rename_i hge
    have h3 : (2 : Int) ^ (hi - lo) ≤ ((fieldBits w hi lo : Nat) : Int) := by exact_mod_cast Nat.le_of_not_lt hge
    have h4 : ((fieldBits w hi lo : Nat) : Int) < 2 * 2 ^ (hi - lo) := by rw [h2n] at hx; exact_mod_cast hx
    constructor <;> omega

@[simp] theorem decode_format (F : Format) (w : Word) : (decode F w).format = F := by cases F <;> rfl

/-- Every decoded record is well formed. -/
theorem decode_wellFormed (F : Format) (w : Word) : (decode F w).wellFormed = true := by
  have u (hi lo) := ufield_bounds w hi lo
  have s (hi lo) := sfield_bounds w hi lo
  cases F <;>
    simp only [decode, decodeR, decodeRsop, decodeI16, decodeI21, decodeI26, decodeJ, decodeI9, decodeRfpu, decodeRifpu,
      decodeRi, decodePcrel16, decodePcrel19, Instr.wellFormed, below, between, Bool.and_eq_true, decide_eq_true_eq] <;>
    (have h1 := u 31 26; have h2 := u 25 21; have h3 := u 20 16; have h4 := u 15 11; have h5 := u 10 6; have h6 := u 5 0
     have h7 := u 15 7; have h8 := u 6 6; have h9 := u 10 0; have h10 := u 20 19
     have g1 := s 15 0 (by norm_num); have g2 := s 20 0 (by norm_num); have g3 := s 25 0 (by norm_num)
     have g4 := s 18 0 (by norm_num)
     norm_num at h1 h2 h3 h4 h5 h6 h7 h8 h9 h10 g1 g2 g3 g4
     omega)

end Sys2Proof
end

