-- ==== Sys2Proof/Laws/Execute.lean ====
section
/-! SUPPORT. Laws of execution: what `exec` answers, once for all arms, and what a run of an executable
leaves alone. -/

namespace Sys2Proof.Machine

/-- Every arm is the shared operation on its record and its format's operands. -/
theorem exec_eq_execute (i : Instr) (s : State) : exec i s = s.execute i (operandsOf i.format) := by
  cases i <;> rfl

/-- On a record that encodes, `exec` answers a next state. -/
theorem exec_of_encodable {i : Instr} (h : i.encodable = true) (s : State) :
    exec i s = .next (s.runExecutable i (operandsOf i.format i.pack s.regs.pc)) := by
  rw [exec_eq_execute, State.execute, encode_of_encodable h]

/-- `exec` never faults, and refuses only a record with a field out of range. -/
theorem exec_cases (i : Instr) (s : State) :
    (i.encodable = true ∧ exec i s = .next (s.runExecutable i (operandsOf i.format i.pack s.regs.pc))) ∨
    (i.encodable = false ∧ ∃ e, encode i = .error e ∧ exec i s = .refused (.codecFieldRange e)) := by
  by_cases h : i.encodable = true
  · exact .inl ⟨h, exec_of_encodable h s⟩
  · have h' : i.encodable = false := by simpa using h
    obtain ⟨e, he⟩ := encode_of_not_encodable h'
    exact .inr ⟨h', e, he, by rw [exec_eq_execute, State.execute, he]⟩

/-- An effect leaves the run state or ends the run. -/
theorem applyEffect_runState (s : State) (e : Effect) :
    (s.applyEffect e).runState = s.runState ∨ (s.applyEffect e).runState = .finished := by
  cases e <;> simp [State.applyEffect]

/-- With no outside call to come, a gap does nothing (R71). -/
theorem gap_of_nil {s : State} (h : s.interleaved = []) : s.gap = s := by
  unfold State.gap; rw [h]

theorem gap_of_cons {s : State} {cs : List OutsideCall} {rest : List (List OutsideCall)} (h : s.interleaved = cs :: rest) :
    s.gap = ({ s with interleaved := rest }).outsideAll cs := by
  unfold State.gap; rw [h]

/-- With no outside call to come, effects follow one another. -/
theorem runEffects_of_nil {s : State} (h : s.interleaved = []) (next : Continue) (rest : Continuation) :
    s.runEffects next rest = (rest.effects.foldl State.applyEffect s, rest.conclusion) := by
  rw [State.runEffects, h, State.runBatches]

/-- What every effect and every outside call keeps, a run of effects with its gaps keeps. -/
theorem gap_induct {P : State → Prop} (hc : ∀ s, P s → ∀ c, P (s.outside c))
    (hi : ∀ s, P s → ∀ l, P { s with interleaved := l }) {s : State} (h : P s) : P s.gap := by
  have hall : ∀ (cs : List OutsideCall) (s : State), P s → P (s.outsideAll cs) := by
    intro cs
    induction cs with
    | nil => intro s h; exact h
    | cons c cs ih => intro s h; exact ih _ (hc s h c)
  unfold State.gap
  split
  · exact h
  · exact hall _ _ (hi s h _)

theorem foldl_applyEffect_induct {P : State → Prop} (he : ∀ s, P s → ∀ e, P (s.applyEffect e)) {s : State} (h : P s)
    (es : List Effect) : P (es.foldl State.applyEffect s) := by
  induction es generalizing s with
  | nil => exact h
  | cons e es ih => exact ih (he s h e)

theorem runBatches_induct {P : State → Prop} (he : ∀ s, P s → ∀ e, P (s.applyEffect e)) (hg : ∀ s, P s → P s.gap)
    (next : Continue) (batches : List (List OutsideCall)) (done : List Effect) (seen : List View) (rest : Continuation)
    {s : State} (h : P s) : P (State.runBatches next batches done seen rest s).1 := by
  induction batches generalizing done seen rest s with
  | nil => exact foldl_applyEffect_induct he h _
  | cons calls later ih =>
    obtain ⟨es, conclusion⟩ := rest
    cases es with
    | nil => cases calls <;> exact h
    | cons e es => cases calls <;> exact ih _ _ _ (hg _ (he s h e))

theorem runEffects_induct {P : State → Prop} (he : ∀ s, P s → ∀ e, P (s.applyEffect e))
    (hc : ∀ s, P s → ∀ c, P (s.outside c)) (hi : ∀ s, P s → ∀ l, P { s with interleaved := l }) {s : State} (h : P s)
    (next : Continue) (rest : Continuation) : P (s.runEffects next rest).1 :=
  runBatches_induct he (fun _ h => gap_induct hc hi h) next _ _ _ rest h

/-- A run of effects leaves the run state or ends the run (R347). -/
theorem runEffects_runState (s : State) (next : Continue) (rest : Continuation) :
    (s.runEffects next rest).1.runState = s.runState ∨ (s.runEffects next rest).1.runState = .finished :=
  runBatches_induct (P := fun u => u.runState = s.runState ∨ u.runState = .finished)
    (fun u h e => by rcases applyEffect_runState u e with h' | h' <;> simp [h', h]) (fun u h => by simpa using h)
    next _ _ _ rest (.inl rfl)

/-- How a run of an executable ends: blocked for input with no effect yet, or its effects and a conclusion
(R345, R349). -/
theorem settle_cases (s : State) (i : Instr) (next : Continue) (x : Execution) :
    (x.ending = .needsInput ∧ s.settle i next x = { s with runState := .lockedOnInput, executing := some i }) ∨
    (∃ c, x.ending.conclusion = some c ∧ s.settle i next x =
      (s.runEffects next ⟨x.effects, c⟩).1.conclude i (s.runEffects next ⟨x.effects, c⟩).2) := by
  unfold State.settle
  cases x.ending with
  | completed k => exact .inr ⟨_, rfl, rfl⟩
  | needsInput => exact .inl ⟨rfl, rfl⟩
  | raised k b => exact .inr ⟨_, rfl, rfl⟩

/-- With no outside call to come a run concludes as it was to (R345, R349). -/
theorem settle_of_nil {s : State} (h : s.interleaved = []) (i : Instr) (next : Continue) {x : Execution} {c : Conclusion}
    (hx : x.ending.conclusion = some c) :
    s.settle i next x = (x.effects.foldl State.applyEffect s).conclude i c := by
  rw [State.settle, hx]
  simp only [runEffects_of_nil h]

/-- Every effect is a register write, a snooped memory write, or a write of one engine field. -/
theorem applyEffect_mem (s : State) (e : Effect) :
    ((s.applyEffect e).mem = s.mem ∧ (s.applyEffect e).cache = s.cache ∧ (s.applyEffect e).unsynced = s.unsynced) ∨
    ∃ a w v, (s.applyEffect e).mem = (s.portWrite a (s.storedBytes w v)).mem ∧
      (s.applyEffect e).cache = (s.portWrite a (s.storedBytes w v)).cache ∧
      (s.applyEffect e).unsynced = (s.portWrite a (s.storedBytes w v)).unsynced := by
  cases e with
  | memWrite a w v q => exact .inr ⟨a, w, v, rfl, rfl, rfl⟩
  | _ => exact .inl (by simp [State.applyEffect])

end Sys2Proof.Machine
end

