-- ==== Sys2Proof/Laws/Frame.lean ====
section
/-! SUPPORT. Laws of frames: what one effect of an executable leaves alone, and that a list of effects
leaves alone what each of them does. -/

namespace Sys2Proof.Machine

/-- A general register reads as before after a write of another. -/
theorem readGpr_writeGpr_of_ne (g : Regs) {r i : Fin 32} (v : Word) (h : r ≠ i) :
    Regs.readGpr (Regs.writeGpr g i v) r = Regs.readGpr g r := by
  unfold Regs.writeGpr Regs.readGpr
  split
  · rfl
  · split
    · rfl
    · simp only [Fin.getElem_fin]
      exact Vector.getElem_set_ne _ _ (by omega)

/-- A general register other than 0 reads as what was written (R27). -/
theorem readGpr_writeGpr_self (g : Regs) {i : Fin 32} (v : Word) (h : i ≠ 0) : Regs.readGpr (Regs.writeGpr g i v) i = v := by
  simp [Regs.writeGpr, Regs.readGpr, h]

theorem readGpr_zero (g : Regs) : Regs.readGpr g 0 = 0#32 := rfl

theorem cop0_read_writeCop0_of_ne (g : Regs) {c c' : Cop0Reg} (v : Word) (h : (c' == c) = false) :
    Cop0.read (Regs.writeCop0 g c' v).cop0 c = Cop0.read g.cop0 c := by
  cases c <;> cases c' <;> first | rfl | simp at h

theorem applyEffect_readGpr (s : State) (e : Effect) (r : Fin 32) (h : ∀ v, e ≠ .writeGpr r v) :
    Regs.readGpr (s.applyEffect e).regs r = Regs.readGpr s.regs r := by
  cases e with
  | writeGpr i v => exact readGpr_writeGpr_of_ne _ _ (fun hh => h v (by rw [hh]))
  | exceptionReturn => simp only [State.applyEffect, State.returnFromException]; split <;> rfl
  | _ => rfl

theorem applyEffect_fpr (s : State) (e : Effect) (r : Fin 32) (h : ∀ v, e ≠ .writeFpr r v) :
    (s.applyEffect e).regs.fpr[r] = s.regs.fpr[r] := by
  cases e with
  | writeFpr i v =>
    have hne : r ≠ i := fun hh => h v (by rw [hh])
    simp only [State.applyEffect, setFpr_regs, Regs.writeFpr, Fin.getElem_fin]
    exact Vector.getElem_set_ne _ _ (by omega)
  | writeGpr i v => simp only [State.applyEffect, setGpr_regs, Regs.writeGpr]; split <;> rfl
  | exceptionReturn => simp only [State.applyEffect, State.returnFromException]; split <;> rfl
  | _ => rfl

theorem applyEffect_cop0 (s : State) (e : Effect) (c : Cop0Reg) (h : e.writesCop0 c = false) :
    Cop0.read (s.applyEffect e).regs.cop0 c = Cop0.read s.regs.cop0 c := by
  cases e with
  | writeGpr i v => simp only [State.applyEffect, setGpr_regs, Regs.writeGpr]; split <;> rfl
  | writeCop0 c' v => exact cop0_read_writeCop0_of_ne _ _ h
  | requestSoftware q => exact cop0_read_writeCop0_of_ne _ _ (by cases c <;> simp_all [Effect.writesCop0])
  | exceptionReturn =>
    have h' : (Cop0Reg.status == c) = false := by cases c <;> simp_all [Effect.writesCop0]
    simp only [State.applyEffect, State.returnFromException]
    split <;> exact cop0_read_writeCop0_of_ne _ _ h'
  | _ => rfl

theorem applyEffect_pc (s : State) (e : Effect) (h : e.writesPc = false) : (s.applyEffect e).regs.pc = s.regs.pc := by
  cases e with
  | writeGpr i v => simp only [State.applyEffect, setGpr_regs, Regs.writeGpr]; split <;> rfl
  | writePc v => simp [Effect.writesPc] at h
  | exceptionReturn => simp [Effect.writesPc] at h
  | _ => rfl

theorem applyEffect_readByte {s : State} (hw : Mem.wf s.mem = true) (e : Effect) (y : Nat) (h : ¬ e.storesAt y) :
    Mem.readByte (s.applyEffect e).mem y = Mem.readByte s.mem y := by
  cases e with
  | memWrite a w v q =>
    apply readByte_writeBytes_of_outside hw
    intro k hk hy
    rw [storedBytes_length] at hk
    exact h ⟨a, w, v, q, rfl, k, hk, hy⟩
  | exceptionReturn => simp [State.applyEffect]
  | _ => rfl

theorem applyEffect_wf {s : State} (hw : Mem.wf s.mem = true) (e : Effect) : Mem.wf (s.applyEffect e).mem = true := by
  rcases applyEffect_mem s e with h | ⟨a, w, v, h, _, _⟩
  · rw [h.1]; exact hw
  · rw [h]; exact wf_writeBytes hw _ _

theorem applyEffect_cache (s : State) (e : Effect) (h : ∀ a w v q, e ≠ .memWrite a w v q) :
    (s.applyEffect e).cache = s.cache := by
  cases e with
  | memWrite a w v q => exact absurd rfl (h a w v q)
  | _ => simp [State.applyEffect]

theorem applyEffect_nextInDelaySlot (s : State) (e : Effect) (h : ∀ b, e ≠ .setNextInDelaySlot b) :
    (s.applyEffect e).nextInDelaySlot = s.nextInDelaySlot := by
  cases e with
  | setNextInDelaySlot b => exact absurd rfl (h b)
  | _ => simp [State.applyEffect]

theorem applyEffect_swPending (s : State) (e : Effect) (h : ∀ q, e ≠ .requestSoftware q) :
    (s.applyEffect e).swPending = s.swPending := by
  cases e with
  | requestSoftware q => exact absurd rfl (h q)
  | _ => simp [State.applyEffect]

theorem applyEffect_end (s : State) (e : Effect) (h : ∀ c, e ≠ .requestExit c) :
    (s.applyEffect e).exitCode = s.exitCode ∧ (s.applyEffect e).runState = s.runState := by
  cases e with
  | requestExit c => exact absurd rfl (h c)
  | _ => simp [State.applyEffect]

theorem applyEffect_textBase (s : State) (e : Effect) :
    (s.applyEffect e).cache.textBase = s.cache.textBase ∧ (s.applyEffect e).cache.textLimit = s.cache.textLimit := by
  cases e <;> simp [State.applyEffect]

/-- What each effect of a list leaves alone, the list leaves alone. -/
theorem applyEffects_frame {α : Type} (f : State → α) (P : Effect → Prop)
    (hP : ∀ s e, Mem.wf s.mem = true → P e → f (s.applyEffect e) = f s) {s : State} (hw : Mem.wf s.mem = true)
    (es : List Effect) (h : ∀ e ∈ es, P e) : f (es.foldl State.applyEffect s) = f s := by
  induction es generalizing s with
  | nil => rfl
  | cons e es ih =>
    rw [List.foldl_cons, ih (applyEffect_wf hw e) (fun e he => h e (List.mem_cons_of_mem _ he)),
      hP s e hw (h e List.mem_cons_self)]

end Sys2Proof.Machine
end

