-- ==== Sys2Proof/Laws/Inv.lean ====
section
/-! SUPPORT. The invariant `State.Inv`: each shared operation keeps it. -/

namespace Sys2Proof.Machine

/-- The part of the invariant about memory and the cache. -/
structure State.MemInv (s : State) : Prop where
  memWf     : Mem.wf s.mem = true
  bounded   : s.cache.Bounded
  endAddr   : s.cache.EndInLastWord
  clearable : s.ClearBounded
  coherent  : s.Coherent
  unsynced  : s.unsynced.Ordered

theorem State.Inv.memInv {s : State} (h : s.Inv) : s.MemInv :=
  ⟨h.memWf, h.bounded, h.endAddr, h.clearable, h.coherent, h.sets.2.2⟩

/-- Memory, the cache, the words out of step and the setup determine `MemInv`. -/
theorem memInv_congr {s t : State} (h : s.MemInv) (hm : t.mem = s.mem) (hc : t.cache = s.cache)
    (hu : t.unsynced = s.unsynced) (hs : t.setup = s.setup) : t.MemInv :=
  ⟨hm ▸ h.memWf, hc ▸ h.bounded, hc ▸ h.endAddr, by simpa only [State.ClearBounded, hc, hs] using h.clearable,
    coherent_congr hc hm hs hu h.coherent, hu ▸ h.unsynced⟩

/-- A snooped store of at most eight bytes keeps `MemInv`. -/
theorem memInv_portWrite {s : State} (h : s.MemInv) (a : Word) (bs : List Byte) (hn : bs.length ≤ 8) :
    (s.portWrite a bs).MemInv where
  memWf := wf_writeBytes h.memWf a bs
  bounded := snoopWrite_bounded h.bounded a _
  endAddr := snoopWrite_endInLastWord h.bounded h.endAddr a _
  clearable := by simpa only [State.ClearBounded, portWrite_cache, portWrite_setup, snoopWrite_textBase, snoopWrite_textLimit] using h.clearable
  coherent := portWrite_coherent h.bounded h.memWf h.coherent a bs (by omega)
  unsynced := snooped_ordered h.unsynced _

/-- So does a store that bypasses the synchronized entry: the words it touches are out of step (R423). -/
theorem memInv_bypassWrite {s : State} (h : s.MemInv) (a : Word) (bs : List Byte) (hn : bs.length ≤ 8) :
    (s.bypassWrite a bs).MemInv where
  memWf := wf_writeBytes h.memWf a bs
  bounded := h.bounded
  endAddr := h.endAddr
  clearable := h.clearable
  coherent := bypassWrite_coherent h.bounded h.memWf h.coherent a bs (by omega)
  unsynced := bypassed_ordered h.unsynced _

theorem memInv_applyEffect {s : State} (h : s.MemInv) (e : Effect) : (s.applyEffect e).MemInv := by
  rcases applyEffect_mem s e with ⟨hm, hc, hu⟩ | ⟨a, w, v, hm, hc, hu⟩
  · exact memInv_congr h hm hc hu (by simp)
  · exact memInv_congr (memInv_portWrite h a (s.storedBytes w v) (by simpa using Width.bytes_le w)) hm hc hu (by simp)

/-- `clear()` keeps `MemInv` (R213, R402), whatever memory is. -/
theorem memInv_clear {s t : State} (h : s.MemInv) (hs : t.setup = s.setup)
    (hc : t.cache = s.cache.clear s.setup.initialEntries) (hu : t.unsynced = ⟨[], []⟩) (hm : Mem.wf t.mem = true) : t.MemInv where
  memWf := hm
  bounded := hc ▸ create_bounded _ _ _ h.bounded.2.1 h.clearable h.bounded.1
  endAddr := hc ▸ create_endInLastWord _ _ _ h.clearable h.bounded.1
  clearable := by simpa only [State.ClearBounded, hc, hs, ICache.clear, ICache.create] using h.clearable
  coherent := by
    intro i e he
    rw [hc] at he
    exact absurd he (create_entry _ _ _ _ _)
  unsynced := by simp [hu, OutOfStep.Ordered]

/-- An outside call keeps `MemInv` (R71, R215, R402, R423). -/
theorem memInv_outside {s : State} (h : s.MemInv) (c : OutsideCall) : (s.outside c).MemInv := by
  cases c with
  | requestHardware l => exact memInv_congr h (by simp [State.outside]) (by simp [State.outside]) (by simp [State.outside]) (by simp)
  | mutate e =>
    simp only [State.outside, State.mutate]
    split
    · exact memInv_congr (memInv_applyEffect h e) rfl rfl rfl rfl
    · exact h
  | bypassWrite a w v => exact memInv_bypassWrite h a _ (by simpa using Width.bytes_le w)
  | cachesReset => exact memInv_clear h rfl rfl rfl h.memWf
  | _ => exact memInv_congr h rfl rfl rfl rfl

theorem memInv_gap {s : State} (h : s.MemInv) : s.gap.MemInv :=
  gap_induct (P := State.MemInv) (fun _ h c => memInv_outside h c) (fun _ h _ => memInv_congr h rfl rfl rfl rfl) h

theorem memInv_runEffects {s : State} (h : s.MemInv) (next : Continue) (rest : Continuation) :
    (s.runEffects next rest).1.MemInv :=
  runEffects_induct (P := State.MemInv) (fun _ h e => memInv_applyEffect h e) (fun _ h c => memInv_outside h c)
    (fun _ h _ => memInv_congr h rfl rfl rfl rfl) h next rest

/-- Undoing a recorded change keeps `MemInv`: its memory write is snooped (R214). -/
theorem memInv_undoDelta {s : State} (h : s.MemInv) (d : Delta) : (s.undoDelta d).MemInv := by
  cases d with
  | mem a w old => exact memInv_portWrite h a _ (by simpa using Width.bytes_le w)
  | _ => exact memInv_congr h rfl rfl rfl rfl

theorem memInv_undoDeltas {s : State} (h : s.MemInv) (ds : List Delta) : (s.undoDeltas ds).MemInv := by
  induction ds generalizing s with
  | nil => exact h
  | cons d ds ih => exact ih (memInv_undoDelta h d)

/-- So does the one free fetch of a word, which it leaves coherent (R423). -/
theorem memInv_freeFetched {s : State} {pc : Word} {e : Entry} (h : s.MemInv) (hc : (s.freeFetched pc e).Coherent) :
    (s.freeFetched pc e).MemInv := by
  have hcache : (s.freeFetched pc e).cache.Bounded ∧ (s.freeFetched pc e).cache.EndInLastWord ∧
      (s.freeFetched pc e).ClearBounded := by
    simp only [State.ClearBounded, freeFetched_cache, freeFetched_setup]
    split
    · exact ⟨fill_bounded h.bounded _ _, fill_endInLastWord h.endAddr _ _, h.clearable⟩
    · exact ⟨h.bounded, h.endAddr, h.clearable⟩
  exact ⟨h.memWf, hcache.1, hcache.2.1, hcache.2.2, hc, fetched_ordered h.unsynced _ _⟩

theorem memInv_fetch {s t : State} {pc : Word} {e : Entry} (h : s.MemInv) (hf : s.fetch pc = .fetched t e) : t.MemInv := by
  have hcoh := fetch_coherent h.bounded h.coherent hf
  obtain ⟨_, ⟨_, rfl, _⟩ | ⟨_, ⟨rfl, _⟩ | ⟨rfl, _⟩ | ⟨rfl, _⟩⟩⟩ := fetch_cases hf
  · exact memInv_freeFetched h hcoh
  · exact h
  · exact h
  · exact ⟨h.memWf, fill_bounded h.bounded _ _, fill_endInLastWord h.endAddr _ _, by
      simpa only [State.ClearBounded, fill_textBase, fill_textLimit] using h.clearable, hcoh, h.unsynced⟩

/-- A fetch changes at most the cache, the words out of step and the free-value counter. -/
theorem fetch_frame {s t : State} {pc : Word} {e : Entry} (hf : s.fetch pc = .fetched t e) :
    t = { s with cache := t.cache, unsynced := t.unsynced, freeIndex := t.freeIndex } := by
  obtain ⟨_, ⟨_, rfl, _⟩ | ⟨_, ⟨rfl, _⟩ | ⟨rfl, _⟩ | ⟨rfl, _⟩⟩⟩ := fetch_cases hf <;> rfl

/-! ## The ordered sets -/

theorem mem_insertLevel {l x : Fin 64} {ks : List (Fin 64)} : x ∈ insertLevel l ks ↔ x = l ∨ x ∈ ks := by
  induction ks with
  | nil => simp [insertLevel]
  | cons k ks ih =>
    unfold insertLevel
    split
    · simp
    · split
      · rename_i h; subst h; simp
      · simp only [List.mem_cons, ih]; tauto

theorem insertLevel_ordered {l : Fin 64} {ks : List (Fin 64)} (h : ks.Pairwise (fun a b => a.val < b.val)) :
    (insertLevel l ks).Pairwise (fun a b => a.val < b.val) := by
  induction ks with
  | nil => simp [insertLevel]
  | cons k ks ih =>
    have hc := List.pairwise_cons.mp h
    unfold insertLevel
    split
    · rename_i hlt
      refine List.pairwise_cons.mpr ⟨fun x hx => ?_, h⟩
      rcases List.mem_cons.mp hx with rfl | hx
      · exact hlt
      · exact lt_trans hlt (hc.1 x hx)
    · split
      · exact h
      · rename_i h1 h2
        refine List.pairwise_cons.mpr ⟨fun x hx => ?_, ih hc.2⟩
        rcases mem_insertLevel.mp hx with rfl | hx
        · have hne : x.val ≠ k.val := fun he => h2 (Fin.ext he)
          have hnlt : ¬ x.val < k.val := h1
          omega
        · exact hc.1 x hx

/-! ## The whole invariant -/

/-- The two sets of the engine: pending levels and breakpoints. -/
def State.EngineSets (s : State) : Prop :=
  s.hwPending.Pairwise (fun a b => a.val < b.val) ∧ s.breakpoints.Pairwise (fun a b => a.toNat < b.toNat)

theorem State.Inv.engineSets {s : State} (h : s.Inv) : s.EngineSets := ⟨h.sets.1, h.sets.2.1⟩

/-- The counted undo records, which are no more than the cycles (R341, R348). -/
def State.UndoDepth (s : State) : Prop := (s.undoLog.filter CycleRecord.counted).length ≤ s.cycles

/-- The fields beside memory and the cache that `Inv` reads. -/
theorem inv_of_memInv {s t : State} (h : s.Inv) (hm : t.MemInv) (h1 : t.snapshot = s.snapshot) (h2 : t.EngineSets)
    (h3 : t.BlockedOk) (h4 : t.UndoDepth) : t.Inv :=
  ⟨hm.memWf, h1 ▸ h.snapshotWf, hm.bounded, hm.endAddr, hm.clearable, hm.coherent, ⟨h2.1, h2.2, hm.unsynced⟩, h3, h4⟩

/-- Not blocked, and no execute open. -/
theorem blockedOk_idle {t : State} (h1 : t.runState ≠ .lockedOnInput) (h2 : t.executing = none) : t.BlockedOk :=
  ⟨fun h => absurd h h1, fun h => absurd h2 h, fun i h => by rw [h2] at h; cases h⟩

/-- Blocked, an execute open. -/
theorem blockedOk_open {t : State} {i : Instr} (h1 : t.runState = .lockedOnInput) (h2 : t.executing = some i)
    (hi : i.wellFormed = true) : t.BlockedOk :=
  ⟨fun _ h => by simp [h2] at h, fun _ => .inl h1, fun j h => by rw [h2] at h; cases h; exact hi⟩

/-- A worker that is running or ready has no execute open. -/
theorem State.Inv.executing_none {s : State} (h : s.Inv) (h1 : s.runState ≠ .lockedOnInput) (h2 : s.runState ≠ .finished) :
    s.executing = none := by
  by_contra hne
  rcases h.blocked.2.1 hne with h' | h'
  · exact h1 h'
  · exact h2 h'

/-! ## Outside calls -/

theorem engineSets_outside {s : State} (h : s.EngineSets) (c : OutsideCall) : (s.outside c).EngineSets := by
  cases c with
  | requestHardware l =>
    simp only [State.outside, State.requestHardware]
    split
    · exact ⟨insertLevel_ordered h.1, h.2⟩
    · exact h
  | mutate e => exact ⟨by simpa [State.outside] using h.1, by simpa [State.outside] using h.2⟩
  | addBreakpoint a => exact ⟨h.1, insertAddress_ordered h.2⟩
  | removeBreakpoint a => exact ⟨h.1, h.2.sublist List.erase_sublist⟩
  | toggleBreakpoint a => exact ⟨h.1, toggled_ordered h.2⟩
  | _ => exact h

/-- The run's own state does not depend on outside calls. -/
theorem blockedOk_congr {s t : State} (h : s.BlockedOk) (h1 : t.runState = s.runState) (h2 : t.executing = s.executing) :
    t.BlockedOk := by
  unfold State.BlockedOk
  rw [h1, h2]
  exact h

/-- An outside call keeps the invariant. -/
theorem inv_outside {s : State} (h : s.Inv) (c : OutsideCall) : (s.outside c).Inv :=
  inv_of_memInv h (memInv_outside h.memInv c) (by simp) (engineSets_outside h.engineSets c)
    (blockedOk_congr h.blocked (by simp) (by simp)) (by simpa [State.UndoDepth] using h.undoDepth)

theorem inv_gap {s : State} (h : s.Inv) : s.gap.Inv :=
  gap_induct (P := State.Inv) (fun _ h c => inv_outside h c)
    (fun _ h _ => inv_of_memInv h (memInv_congr h.memInv rfl rfl rfl rfl) rfl h.engineSets h.blocked h.undoDepth) h

theorem engineSets_runEffects {s : State} (h : s.EngineSets) (next : Continue) (rest : Continuation) :
    (s.runEffects next rest).1.EngineSets :=
  runEffects_induct (P := State.EngineSets) (fun _ h e => ⟨by simpa using h.1, by simpa using h.2⟩)
    (fun _ h c => engineSets_outside h c) (fun _ h _ => h) h next rest

/-! ## A cycle -/

/-- A trap entry leaves the run state or ends the run. -/
theorem invokeInterrupt_runState (s : State) (c : BitVec 5) (b : Option Word) (d : Bool) (pc : Word) (l : Fin 64) :
    (s.invokeInterrupt c b d pc l).runState = s.runState ∨ (s.invokeInterrupt c b d pc l).runState = .finished := by
  unfold State.invokeInterrupt State.checkVector
  split
  · exact .inr rfl
  · exact .inl (by simp)

theorem interruptCheck_runState (s : State) :
    s.interruptCheck.runState = s.runState ∨ s.interruptCheck.runState = .finished := by
  unfold State.interruptCheck State.takeRequest
  split
  · split
    · exact invokeInterrupt_runState _ _ _ _ _ _
    · split
      · exact invokeInterrupt_runState _ _ _ _ _ _
      · exact .inl rfl
  · exact .inl rfl

theorem interruptCheck_hwPending (s : State) : s.interruptCheck.hwPending.Sublist s.hwPending := by
  unfold State.interruptCheck State.takeRequest
  split
  · split
    · simp
    · split
      · simpa using List.erase_sublist
      · exact List.Sublist.refl _
  · exact List.Sublist.refl _

/-- The interrupt check keeps the invariant of a running worker. -/
theorem inv_interruptCheck {s : State} (h : s.Inv) (hr : s.runState = .running) : s.interruptCheck.Inv := by
  have hex := h.executing_none (by simp [hr]) (by simp [hr])
  refine inv_of_memInv h (memInv_congr h.memInv (by simp) (by simp) (by simp) (by simp)) (by simp) ?_ ?_
    (by simpa [State.UndoDepth] using h.undoDepth)
  · exact ⟨h.sets.1.sublist (interruptCheck_hwPending s), by simpa using h.sets.2.1⟩
  · refine blockedOk_idle ?_ (by simpa using hex)
    rcases interruptCheck_runState s with h' | h' <;> simp [h', hr]

/-- The start of a cycle keeps the invariant of an idle worker. -/
theorem inv_beginCycle {s : State} (h : s.Inv) (hex : s.executing = none) (b : Bool) : (s.beginCycle b).Inv :=
  inv_of_memInv h (memInv_congr h.memInv rfl rfl rfl rfl) rfl h.engineSets (blockedOk_idle (by simp) hex) h.undoDepth

/-- The end of a cycle that is not counted keeps the invariant. -/
theorem inv_closeCycle {s : State} (h : s.Inv) : (s.closeCycle false).Inv := by
  refine inv_of_memInv h (memInv_congr h.memInv rfl rfl rfl rfl) rfl h.engineSets h.blocked ?_
  have := h.undoDepth
  unfold State.UndoDepth
  rw [closeCycle_undoLog, closeCycle_cycles]
  split
  · simpa using this
  · exact this

/-- The end of a counted cycle keeps the invariant. -/
theorem inv_countCycle {s : State} (h : s.Inv) : s.countCycle.Inv := by
  refine inv_of_memInv h (memInv_congr h.memInv rfl rfl rfl rfl) rfl h.engineSets h.blocked ?_
  have := h.undoDepth
  unfold State.UndoDepth
  rw [countCycle_undoLog, countCycle_cycles]
  split <;> simp <;> omega

/-- A run that stops at a cycle's end. -/
theorem inv_ready {s : State} (h : s.Inv) (hr : s.runState = .running) : ({ s with runState := .ready } : State).Inv :=
  inv_of_memInv h (memInv_congr h.memInv rfl rfl rfl rfl) rfl h.engineSets
    (blockedOk_idle (by simp) (h.executing_none (by simp [hr]) (by simp [hr]))) h.undoDepth

theorem inv_checkBreakpoints {s : State} (h : s.Inv) : s.checkBreakpoints.Inv := by
  unfold State.checkBreakpoints
  split
  · rename_i hc
    exact inv_ready h hc.1
  · exact h

theorem inv_endStep {s : State} (h : s.Inv) : s.endStep.Inv := by
  unfold State.endStep
  split
  · rename_i hc
    exact inv_ready h hc.1
  · exact h

/-- A run of a decoded record's executable from `u`, and the end of its cycle, establish the invariant from
its memory part, whatever the executable and outside calls do, and whether an execute was open or not. -/
theorem inv_finishCycle_settle {s u : State} (h : s.Inv) (hm : u.MemInv) (hsn : u.snapshot = s.snapshot)
    (hs : u.EngineSets) (hd : u.UndoDepth) (hr : u.runState = .running ∨ u.runState = .finished) {i : Instr}
    (hi : i.wellFormed = true) (next : Continue) (x : Execution) : (u.settle i next x).finishCycle.Inv := by
  rcases settle_cases u i next x with ⟨_, heq⟩ | ⟨c, _, heq⟩ <;> rw [heq]
  · simp only [State.finishCycle, reduceCtorEq, if_false, if_true]
    exact inv_of_memInv h (memInv_congr hm rfl rfl rfl rfl) hsn hs (blockedOk_open rfl rfl hi) hd
  · have hm' := memInv_runEffects hm next ⟨x.effects, c⟩
    have hs' := engineSets_runEffects hs next ⟨x.effects, c⟩
    have hrun : (u.runEffects next ⟨x.effects, c⟩).1.runState ≠ .lockedOnInput := by
      rcases runEffects_runState u next ⟨x.effects, c⟩ with h' | h' <;> rcases hr with hr | hr <;> simp [h', hr]
    cases (u.runEffects next ⟨x.effects, c⟩).2 with
    | completed k =>
      simp only [State.conclude, State.finishCycle, if_true]
      refine inv_checkBreakpoints (inv_countCycle ?_)
      exact inv_of_memInv h (memInv_congr hm' rfl rfl rfl rfl) (by simpa using hsn) hs'
        (blockedOk_idle hrun rfl) (by simpa [State.UndoDepth] using hd)
    | raised k b =>
      have hb : (if b then RunState.finished else RunState.ready) ≠ .lockedOnInput := by cases b <;> simp
      have hinv : ({ (u.runEffects next ⟨x.effects, c⟩).1.conclude i (.raised k b) with executing := none } : State).Inv :=
        inv_of_memInv h (memInv_congr hm' rfl rfl rfl rfl) (by simpa using hsn) hs' (blockedOk_idle hb rfl)
          (by simpa [State.UndoDepth] using hd)
      cases b <;> exact inv_closeCycle hinv

/-- `exec` of a decoded record, and the end of its cycle, keep the invariant. -/
theorem inv_exec {s t : State} (h : s.Inv) (hr : s.runState = .running ∨ s.runState = .finished) {i : Instr}
    (hi : i.wellFormed = true) (he : finishResult (exec i s) = .next t) : t.Inv := by
  rw [exec_of_encodable (encodable_of_wellFormed hi), finishResult] at he
  cases he
  exact inv_finishCycle_settle (u := { s with freeIndex := s.freeIndex + 1 }) h (memInv_congr h.memInv rfl rfl rfl rfl) rfl
    h.engineSets h.undoDepth hr hi _ _

theorem inv_requestSoftware {s : State} (h : s.Inv) (q : SoftwareRequest) : (s.requestSoftware q).Inv :=
  inv_of_memInv h (memInv_congr h.memInv rfl rfl rfl rfl) rfl h.engineSets h.blocked h.undoDepth

/-- A run that ends. -/
theorem inv_finished {s : State} (h : s.Inv) :
    ({ s with runState := .finished } : State).Inv := by
  refine inv_of_memInv h (memInv_congr h.memInv rfl rfl rfl rfl) rfl h.engineSets ?_ h.undoDepth
  exact ⟨fun hh => by simp at hh, fun _ => .inr rfl, h.blocked.2.2⟩

/-- A cycle from its fetch on keeps the invariant, and so does the state a DecodeFailure leaves. -/
theorem inv_fetchAndExecute {s : State} (h : s.Inv) (hr : s.runState = .running) :
    (∀ t, s.fetchAndExecute = .next t → t.Inv) ∧
    (∀ pc raw t, s.fetchAndExecute = .fault (.decodeFailure pc raw t) → t.Inv) := by
  unfold State.fetchAndExecute
  cases hft : s.fetch s.regs.pc with
  | misaligned =>
    refine ⟨fun t ht => ?_, fun pc raw t ht => by cases ht⟩
    cases ht
    exact inv_endStep (inv_countCycle (inv_requestSoftware h _))
  | failed raw =>
    refine ⟨fun t ht => (by cases ht), fun pc raw' t ht => ?_⟩
    cases ht
    exact inv_closeCycle (inv_finished h)
  | fetched u e =>
    have hu := fetch_frame hft
    have hmi := memInv_fetch h.memInv hft
    have hinv : u.Inv := by
      refine inv_of_memInv h hmi ?_ ?_ ?_ ?_ <;> rw [hu]
      · exact h.engineSets
      · exact h.blocked
      · exact h.undoDepth
    have hru : u.gap.runState = .running := by rw [gap_runState, hu]; exact hr
    have hwf := decode_wellFormed e.defn.format e.raw.value
    refine ⟨fun t ht => inv_exec (inv_gap hinv) (.inl hru) hwf ht, fun pc raw t ht => ?_⟩
    simp only at ht
    rw [exec_of_encodable (encodable_of_wellFormed hwf)] at ht
    cases ht

/-- A cycle from the interrupt check's result on keeps the invariant. -/
theorem inv_cycleBody {s : State} (h : s.Inv) (hr : s.runState = .running ∨ s.runState = .finished) :
    (∀ t, s.cycleBody = .next t → t.Inv) ∧ (∀ pc raw t, s.cycleBody = .fault (.decodeFailure pc raw t) → t.Inv) := by
  unfold State.cycleBody
  by_cases hf : s.runState = .finished
  · rw [if_pos hf]
    refine ⟨fun t ht => ?_, fun pc raw t ht => by cases ht⟩
    cases ht
    exact inv_closeCycle h
  · rw [if_neg hf]
    exact inv_fetchAndExecute (inv_gap h) (by simpa using hr.resolve_right hf)

/-- A cycle keeps the invariant, and so does the state a DecodeFailure leaves. -/
theorem inv_cycle {s : State} (h : s.Inv) (hex : s.executing = none) (b : Bool) :
    (∀ t, s.cycle b = .next t → t.Inv) ∧ (∀ pc raw t, s.cycle b = .fault (.decodeFailure pc raw t) → t.Inv) := by
  refine inv_cycleBody (inv_interruptCheck (inv_beginCycle h hex b) rfl) ?_
  rcases interruptCheck_runState (s.beginCycle b) with h' | h' <;> simp [h']

/-! ## The engine's calls -/

/-- A run resumed with more input keeps the invariant. -/
theorem inv_resume {s t : State} (h : s.Inv) (ht : s.resume = .next t) : t.Inv := by
  unfold State.resume at ht
  split at ht
  · rename_i i hr he
    have hwf := h.blocked.2.2 i he
    rw [exec_of_encodable (encodable_of_wellFormed hwf), finishResult] at ht
    cases ht
    exact inv_finishCycle_settle (u := { s with runState := .running, freeIndex := s.freeIndex + 1 }) h
      (memInv_congr h.memInv rfl rfl rfl rfl) rfl h.engineSets h.undoDepth (.inl rfl) hwf _ _
  · cases ht
    exact h

/-- `reset()` establishes the invariant from its memory part and the snapshot's (R401). -/
theorem inv_resetEngine {s : State} (h : s.Inv) : s.resetEngine.Inv :=
  inv_of_memInv h (memInv_clear h.memInv rfl rfl rfl h.snapshotWf) rfl ⟨by simp, by simpa using h.sets.2.1⟩
    (blockedOk_idle (by simp) rfl) (by simp [State.UndoDepth])

/-- Undo keeps the invariant (R214, R348). -/
theorem inv_undoLastStep {s : State} (h : s.Inv) : s.undoLastStep.Inv := by
  unfold State.undoLastStep
  split
  · rename_i r older _ hl
    refine inv_of_memInv h (memInv_congr (memInv_undoDeltas h.memInv r.deltas) rfl rfl rfl rfl) (by simp)
      ⟨by simpa using h.sets.1, by simpa using h.sets.2.1⟩ (blockedOk_congr h.blocked (by simp) (by simp)) ?_
    have := h.undoDepth
    rw [hl] at this
    simp only [State.UndoDepth]
    cases hc : r.counted <;> simp [hc] at this ⊢ <;> omega
  · exact inv_of_memInv h (memInv_congr h.memInv rfl rfl rfl rfl) rfl h.engineSets h.blocked h.undoDepth

/-- `stop()` keeps the invariant (R349). -/
theorem inv_stop {s : State} (h : s.Inv) : s.stop.Inv := by
  unfold State.stop
  split
  · unfold State.unwind
    split
    · exact inv_of_memInv h (memInv_congr h.memInv rfl rfl rfl rfl) rfl h.engineSets (blockedOk_idle (by simp) rfl) h.undoDepth
    · rename_i o _
      refine inv_of_memInv h (memInv_congr h.memInv ?_ ?_ ?_ ?_) ?_ ?_ (blockedOk_idle (by simp) rfl) ?_
      · exact putBack_mem ..
      · exact putBack_cache ..
      · exact putBack_unsynced ..
      · exact putBack_setup ..
      · exact putBack_snapshot ..
      · cases o.request with
        | hardware l => exact ⟨insertLevel_ordered h.sets.1, h.sets.2.1⟩
        | software q => exact h.engineSets
      · simpa [State.UndoDepth] using h.undoDepth
  · split
    · exact inv_of_memInv h (memInv_congr h.memInv rfl rfl rfl rfl) rfl h.engineSets (blockedOk_idle (by simp) rfl) h.undoDepth
    · exact inv_of_memInv h (memInv_congr h.memInv rfl rfl rfl rfl) rfl h.engineSets h.blocked h.undoDepth

end Sys2Proof.Machine
end

