-- ==== Sys2Proof/Laws/Pack.lean ====
section
/-! SUPPORT. Laws of packing: the word of a record is the sum of its placed fields, and a field of a word is
a quotient and a remainder, so that questions on words become integer arithmetic. -/

namespace Sys2Proof

/-- A bit field is a quotient and a remainder (R9). -/
theorem fieldBits_eq (w : Word) (hi lo : Nat) : fieldBits w hi lo = w.toNat / 2 ^ lo % 2 ^ (hi - lo + 1) := by
  rw [fieldBits, Nat.shiftRight_eq_div_pow]

/-- A placed value contributes its low bits at its place (R141). -/
theorem place_toNat (hi lo : Nat) (v : Int) (h : hi < 32) (hl : lo ≤ hi) :
    ((place hi lo v).toNat : Int) = v % 2 ^ (hi - lo + 1) * 2 ^ lo := by
  obtain ⟨k, hk, hk2⟩ : ∃ k, hi - lo + 1 = k ∧ k + lo ≤ 32 := ⟨_, rfl, by omega⟩
  rw [place, maskBits, BitVec.toNat_shiftLeft, BitVec.toNat_and, BitVec.toNat_ofNat, BitVec.toNat_ofInt, hk]
  have h32 : (2:Nat) ^ k * 2 ^ lo ≤ 2 ^ 32 := by
    rw [← pow_add]; exact Nat.pow_le_pow_right (by decide) hk2
  have h1 : (2:Nat) ^ k ≤ 2 ^ 32 := Nat.pow_le_pow_right (by decide) (by omega)
  have hp : 0 < (2:Nat) ^ k := Nat.pow_pos (by decide)
  rw [Nat.mod_eq_of_lt (a := 2 ^ k - 1) (by omega), Nat.and_two_pow_sub_one_eq_mod, Nat.shiftLeft_eq,
    Nat.mod_eq_of_lt (lt_of_lt_of_le (Nat.mul_lt_mul_of_pos_right (Nat.mod_lt _ hp) (Nat.pow_pos (by decide))) h32)]
  have hd : ((2 ^ k : Nat) : Int) ∣ ((2 ^ 32 : Nat) : Int) := Int.natCast_dvd_natCast.mpr (pow_dvd_pow 2 (by omega))
  rw [Int.natCast_mul, Int.natCast_mod, Int.toNat_of_nonneg (Int.emod_nonneg _ (by decide)), Int.emod_emod_of_dvd v hd]
  simp

/-- A placed value stays below the end of its place. -/
theorem place_lt (hi lo : Nat) (v : Int) (h : hi < 32) (hl : lo ≤ hi) : (place hi lo v).toNat < 2 ^ (hi + 1) := by
  have := place_toNat hi lo v h hl
  have h2 : v % 2 ^ (hi - lo + 1) < 2 ^ (hi - lo + 1) := Int.emod_lt_of_pos _ (Int.pow_pos (by decide))
  have h3 : (2:Int) ^ (hi + 1) = 2 ^ (hi - lo + 1) * 2 ^ lo := by rw [← pow_add]; congr 1; omega
  have h4 : v % 2 ^ (hi - lo + 1) * 2 ^ lo < 2 ^ (hi + 1) := by
    rw [h3]; exact Int.mul_lt_mul_of_pos_right h2 (Int.pow_pos (by decide))
  rw [← this] at h4
  exact_mod_cast h4

/-- Fields below what is placed already add to it. -/
theorem or_place {x : Word} {X v : Int} (hi lo : Nat) (h : hi < 32) (hl : lo ≤ hi) (hx : (x.toNat : Int) = X)
    (hd : X % 2 ^ (hi + 1) = 0) :
    ((x ||| place hi lo v).toNat : Int) = X + v % 2 ^ (hi - lo + 1) * 2 ^ lo := by
  subst hx
  have hd' : x.toNat % 2 ^ (hi + 1) = 0 := by exact_mod_cast hd
  rw [← place_toNat hi lo v h hl, BitVec.toNat_or]
  have e : x.toNat = 2 ^ (hi + 1) * (x.toNat / 2 ^ (hi + 1)) := by
    have := Nat.div_add_mod x.toNat (2 ^ (hi + 1)); omega
  rw [e, ← Nat.two_pow_add_eq_or_of_lt (place_lt hi lo v h hl), ← e]
  push_cast; ring

/-- An unsigned field of a word as integer arithmetic (R140). -/
theorem ufield_eq (w : Word) (hi lo : Nat) : ufield w hi lo = (w.toNat : Int) / 2 ^ lo % 2 ^ (hi - lo + 1) := by
  rw [ufield, zext, fieldBits_eq]; push_cast; rfl

/-- A signed field of a word as integer arithmetic (R140, R11). -/
theorem sfield_eq (w : Word) (hi lo : Nat) (h : hi - lo + 1 ≤ 32) :
    sfield w hi lo = if (w.toNat : Int) / 2 ^ lo % 2 ^ (hi - lo + 1) < 2 ^ (hi - lo)
      then (w.toNat : Int) / 2 ^ lo % 2 ^ (hi - lo + 1)
      else (w.toNat : Int) / 2 ^ lo % 2 ^ (hi - lo + 1) - 2 ^ (hi - lo + 1) := by
  have hf : (fieldBits w hi lo : Int) = (w.toNat : Int) / 2 ^ lo % 2 ^ (hi - lo + 1) := by
    rw [fieldBits_eq]; push_cast; rfl
  rw [sfield, sext_eq (by omega) h (fieldBits_lt w hi lo), ← hf, Nat.add_sub_cancel]
  exact if_congr (by exact_mod_cast Iff.rfl) rfl rfl

/-! ## The word each format packs to, as the sum of its masked fields (R141) -/

theorem packR_toNat (a b c d e f : Int) : ((packR a b c d e f).toNat : Int) =
    a % 64 * 2 ^ 26 + b % 32 * 2 ^ 21 + c % 32 * 2 ^ 16 + d % 32 * 2 ^ 11 + e % 32 * 2 ^ 6 + f % 64 := by
  have h1 := place_toNat 31 26 a (by decide) (by decide)
  have h2 := or_place (v := b) 25 21 (by decide) (by decide) h1 (by omega)
  have h3 := or_place (v := c) 20 16 (by decide) (by decide) h2 (by omega)
  have h4 := or_place (v := d) 15 11 (by decide) (by decide) h3 (by omega)
  have h5 := or_place (v := e) 10 6 (by decide) (by decide) h4 (by omega)
  have h6 := or_place (v := f) 5 0 (by decide) (by decide) h5 (by omega)
  rw [packR, h6]; norm_num

theorem packRsop_toNat (a b c d e f : Int) : ((packRsop a b c d e f).toNat : Int) =
    a % 64 * 2 ^ 26 + b % 32 * 2 ^ 21 + c % 32 * 2 ^ 16 + d % 32 * 2 ^ 11 + e % 32 * 2 ^ 6 + f % 64 := packR_toNat a b c d e f

theorem packI16_toNat (a b c d : Int) : ((packI16 a b c d).toNat : Int) =
    a % 64 * 2 ^ 26 + b % 32 * 2 ^ 21 + c % 32 * 2 ^ 16 + d % 65536 := by
  have h1 := place_toNat 31 26 a (by decide) (by decide)
  have h2 := or_place (v := b) 25 21 (by decide) (by decide) h1 (by omega)
  have h3 := or_place (v := c) 20 16 (by decide) (by decide) h2 (by omega)
  have h4 := or_place (v := d) 15 0 (by decide) (by decide) h3 (by omega)
  rw [packI16, h4]; norm_num

theorem packI21_toNat (a b c : Int) : ((packI21 a b c).toNat : Int) =
    a % 64 * 2 ^ 26 + b % 32 * 2 ^ 21 + c % 2097152 := by
  have h1 := place_toNat 31 26 a (by decide) (by decide)
  have h2 := or_place (v := b) 25 21 (by decide) (by decide) h1 (by omega)
  have h3 := or_place (v := c) 20 0 (by decide) (by decide) h2 (by omega)
  rw [packI21, h3]; norm_num

theorem packI26_toNat (a b : Int) : ((packI26 a b).toNat : Int) =
    a % 64 * 2 ^ 26 + b % 67108864 := by
  have h1 := place_toNat 31 26 a (by decide) (by decide)
  have h2 := or_place (v := b) 25 0 (by decide) (by decide) h1 (by omega)
  rw [packI26, h2]; norm_num

theorem packJ_toNat (a b : Int) : ((packJ a b).toNat : Int) =
    a % 64 * 2 ^ 26 + b % 67108864 := packI26_toNat a b

theorem packI9_toNat (a b c d e f : Int) : ((packI9 a b c d e f).toNat : Int) =
    a % 64 * 2 ^ 26 + b % 32 * 2 ^ 21 + c % 32 * 2 ^ 16 + d % 512 * 2 ^ 7 + e % 2 * 2 ^ 6 + f % 64 := by
  have h1 := place_toNat 31 26 a (by decide) (by decide)
  have h2 := or_place (v := b) 25 21 (by decide) (by decide) h1 (by omega)
  have h3 := or_place (v := c) 20 16 (by decide) (by decide) h2 (by omega)
  have h4 := or_place (v := d) 15 7 (by decide) (by decide) h3 (by omega)
  have h5 := or_place (v := e) 6 6 (by decide) (by decide) h4 (by omega)
  have h6 := or_place (v := f) 5 0 (by decide) (by decide) h5 (by omega)
  rw [packI9, h6]; norm_num

theorem packRfpu_toNat (a b c d e f : Int) : ((packRfpu a b c d e f).toNat : Int) =
    a % 64 * 2 ^ 26 + b % 32 * 2 ^ 21 + c % 32 * 2 ^ 16 + d % 32 * 2 ^ 11 + e % 32 * 2 ^ 6 + f % 64 := packR_toNat a b c d e f

theorem packRifpu_toNat (a b c d e : Int) : ((packRifpu a b c d e).toNat : Int) =
    a % 64 * 2 ^ 26 + b % 32 * 2 ^ 21 + c % 32 * 2 ^ 16 + d % 32 * 2 ^ 11 + e % 2048 := by
  have h1 := place_toNat 31 26 a (by decide) (by decide)
  have h2 := or_place (v := b) 25 21 (by decide) (by decide) h1 (by omega)
  have h3 := or_place (v := c) 20 16 (by decide) (by decide) h2 (by omega)
  have h4 := or_place (v := d) 15 11 (by decide) (by decide) h3 (by omega)
  have h5 := or_place (v := e) 10 0 (by decide) (by decide) h4 (by omega)
  rw [packRifpu, h5]; norm_num

theorem packRi_toNat (a b c d : Int) : ((packRi a b c d).toNat : Int) =
    a % 64 * 2 ^ 26 + b % 32 * 2 ^ 21 + c % 32 * 2 ^ 16 + d % 65536 := packI16_toNat a b c d

theorem packPcrel16_toNat (a b c d : Int) : ((packPcrel16 a b c d).toNat : Int) =
    a % 64 * 2 ^ 26 + b % 32 * 2 ^ 21 + c % 32 * 2 ^ 16 + d % 65536 := packI16_toNat a b c d

theorem packPcrel19_toNat (a b c d : Int) : ((packPcrel19 a b c d).toNat : Int) =
    a % 64 * 2 ^ 26 + b % 32 * 2 ^ 21 + c % 4 * 2 ^ 19 + d % 524288 := by
  have h1 := place_toNat 31 26 a (by decide) (by decide)
  have h2 := or_place (v := b) 25 21 (by decide) (by decide) h1 (by omega)
  have h3 := or_place (v := c) 20 19 (by decide) (by decide) h2 (by omega)
  have h4 := or_place (v := d) 18 0 (by decide) (by decide) h3 (by omega)
  rw [packPcrel19, h4]; norm_num

end Sys2Proof
end

