-- ==== Sys2Proof/Laws/PerInstr.lean ====
section
/-! SUPPORT. What holds of every instruction as syntax, one lemma per constructor: a well-formed record
encodes, to the word its fields pack to (R141, R142). -/

namespace Sys2Proof.Laws.WellFormedEncodes

/-- A well-formed record encodes to its packed word. -/
def Statement (i : Instr) : Prop := i.wellFormed = true → encode i = .ok i.pack

theorem r (opcode rs rt rd shamt funct : Int) : Statement (.r opcode rs rt rd shamt funct) := fun h => encode_of_encodable (encodable_of_wellFormed h)

theorem rsop (opcode rs rt rd sop funct : Int) : Statement (.rsop opcode rs rt rd sop funct) := fun h => encode_of_encodable (encodable_of_wellFormed h)

theorem i16 (opcode rs rt imm : Int) : Statement (.i16 opcode rs rt imm) := fun h => encode_of_encodable (encodable_of_wellFormed h)

theorem i21 (opcode rs imm : Int) : Statement (.i21 opcode rs imm) := fun h => encode_of_encodable (encodable_of_wellFormed h)

theorem i26 (opcode imm : Int) : Statement (.i26 opcode imm) := fun h => encode_of_encodable (encodable_of_wellFormed h)

theorem j (opcode imm : Int) : Statement (.j opcode imm) := fun h => encode_of_encodable (encodable_of_wellFormed h)

theorem i9 (opcode base rt offset zero funct : Int) : Statement (.i9 opcode base rt offset zero funct) := fun h => encode_of_encodable (encodable_of_wellFormed h)

theorem rfpu (opcode fmt ft fs fd funct : Int) : Statement (.rfpu opcode fmt ft fs fd funct) := fun h => encode_of_encodable (encodable_of_wellFormed h)

theorem rifpu (opcode sub rt fs zero : Int) : Statement (.rifpu opcode sub rt fs zero) := fun h => encode_of_encodable (encodable_of_wellFormed h)

theorem ri (opcode rs func imm : Int) : Statement (.ri opcode rs func imm) := fun h => encode_of_encodable (encodable_of_wellFormed h)

theorem pcrel16 (opcode rs func imm : Int) : Statement (.pcrel16 opcode rs func imm) := fun h => encode_of_encodable (encodable_of_wellFormed h)

theorem pcrel19 (opcode rs func imm : Int) : Statement (.pcrel19 opcode rs func imm) := fun h => encode_of_encodable (encodable_of_wellFormed h)

end Sys2Proof.Laws.WellFormedEncodes
end

