-- ==== Sys2Proof/Laws/Trap.lean ====
section
/-! SUPPORT. Laws of the bit fields of COP0 and of the trap entry: what a field write does to every bit, and
every register a trap entry leaves. -/

namespace Sys2Proof.Machine

/-! ## Bit fields -/

theorem maskBits_getLsbD (n k : Nat) : (maskBits n).getLsbD k = (decide (k < 32) && decide (k < n)) := by
  simp [maskBits, BitVec.getLsbD_ofNat, Nat.testBit_two_pow_sub_one]

/-- A field write replaces the field's bits and keeps the others. -/
theorem setField_getLsbD (w v : Word) {hi lo k : Nat} (hk : k < 32) (hl : lo ≤ hi) :
    (setField w hi lo v).getLsbD k = if lo ≤ k ∧ k ≤ hi then v.getLsbD (k - lo) else w.getLsbD k := by
  simp only [setField, BitVec.getLsbD_or, BitVec.getLsbD_and, BitVec.getLsbD_not, BitVec.getLsbD_shiftLeft,
    maskBits_getLsbD, hk]
  by_cases h1 : lo ≤ k
  · by_cases h2 : k ≤ hi
    · have h3 : k - lo < 32 := by omega
      have h4 : k - lo < hi - lo + 1 := by omega
      have h5 : ¬ k < lo := by omega
      simp [h1, h2, h3, h4, h5]
    · have h4 : ¬ k - lo < hi - lo + 1 := by omega
      simp [h1, h2, h4]
  · have h5 : k < lo := by omega
    simp [h1, h5]

/-- A copied field has the old bits, and the others stay. -/
theorem copyField_getLsbD (w old : Word) {hi lo k : Nat} (hk : k < 32) (hl : lo ≤ hi) :
    (copyField w old hi lo).getLsbD k = if lo ≤ k ∧ k ≤ hi then old.getLsbD k else w.getLsbD k := by
  rw [copyField, setField_getLsbD _ _ hk hl]
  by_cases h : lo ≤ k ∧ k ≤ hi
  · rw [if_pos h, if_pos h, BitVec.getLsbD_ushiftRight, show lo + (k - lo) = k by omega]
  · rw [if_neg h, if_neg h]

theorem bitOf_getLsbD_zero (b : Bool) : (bitOf b).getLsbD 0 = b := by cases b <;> rfl

/-- Cause.BD after its write. -/
theorem causeBD_setCauseBD (c : Word) (b : Bool) : causeBD (setCauseBD c b) = b := by
  rw [causeBD, setCauseBD, setField_getLsbD _ _ (by decide) (by decide)]
  exact bitOf_getLsbD_zero b

/-- Cause.ExcCode after its write. -/
theorem causeExcCode_setCauseExcCode (c : Word) (code : BitVec 5) : causeExcCode (setCauseExcCode c code) = code := by
  apply BitVec.eq_of_getLsbD_eq
  intro k hk
  rw [causeExcCode, setCauseExcCode, BitVec.getLsbD_extractLsb', setField_getLsbD _ _ (by omega) (by decide)]
  have h1 : 2 ≤ 2 + k ∧ 2 + k ≤ 6 := by omega
  rw [if_pos h1, Nat.add_sub_cancel_left, BitVec.getLsbD_setWidth]
  have h2 : k < 32 := by omega
  simp [hk, h2]

/-- The level in Cause after its write. -/
theorem causeLevel_setCauseLevel (c : Word) (l : Fin 64) : (causeLevel (setCauseLevel c l)).toNat = l.val := by
  have : causeLevel (setCauseLevel c l) = BitVec.ofNat 6 l.val := by
    apply BitVec.eq_of_getLsbD_eq
    intro k hk
    rw [causeLevel, setCauseLevel, BitVec.getLsbD_extractLsb', setField_getLsbD _ _ (by omega) (by decide)]
    have h1 : 10 ≤ 10 + k ∧ 10 + k ≤ 15 := by omega
    rw [if_pos h1, Nat.add_sub_cancel_left, BitVec.getLsbD_ofNat, BitVec.getLsbD_ofNat]
    have h2 : k < 32 := by omega
    simp [hk, h2]
  rw [this, BitVec.toNat_ofNat, Nat.mod_eq_of_lt l.isLt]

/-- Status.EXL after its write. -/
theorem statusEXL_setStatusEXL (w : Word) (b : Bool) : statusEXL (setStatusEXL w b) = b := by
  rw [statusEXL, setStatusEXL, setField_getLsbD _ _ (by decide) (by decide)]
  exact bitOf_getLsbD_zero b

/-- Status.ERL after its write. -/
theorem statusERL_setStatusERL (w : Word) (b : Bool) : statusERL (setStatusERL w b) = b := by
  rw [statusERL, setStatusERL, setField_getLsbD _ _ (by decide) (by decide)]
  exact bitOf_getLsbD_zero b

/-! ## The registers a trap entry leaves (R310 to R315) -/

/-- Cause as R311 leaves it. -/
def savedCause (c : Cop0) (inDelaySlot : Bool) : Word :=
  if statusEXL c.status then c.cause else setCauseBD c.cause inDelaySlot

/-- Every register after a trap entry, in terms of the registers before it. -/
theorem invokeInterrupt_regs (s : State) (code : BitVec 5) (bad : Option Word) (ds : Bool) (pc : Word) (level : Fin 64) :
    (s.invokeInterrupt code bad ds pc level).regs =
      { s.regs with
        pc := vectorTarget s.regs.cop0 code level
        cop0 := { s.regs.cop0 with
          badVAddr := bad.getD s.regs.cop0.badVAddr
          status := setStatusEXL s.regs.cop0.status true
          cause := setCauseLevel (setCauseExcCode (savedCause s.regs.cop0 ds) code) level
          epc := if statusEXL s.regs.cop0.status then s.regs.cop0.epc else if ds then pc - 4#32 else pc } } := by
  have h (u : State) (t : Word) : (u.checkVector t code).regs = u.regs := by
    unfold State.checkVector; split <;> rfl
  rw [State.invokeInterrupt, h]
  cases bad <;> by_cases he : statusEXL s.regs.cop0.status = true <;>
    simp [State.recordBadAddr, State.recordCause, State.saveRestart, savedCause, he, Regs.writePc, Regs.writeCop0, Cop0.write]

/-- What a trap entry writes can be taken back (R349): COP0 is as before it. -/
theorem withoutEntry_invokeInterrupt (s : State) (code : BitVec 5) (bad : Option Word) (ds : Bool) (pc : Word) (level : Fin 64) :
    Cop0.withoutEntry (s.invokeInterrupt code bad ds pc level).regs.cop0 s.regs.cop0 = s.regs.cop0 := by
  have hst : copyField (setStatusEXL s.regs.cop0.status true) s.regs.cop0.status 1 1 = s.regs.cop0.status := by
    apply BitVec.eq_of_getLsbD_eq
    intro k hk
    rw [copyField_getLsbD _ _ hk (by decide), setStatusEXL, setField_getLsbD _ _ hk (by decide)]
    split <;> rfl
  have hca : copyField (copyField (copyField (setCauseLevel (setCauseExcCode (savedCause s.regs.cop0 ds) code) level)
      s.regs.cop0.cause 31 31) s.regs.cop0.cause 15 10) s.regs.cop0.cause 6 2 = s.regs.cop0.cause := by
    apply BitVec.eq_of_getLsbD_eq
    intro k hk
    rw [copyField_getLsbD _ _ hk (by decide), copyField_getLsbD _ _ hk (by decide), copyField_getLsbD _ _ hk (by decide),
      setCauseLevel, setField_getLsbD _ _ hk (by decide), setCauseExcCode, setField_getLsbD _ _ hk (by decide)]
    by_cases h1 : 2 ≤ k ∧ k ≤ 6
    · rw [if_pos h1]
    · rw [if_neg h1]
      by_cases h2 : 10 ≤ k ∧ k ≤ 15
      · rw [if_pos h2]
      · rw [if_neg h2]
        by_cases h3 : 31 ≤ k ∧ k ≤ 31
        · rw [if_pos h3]
        · rw [if_neg h3, if_neg h2, if_neg h1, savedCause]
          split
          · rfl
          · rw [setCauseBD, setField_getLsbD _ _ hk (by decide), if_neg h3]
  rw [invokeInterrupt_regs]
  simp only [Cop0.withoutEntry, hst, hca]

/-- How a trap entry ends (R316). -/
theorem invokeInterrupt_end (s : State) (code : BitVec 5) (bad : Option Word) (ds : Bool) (pc : Word) (level : Fin 64) :
    (s.invokeInterrupt code bad ds pc level).runState =
      (if s.readWord (vectorTarget s.regs.cop0 code level) = 0#32 then .finished else s.runState) ∧
    (s.invokeInterrupt code bad ds pc level).exitCode =
      (if s.readWord (vectorTarget s.regs.cop0 code level) = 0#32 then some (0x1000 + (code.toNat : Int)) else s.exitCode) := by
  have h (u : State) (hm : u.mem = s.mem) (hs : u.setup = s.setup) (t : Word) : u.readWord t = s.readWord t := by
    simp [State.readWord, hm, hs]
  rw [State.invokeInterrupt, State.checkVector, h _ (by simp) (by simp)]
  split <;> simp

end Sys2Proof.Machine
end

