-- ==== Sys2Proof/Laws/Step.lean ====
section
/-! SUPPORT. Laws of a step and of a cycle: which of its parts a step runs, and how a fetch in a coherent
state goes. -/

namespace Sys2Proof.Machine

/-! ## What a step runs -/

theorem step_command {s : State} {c : Command} {rest : List Command} (h : s.commands = c :: rest) :
    step s = ({ s with commands := rest }).perform c := by
  unfold step; rw [h]

theorem step_ready {s : State} (h : s.commands = []) (hr : s.runState = .ready) : step s = s.cycle true := by
  unfold step; rw [h, hr]

theorem step_running {s : State} (h : s.commands = []) (hr : s.runState = .running) : step s = s.cycle false := by
  unfold step; rw [h, hr]

theorem step_waiting {s : State} (h : s.commands = []) (hr : s.runState = .lockedOnInput) : step s = .next s := by
  unfold step; rw [h, hr]

theorem step_finished {s : State} (h : s.commands = []) (hr : s.runState = .finished) : step s = .refused .runFinished := by
  unfold step; rw [h, hr]

/-! ## The parts of a cycle -/

@[simp] theorem hasPending_beginCycle (s : State) (b : Bool) : (s.beginCycle b).hasPending = s.hasPending := rfl

/-- Nothing to take: the interrupt check does nothing (R333). -/
theorem interruptCheck_of_idle {s : State} (h : s.hasPending = false) : s.interruptCheck = s := by
  simp [State.interruptCheck, h]

/-- A software request is taken first (R334). -/
theorem interruptCheck_software {s : State} {q : SoftwareRequest} {qs : List SoftwareRequest} (h : s.swPending = q :: qs) :
    s.interruptCheck =
      ({ s.openFor (.software q) with swPending := qs }).invokeInterrupt q.code q.badAddr q.inDelaySlot q.pc 0 := by
  simp [State.interruptCheck, State.hasPending, State.takeRequest, h]

/-- With no software request the highest enabled level is taken (R334). -/
theorem interruptCheck_hardware {s : State} {l : Fin 64} (h : s.swPending = []) (hl : s.highestEnabled = some l) :
    s.interruptCheck =
      ({ s.openFor (.hardware l) with hwPending := s.hwPending.erase l }).invokeInterrupt 0#5 none s.nextInDelaySlot
        s.regs.pc l := by
  have hp : s.hasPending = true := by
    unfold State.highestEnabled at hl
    have hmem := List.mem_of_getLast? hl
    rw [List.mem_filter] at hmem
    simp only [State.hasPending, Bool.or_eq_true, List.any_eq_true]
    exact .inr ⟨l, hmem⟩
  simp [State.interruptCheck, hp, State.takeRequest, h, hl]

/-- The interrupt check does nothing, or makes the entry of one request and notes it (R330, R334). -/
theorem interruptCheck_cases (s : State) :
    s.interruptCheck = s ∨
    (∃ q qs, s.swPending = q :: qs ∧ s.interruptCheck =
      ({ s.openFor (.software q) with swPending := qs }).invokeInterrupt q.code q.badAddr q.inDelaySlot q.pc 0) ∨
    (∃ l, l ∈ s.hwPending ∧ s.interruptCheck =
      ({ s.openFor (.hardware l) with hwPending := s.hwPending.erase l }).invokeInterrupt 0#5 none s.nextInDelaySlot
        s.regs.pc l) := by
  cases hq : s.swPending with
  | cons q qs => exact .inr (.inl ⟨q, qs, rfl, interruptCheck_software hq⟩)
  | nil =>
    cases hl : s.highestEnabled with
    | some l =>
      have hmem := List.mem_of_getLast? (show (s.hwPending.filter s.interruptEnabled).getLast? = some l from hl)
      exact .inr (.inr ⟨l, List.mem_of_mem_filter hmem, interruptCheck_hardware hq hl⟩)
    | none =>
      refine .inl ?_
      unfold State.interruptCheck State.takeRequest
      split
      · simp [hq, hl]
      · rfl

/-- A fetch in a coherent cache succeeds where the fresh decode does, and changes the cache only by a fill. -/
theorem fetch_of_fresh {s : State} (hb : s.cache.Bounded) (hco : s.Coherent) {pc : Word} (h4 : pc.toNat % 4 = 0)
    (hu : s.InStep pc) {e : Entry} (he : s.freshDecode pc = .ok e) :
    ∃ c, (c = s.cache ∨ c = s.cache.fill (s.cache.index pc) e) ∧ s.fetch pc = .fetched { s with cache := c } e := by
  unfold State.fetch
  simp only [h4, hu.1, ne_eq, not_true_eq_false, if_false, he]
  split
  · rename_i hin
    split
    · rename_i e' hh
      have := hco _ _ hh
      rw [entryAddr_index hb h4 hin] at this
      have := this hu
      rw [he] at this
      cases this
      exact ⟨s.cache, .inl rfl, rfl⟩
    · exact ⟨_, .inr rfl, rfl⟩
  · exact ⟨s.cache, .inl rfl, rfl⟩

/-- A fetch in a coherent cache fails where the fresh decode does. -/
theorem fetch_of_failed {s : State} (hb : s.cache.Bounded) (hco : s.Coherent) {pc : Word} (h4 : pc.toNat % 4 = 0)
    (hu : s.InStep pc) {raw : Word} (he : s.freshDecode pc = .error raw) : s.fetch pc = .failed raw := by
  unfold State.fetch
  simp only [h4, hu.1, ne_eq, not_true_eq_false, if_false, he]
  split
  · rename_i hin
    split
    · rename_i e' hh
      have := hco _ _ hh
      rw [entryAddr_index hb h4 hin] at this
      have := this hu
      rw [he] at this
      cases this
    · rfl
  · rfl

/-- A failed fresh decode names the word at the address (R203). -/
theorem freshDecode_error {s : State} {pc raw : Word} (h : s.freshDecode pc = .error raw) : raw = s.readWord pc := by
  unfold State.freshDecode decodeRaw at h
  split at h
  · simpa using h.symm
  · split at h
    · simpa using h.symm
    · simp at h

/-- A cycle with nothing pending and no outside call to land is its fetch and execute (R330). -/
theorem cycle_idle {s : State} {b : Bool} (hp : s.hasPending = false) (hi : s.interleaved = []) :
    s.cycle b = (s.beginCycle b).fetchAndExecute := by
  rw [State.cycle, interruptCheck_of_idle (by simpa using hp), State.cycleBody, if_neg (by simp), gap_of_nil (by simpa using hi)]

/-- A fetch leaves the calls to come. -/
theorem fetch_interleaved {s t : State} {pc : Word} {e : Entry} (hf : s.fetch pc = .fetched t e) :
    t.interleaved = s.interleaved := by
  rw [fetch_frame hf]

theorem cycle_fetched {s t : State} {e : Entry} {b : Bool} (hp : s.hasPending = false) (hi : s.interleaved = [])
    (hf : (s.beginCycle b).fetch s.regs.pc = .fetched t e) :
    s.cycle b = finishResult (exec (decode e.defn.format e.raw.value) t) := by
  rw [cycle_idle hp hi, State.fetchAndExecute]
  simp only [show (s.beginCycle b).fetch (s.beginCycle b).regs.pc = _ from hf]
  rw [gap_of_nil (by rw [fetch_interleaved hf]; exact hi)]

theorem cycle_failed {s : State} {raw : Word} {b : Bool} (hp : s.hasPending = false) (hi : s.interleaved = [])
    (hf : (s.beginCycle b).fetch s.regs.pc = .failed raw) :
    s.cycle b = .fault (.decodeFailure s.regs.pc raw (({ s.beginCycle b with runState := .finished }).closeCycle false)) := by
  rw [cycle_idle hp hi, State.fetchAndExecute]
  simp only [show (s.beginCycle b).fetch (s.beginCycle b).regs.pc = _ from hf]
  rfl

theorem cycle_misaligned {s : State} {b : Bool} (hp : s.hasPending = false) (hi : s.interleaved = [])
    (h : s.regs.pc.toNat % 4 ≠ 0) :
    s.cycle b = .next ((s.beginCycle b).requestSoftware (s.beginCycle b).fetchAddressError).countCycle.endStep := by
  have hf : (s.beginCycle b).fetch (s.beginCycle b).regs.pc = .misaligned := by
    rw [State.fetch, if_pos (show (s.beginCycle b).regs.pc.toNat % 4 ≠ 0 from h)]
  rw [cycle_idle hp hi, State.fetchAndExecute]
  simp only [hf]

/-- A cycle whose entry ends the run ends there (R316, R330). -/
theorem cycle_fatal {s : State} {b : Bool} (h : (s.beginCycle b).interruptCheck.runState = .finished) :
    s.cycle b = .next ((s.beginCycle b).interruptCheck.closeCycle false) := by
  rw [State.cycle, State.cycleBody, if_pos h]

end Sys2Proof.Machine
end

