-- ==== Sys2Proof/Laws/Undo.lean ====
section
/-! SUPPORT. Laws of undo: every recorded operation can be taken back, and so can every sequence of them. -/

namespace Sys2Proof.Machine

/-- Two states with the same registers, memory and parameters, which is all undo reads and restores. -/
structure State.SameStore (s t : State) : Prop where
  regs  : t.regs = s.regs
  mem   : t.mem = s.mem
  setup : t.setup = s.setup

theorem State.SameStore.trans {s t u : State} (h : s.SameStore t) (h' : t.SameStore u) : s.SameStore u :=
  ⟨h'.regs.trans h.regs, h'.mem.trans h.mem, h'.setup.trans h.setup⟩

/-- Taking one record back depends on the store only. -/
theorem undoDelta_congr {s t : State} (h : s.SameStore t) (d : Delta) : (s.undoDelta d).SameStore (t.undoDelta d) := by
  obtain ⟨hr, hm, hs⟩ := h
  cases d <;> constructor <;> simp [State.undoDelta, State.portWrite, State.storedBytes, hr, hm, hs]

theorem undoDeltas_congr {s t : State} (h : s.SameStore t) (ds : List Delta) :
    (s.undoDeltas ds).SameStore (t.undoDeltas ds) := by
  induction ds generalizing s t with
  | nil => exact h
  | cons d ds ih => exact ih (undoDelta_congr h d)

theorem recorded_eq {s : State} (h : s.setup.undoEnabled = true) (d : Delta) : s.recorded d = d :: s.deltas := by
  simp [State.recorded, h]

/-! ## One recorded operation, and its record taken back -/

theorem undoDelta_setGpr (s : State) (i : Fin 32) (v : Word) :
    s.SameStore ((s.setGpr i v).undoDelta (.gpr i (Regs.readGpr s.regs i))) := by
  refine ⟨?_, rfl, rfl⟩
  simp only [State.undoDelta, setGpr_regs, Regs.writeGpr, Regs.readGpr]
  split <;> simp

theorem undoDelta_setFpr (s : State) (i : Fin 32) (v : Nat) :
    s.SameStore ((s.setFpr i v).undoDelta (.fpr i s.regs.fpr[i])) :=
  ⟨by simp [State.undoDelta, Regs.writeFpr], rfl, rfl⟩

theorem undoDelta_setCop0 (s : State) (c : Cop0Reg) (v : Word) :
    s.SameStore ((s.setCop0 c v).undoDelta (.cop0 c (Cop0.read s.regs.cop0 c))) :=
  ⟨by cases c <;> rfl, rfl, rfl⟩

theorem undoDelta_setPc (s : State) (v : Word) : s.SameStore ((s.setPc v).undoDelta (.pc s.regs.pc)) :=
  ⟨rfl, rfl, rfl⟩

theorem undoDelta_memWrite {s : State} (h : Mem.wf s.mem = true) (a : Word) (w : Width) (v : BitVec 64) (q : Bool) :
    s.SameStore ((s.memWrite a w v q).undoDelta (.mem a w (s.memRead a w))) := by
  refine ⟨rfl, ?_, rfl⟩
  have hw := writeBytes_restore h a (s.storedBytes w v) (by simp; have := Width.bytes_le w; omega)
  rw [storedBytes_length] at hw
  show Mem.writeBytes (Mem.writeBytes s.mem a (s.storedBytes w v)) a ((s.memWrite a w v q).storedBytes w (s.memRead a w)) = s.mem
  rw [storedBytes_memRead s (s.memWrite a w v q) rfl, hw]

/-! ## Sequences of recorded operations -/

/-- Undoing the records of `t` gives the store of `s`. -/
structure State.UndoesTo (t s : State) : Prop where
  enabled : t.setup.undoEnabled = true
  memWf   : Mem.wf t.mem = true
  restore : s.SameStore (t.undoDeltas t.deltas)

/-- One more recorded operation. -/
theorem State.UndoesTo.record {s t u : State} (h : t.UndoesTo s) (d : Delta) (hd : u.deltas = d :: t.deltas)
    (hs : u.setup = t.setup) (hw : Mem.wf u.mem = true) (hu : t.SameStore (u.undoDelta d)) : u.UndoesTo s :=
  ⟨by rw [hs]; exact h.enabled, hw, by rw [hd]; exact h.restore.trans (undoDeltas_congr hu t.deltas)⟩

/-- A change of fields that undo neither reads nor restores. -/
theorem State.UndoesTo.congr {s t u : State} (h : t.UndoesTo s) (hd : u.deltas = t.deltas) (hu : t.SameStore u) :
    u.UndoesTo s :=
  ⟨by rw [hu.setup]; exact h.enabled, by rw [hu.mem]; exact h.memWf,
    by rw [hd]; exact h.restore.trans (undoDeltas_congr hu t.deltas)⟩

theorem State.UndoesTo.setGpr {s t : State} (h : t.UndoesTo s) (i : Fin 32) (v : Word) : (t.setGpr i v).UndoesTo s :=
  h.record _ (recorded_eq h.enabled _) rfl h.memWf (undoDelta_setGpr t i v)

theorem State.UndoesTo.setFpr {s t : State} (h : t.UndoesTo s) (i : Fin 32) (v : Nat) : (t.setFpr i v).UndoesTo s :=
  h.record _ (recorded_eq h.enabled _) rfl h.memWf (undoDelta_setFpr t i v)

theorem State.UndoesTo.setCop0 {s t : State} (h : t.UndoesTo s) (c : Cop0Reg) (v : Word) : (t.setCop0 c v).UndoesTo s :=
  h.record _ (recorded_eq h.enabled _) rfl h.memWf (undoDelta_setCop0 t c v)

theorem State.UndoesTo.setPc {s t : State} (h : t.UndoesTo s) (v : Word) : (t.setPc v).UndoesTo s :=
  h.record _ (recorded_eq h.enabled _) rfl h.memWf (undoDelta_setPc t v)

theorem State.UndoesTo.memWrite {s t : State} (h : t.UndoesTo s) (a : Word) (w : Width) (v : BitVec 64) :
    (t.memWrite a w v false).UndoesTo s :=
  h.record _ (recorded_eq h.enabled _) rfl (wf_writeBytes h.memWf a _) (undoDelta_memWrite h.memWf a w v false)

theorem State.UndoesTo.requestSoftware {s t : State} (h : t.UndoesTo s) (q : SoftwareRequest) :
    (t.requestSoftware q).UndoesTo s :=
  (h.setCop0 .cause _).congr rfl ⟨rfl, rfl, rfl⟩

theorem State.UndoesTo.returnFromException {s t : State} (h : t.UndoesTo s) : t.returnFromException.UndoesTo s := by
  unfold State.returnFromException
  split
  · exact (h.setPc _).setCop0 _ _
  · exact (h.setPc _).setCop0 _ _

theorem State.UndoesTo.invokeInterrupt {s t : State} (h : t.UndoesTo s) (code : BitVec 5) (bad : Option Word) (ds : Bool)
    (pc : Word) (level : Fin 64) : (t.invokeInterrupt code bad ds pc level).UndoesTo s := by
  have h1 : (t.saveRestart ds pc).UndoesTo s := by
    unfold State.saveRestart
    split
    · exact h
    · exact (h.setCop0 _ _).setCop0 _ _
  have h2 := (((h1.setCop0 .cause (setCauseLevel (setCauseExcCode (t.saveRestart ds pc).regs.cop0.cause code) level)).setCop0
    .status (setStatusEXL (t.saveRestart ds pc).regs.cop0.status true)).setPc (vectorTarget t.regs.cop0 code level))
  have h3 : ((((t.saveRestart ds pc).recordCause code level).setPc (vectorTarget t.regs.cop0 code level)).recordBadAddr
      bad).UndoesTo s := by
    cases bad with
    | none => exact h2
    | some b => exact h2.setCop0 _ _
  unfold State.invokeInterrupt State.checkVector
  split
  · exact h3.congr rfl ⟨rfl, rfl, rfl⟩
  · exact h3

/-- Every effect but a write that suppresses its record. -/
theorem State.UndoesTo.applyEffect {s t : State} (h : t.UndoesTo s) (e : Effect)
    (he : ∀ a w v, e ≠ .memWrite a w v true) : (t.applyEffect e).UndoesTo s := by
  cases e with
  | read => exact h
  | writeGpr i v => exact h.setGpr i v
  | writeFpr i v => exact h.setFpr i v
  | writeCop0 c v => exact h.setCop0 c v
  | writePc v => exact h.setPc v
  | memWrite a w v q =>
    cases q with
    | false => exact h.memWrite a w v
    | true => exact absurd rfl (he a w v)
  | setNextInDelaySlot b => exact h.congr rfl ⟨rfl, rfl, rfl⟩
  | requestSoftware q => exact h.requestSoftware q
  | requestExit c => exact h.congr rfl ⟨rfl, rfl, rfl⟩
  | exceptionReturn => exact h.returnFromException

theorem State.UndoesTo.foldl_applyEffect {s t : State} (h : t.UndoesTo s) (es : List Effect)
    (he : ∀ a w v, Effect.memWrite a w v true ∉ es) : (es.foldl State.applyEffect t).UndoesTo s := by
  induction es generalizing t with
  | nil => exact h
  | cons e es ih =>
    exact ih (h.applyEffect e (fun a w v hc => he a w v (by simp [hc]))) (fun a w v hc => he a w v (by simp [hc]))

theorem State.UndoesTo.takeRequest {s t : State} (h : t.UndoesTo s) : t.takeRequest.UndoesTo s := by
  have h1 (r : Request) (qs : List SoftwareRequest) : ({ t.openFor r with swPending := qs } : State).UndoesTo s :=
    h.congr rfl ⟨rfl, rfl, rfl⟩
  have h2 (r : Request) (ls : List (Fin 64)) : ({ t.openFor r with hwPending := ls } : State).UndoesTo s :=
    h.congr rfl ⟨rfl, rfl, rfl⟩
  unfold State.takeRequest
  split
  · exact State.UndoesTo.invokeInterrupt (h1 _ _) ..
  · split
    · exact State.UndoesTo.invokeInterrupt (h2 _ _) ..
    · exact h

theorem State.UndoesTo.interruptCheck {s t : State} (h : t.UndoesTo s) : t.interruptCheck.UndoesTo s := by
  unfold State.interruptCheck
  split
  · exact h.takeRequest
  · exact h

/-- A completed run of an executable whose memory writes are all recorded. -/
theorem State.UndoesTo.settle {s t : State} (h : t.UndoesTo s) (i : Instr) (next : Continue) {x : Execution} {k : Nat}
    (hi : t.interleaved = []) (hx : x.ending = .completed k) (he : ∀ a w v, Effect.memWrite a w v true ∉ x.effects) :
    (t.settle i next x).UndoesTo s := by
  rw [settle_of_nil hi i next (c := .completed k) (by rw [hx]; rfl)]
  exact (h.foldl_applyEffect x.effects he).congr rfl ⟨rfl, rfl, rfl⟩

/-- Undo of a cycle that has just ended: the store before it, and the count if it was counted (R348). -/
theorem State.UndoesTo.undoLastStep {s t : State} (h : t.UndoesTo s) (counted : Bool) :
    (t.closeCycle counted).undoLastStep.regs = s.regs ∧ (t.closeCycle counted).undoLastStep.mem = s.mem ∧
    (t.closeCycle counted).undoLastStep.cycles = if counted then t.cycles - 1 else t.cycles := by
  have hc : t.SameStore (t.closeCycle counted) := ⟨rfl, rfl, rfl⟩
  have hr := h.restore.trans (undoDeltas_congr hc t.deltas)
  unfold State.undoLastStep
  simp only [closeCycle_setup, closeCycle_undoLog, h.enabled, if_true]
  exact ⟨hr.regs, hr.mem, rfl⟩

end Sys2Proof.Machine
end

