-- ==== Sys2Proof/Tests/Slice0.lean ====
section
/-! SUPPORT. The model's own tests.  Expected values come from spec/95_test_vectors.md and from the worked
examples of spec/40_codec.md; each test names its vector.  The `witness_` theorems show states and operands
that meet the hypotheses of the statement they are named after. -/

namespace Sys2Proof.Machine.Tests

open Sys2Proof Sys2Proof.Machine

/-- A continuation for runs within which no outside call lands. -/
def stays : Continue := fun _ _ => ⟨[], .completed 0⟩

/-! ## WellFormed: one ill-formed record for each check -/

/-- Every record of the list is refused by both checks. -/
def allRefused (is : List Instr) : Bool := is.all (fun i => !i.wellFormed && !i.encodable)

theorem test_illFormed_r : allRefused [.r 64 0 0 0 0 0, .r 0 32 0 0 0 0, .r 0 0 32 0 0 0, .r 0 0 0 32 0 0,
    .r 0 0 0 0 32 0, .r 0 0 0 0 0 64, .r (-1) 0 0 0 0 0] = true := by decide

theorem test_illFormed_rsop : allRefused [.rsop 64 0 0 0 0 0, .rsop 0 32 0 0 0 0, .rsop 0 0 32 0 0 0,
    .rsop 0 0 0 32 0 0, .rsop 0 0 0 0 32 0, .rsop 0 0 0 0 0 64] = true := by decide

theorem test_illFormed_i16 : allRefused [.i16 64 0 0 0, .i16 0 32 0 0, .i16 0 0 32 0, .i16 0 0 0 65536,
    .i16 0 0 0 (-32769)] = true := by decide

theorem test_illFormed_i21 : allRefused [.i21 64 0 0, .i21 0 32 0, .i21 0 0 2097152, .i21 0 0 (-1048577)] = true := by
  decide

theorem test_illFormed_i26_j : allRefused [.i26 64 0, .i26 0 67108864, .i26 0 (-33554433), .j 64 0, .j 0 67108864,
    .j 0 (-33554433)] = true := by decide

theorem test_illFormed_i9 : allRefused [.i9 64 0 0 0 0 0, .i9 0 32 0 0 0 0, .i9 0 0 32 0 0 0, .i9 0 0 0 512 0 0,
    .i9 0 0 0 (-1) 0 0, .i9 0 0 0 0 2 0, .i9 0 0 0 0 0 64] = true := by decide

theorem test_illFormed_rfpu : allRefused [.rfpu 64 0 0 0 0 0, .rfpu 0 32 0 0 0 0, .rfpu 0 0 32 0 0 0,
    .rfpu 0 0 0 32 0 0, .rfpu 0 0 0 0 32 0, .rfpu 0 0 0 0 0 64] = true := by decide

theorem test_illFormed_rifpu : allRefused [.rifpu 64 0 0 0 0, .rifpu 0 32 0 0 0, .rifpu 0 0 32 0 0, .rifpu 0 0 0 32 0,
    .rifpu 0 0 0 0 2048] = true := by decide

theorem test_illFormed_ri : allRefused [.ri 64 0 0 0, .ri 0 32 0 0, .ri 0 0 32 0, .ri 0 0 0 65536,
    .ri 0 0 0 (-32769)] = true := by decide

theorem test_illFormed_pcrel16 : allRefused [.pcrel16 64 0 0 0, .pcrel16 0 32 0 0, .pcrel16 0 0 32 0, .pcrel16 0 0 0 65536,
    .pcrel16 0 0 0 (-32769)] = true := by decide

theorem test_illFormed_pcrel19 : allRefused [.pcrel19 64 0 0 0, .pcrel19 0 32 0 0, .pcrel19 0 0 4 0, .pcrel19 0 0 0 524288,
    .pcrel19 0 0 0 (-262145)] = true := by decide

/-- The unsigned spelling of a signed field encodes but is not well formed (R142). -/
theorem test_unsignedSpelling : (Instr.i16 9 0 8 0xFFFF).wellFormed = false ∧ (Instr.i16 9 0 8 0xFFFF).encodable = true := by
  decide

/-! ## Decode and encode: the words of R145 to R156, written bit by bit from the tables R102 to R113 -/

/-- R145: opcode 0, rs 5, rt 0, rd 3, shamt 2, funct 0x20. -/
theorem test_word_r : decode .r 0b00000000101000000001100010100000#32 = .r 0 5 0 3 2 0x20 ∧
    encode (.r 0 5 0 3 2 0x20) = .ok 0x00A018A0#32 := by decide

/-- V-COD-2. -/
theorem test_word_r_ones : decode .r 0xFFFFFFFF#32 = .r 63 31 31 31 31 63 := by decide

/-- R146: opcode 0, rs 4, rt 5, rd 2, sop 2, funct 0x18. -/
theorem test_word_rsop : decode .rsop 0b00000000100001010001000010011000#32 = .rsop 0 4 5 2 2 0x18 ∧
    encode (.rsop 0 4 5 2 2 0x18) = .ok 0x00851098#32 := by decide

/-- R147, V-COD-6, V-COD-9. -/
theorem test_word_i16 : decode .i16 0b00100100000010001111111111111111#32 = .i16 9 0 8 (-1) ∧
    encode (.i16 9 0 8 (-1)) = .ok 0x2408FFFF#32 ∧ encode (.i16 9 0 8 0xFFFF) = .ok 0x2408FFFF#32 := by decide

/-- V-COD-7, V-COD-8. -/
theorem test_word_i16_ends : decode .i16 0x24087FFF#32 = .i16 9 0 8 32767 ∧ decode .i16 0x24088000#32 = .i16 9 0 8 (-32768) := by
  decide

/-- R148, V-SRC-2, V-COD-16. -/
theorem test_word_i21 : decode .i21 0b11011000100101010101010101010101#32 = .i21 0x36 4 (-699051) ∧
    encode (.i21 0x36 4 0x155555) = .ok 0xD8955555#32 := by decide

/-- V-COD-13, V-COD-14. -/
theorem test_word_i21_ends : decode .i21 0xD88FFFFF#32 = .i21 0x36 4 1048575 ∧
    decode .i21 0xD8900000#32 = .i21 0x36 4 (-1048576) := by decide

/-- R149, V-COD-17, V-COD-20. -/
theorem test_word_i26 : decode .i26 0b11001011111111111111111111111111#32 = .i26 0x32 (-1) ∧
    encode (.i26 0x32 0x3FFFFFF) = .ok 0xCBFFFFFF#32 := by decide

/-- V-COD-18, V-COD-19. -/
theorem test_word_i26_ends : decode .i26 0xCA000000#32 = .i26 0x32 (-33554432) ∧
    decode .i26 0xC9FFFFFF#32 = .i26 0x32 33554431 := by decide

/-- R150, V-COD-22. -/
theorem test_word_j : decode .j 0b00001000000100000000000000000011#32 = .j 2 1048579 ∧
    encode (.j 2 0x100003) = .ok 0x08100003#32 := by decide

/-- R151, V-COD-36. -/
theorem test_word_i9 : decode .i9 0b01111111101010001111111110110110#32 = .i9 0x1F 29 8 511 0 0x36 ∧
    encode (.i9 0x1F 29 8 0x1FF 0 0x36) = .ok 0x7FA8FFB6#32 := by decide

/-- V-COD-38: bit 6 is kept. -/
theorem test_word_i9_zero : decode .i9 0x7FA8FFF6#32 = .i9 0x1F 29 8 511 1 0x36 := by decide

/-- R152, V-COD-23. -/
theorem test_word_rfpu : decode .rfpu 0b01000110000000100000100000000000#32 = .rfpu 0x11 0x10 2 1 0 0 ∧
    encode (.rfpu 0x11 0x10 2 1 0 0) = .ok 0x46020800#32 := by decide

/-- R153, V-COD-24. -/
theorem test_word_rifpu : decode .rifpu 0b01000100100010000000100000000000#32 = .rifpu 0x11 4 8 1 0 ∧
    encode (.rifpu 0x11 4 8 1 0) = .ok 0x44880800#32 := by decide

/-- V-COD-25: the eleven low bits are kept. -/
theorem test_word_rifpu_zero : decode .rifpu 0x448807FF#32 = .rifpu 0x11 4 8 0 0x7FF := by decide

/-- R154, V-COD-27, V-COD-28. -/
theorem test_word_ri : decode .ri 0b00000100100000010000000000000011#32 = .ri 1 4 1 3 ∧
    encode (.ri 1 4 1 3) = .ok 0x04810003#32 ∧ decode .ri 0x0481FFFF#32 = .ri 1 4 1 (-1) := by decide

/-- R155, V-COD-29. -/
theorem test_word_pcrel16 : decode .pcrel16 0b11101101000111100001001000110100#32 = .pcrel16 0x3B 8 0x1E 4660 ∧
    encode (.pcrel16 0x3B 8 0x1E 0x1234) = .ok 0xED1E1234#32 := by decide

/-- R156, V-COD-31, and V-COD-30: the PCREL16 word read in PCREL19. -/
theorem test_word_pcrel19 : decode .pcrel19 0b11101101000001111111111111111100#32 = .pcrel19 0x3B 8 0 (-4) ∧
    encode (.pcrel19 0x3B 8 0 (-4)) = .ok 0xED07FFFC#32 ∧
    decode .pcrel19 0xED1E1234#32 = .pcrel19 0x3B 8 3 (-126412) := by decide

/-- V-COD-33, V-COD-34. -/
theorem test_word_pcrel19_ends : decode .pcrel19 0xEC040000#32 = .pcrel19 0x3B 0 0 (-262144) ∧
    decode .pcrel19 0xEC03FFFF#32 = .pcrel19 0x3B 0 0 262143 := by decide

/-- V-COD-3, V-COD-12, V-COD-35, V-COD-39: the field and value a refused encode names (R142). -/
theorem test_encode_range : encode (.r 0 0 0 0 32 0) = .error ⟨.r, .shamt, 32⟩ ∧
    encode (.i16 9 0 8 (-32769)) = .error ⟨.i16, .imm, -32769⟩ ∧
    encode (.pcrel19 0x3B 8 4 0) = .error ⟨.pcrel19, .func, 4⟩ ∧
    encode (.i9 0x1F 29 8 (-1) 0 0x36) = .error ⟨.i9, .offset, -1⟩ := by decide

/-- V-ACC-1 to V-ACC-6. -/
theorem test_accessors : soffsetI9 0x7FA8FFB6#32 = -1 ∧ soffsetI9 0x7FA87FB6#32 = 255 ∧ soffsetI9 0x7FA880B6#32 = -255 ∧
    uimm 0x2408FFFF#32 = 65535 ∧ rel 0x08100003#32 = 1048579 ∧ rel 0x0BFFFFFF#32 = -1 := by decide

/-- V-ACC-7 to V-ACC-11. -/
theorem test_absTarget : absTarget 0x08100003#32 0x00400000#32 = 0x00400010#32 ∧
    absTarget 0x0BFFFFFF#32 0x9FFFFFFC#32 = 0x90000000#32 ∧ absTarget 0x08000000#32 0xF0000000#32 = 0xF0000004#32 ∧
    absTarget 0x0BFFFFFE#32 0x00400000#32 = 0x0FFFFFFC#32 ∧ absTarget 0x0C100003#32 0x0FFFFFFC#32 = 0x00400010#32 := by decide

/-- R119, informative (log entry 6): the table the reset state holds reads these words in these formats. -/
theorem test_resetTable : decodeTableWord 32 0x2408FFFF = some (.i16 9 0 8 (-1)) ∧
    decodeTableWord 32 0x00851098 = some (.rsop 0 4 5 2 2 0x18) ∧ decodeTableWord 32 0x7FA8FFB6 = some (.i9 0x1F 29 8 511 0 0x36) ∧
    decodeTableWord 32 0xED1E1234 = some (.pcrel16 0x3B 8 0x1E 4660) ∧ decodeTableWord 32 0x4C000000 = none := by decide

/-- Bytes are read in the order `bigEndian` says, and fewer than four are refused (R64, R117). -/
theorem test_decodeBytes : decodeBytes informativeTable false [0xFF#8, 0xFF#8, 0x08#8, 0x24#8, 7#8] = .ok (.i16 9 0 8 (-1), [7#8]) ∧
    decodeBytes informativeTable true [0x24#8, 0x08#8, 0xFF#8, 0xFF#8] = .ok (.i16 9 0 8 (-1), []) ∧
    decodeBytes informativeTable true [0x24#8, 0x08#8, 0xFF#8] = .error .truncated := by decide

/-! ## The common setup of the vectors (95_test_vectors.md) -/

/-- The decode table TT: no definition for 0xFFFFFFFF, one definition for every other word. -/
def vectorTable : DecodeTable := ⟨[⟨0xFFFFFFFF#32, 0xFFFFFFFF#32, none⟩, ⟨0#32, 0#32, some ⟨0, .r⟩⟩], []⟩

def vectorSetup : Setup where
  table := vectorTable
  initialEntries := 4
  bigEndian := false
  interruptPolicy := .always
  softwarePendingCauseBit := 8
  callEvents := true
  undoConfigured := true
  nextLevels := [1, 2]

/-- Memory that holds these words. -/
def wordsAt (ws : List (Word × Word)) : Mem :=
  ws.foldl (fun m p => Mem.writeBytes m p.1 (bytesOfValue false 4 p.2.toNat)) []

/-- The vector words at the three handlers, and the five text words of section 2.3. -/
def vectorMem : Mem :=
  wordsAt [(0x80000100#32, 0x24080001#32), (0x80000180#32, 0x24080001#32), (0x80000300#32, 0x24080001#32),
    (0x00400000#32, 0x24080005#32), (0x00400004#32, 0x24090007#32), (0x00400008#32, 0x08100003#32),
    (0x00400010#32, 0xFFFFFFFF#32)]

/-- The registers of the setup: EBase 0x80000000 and IntCtl.VS 4; the pc is the vector's. -/
def vectorRegs (pc : Word) : Regs :=
  { Regs.initial with pc := pc, cop0 := { Regs.initial.cop0 with eBase := 0x80000000#32, intCtl := 0x80#32 } }

/-- The state of the setup, with this pc. -/
def setup (pc : Word) : State := State.create vectorSetup 0x00400000#32 0x00500000#32 ⟨vectorRegs pc, vectorMem⟩

/-- The setup meets the invariant, whatever its registers and parameters but for the cache's size. -/
theorem create_inv (S : Setup) (hS : S.initialEntries = 4) (g : Regs) (m : Mem) (hm : Mem.wf m = true) :
    (State.create S 0x00400000#32 0x00500000#32 ⟨g, m⟩).Inv := by
  have h4 : (0x00400000#32 : Word).toNat + 4 * S.initialEntries ≤ (0x00500000#32 : Word).toNat + 3 := by rw [hS]; decide
  exact ⟨hm, hm, create_bounded _ _ _ (by decide) h4 (by decide), create_endInLastWord _ _ _ h4 (by decide), h4,
    fun i e h => absurd h (create_entry _ _ _ i e), ⟨List.Pairwise.nil, List.Pairwise.nil, List.Pairwise.nil, List.Pairwise.nil⟩,
    blockedOk_idle (by simp [State.create]) rfl, le_rfl⟩

theorem setup_inv (pc : Word) : (setup pc).Inv := create_inv _ rfl _ _ (by decide)

/-- The raw words of the entries. -/
def rawWords (c : ICache) : List (Option Word) := c.entries.map (Option.map (fun e => e.raw.value))

/-- What a fetch returns and the raw words it leaves, or none. -/
def fetched (s : State) (pc : Word) : Option (Word × List (Option Word)) :=
  match s.fetch pc with
  | .fetched t e => some (e.raw.value, rawWords t.cache)
  | .misaligned => none
  | .failed _ => none

/-- The setup with its four entries filled. -/
def filled : State :=
  [0x00400000#32, 0x00400004#32, 0x00400008#32, 0x0040000C#32].foldl (fun s a =>
    match s.fetch a with
    | .fetched t _ => t
    | .misaligned => s
    | .failed _ => s) (setup 0#32)

/-! ## The instruction cache (section 2.3) -/

/-- V-CACHE-1, V-CACHE-3: misses fill their entry. -/
theorem test_fetch_miss : fetched (setup 0#32) 0x00400008#32 = some (0x08100003#32, [none, none, some 0x08100003#32, none]) ∧
    fetched (setup 0#32) 0x0040000C#32 = some (0#32, [none, none, none, some 0#32]) := by decide

/-- V-CACHE-2: a hit leaves the state. -/
theorem test_fetch_hit : fetched filled 0x00400008#32 =
    some (0x08100003#32, [some 0x24080005#32, some 0x24090007#32, some 0x08100003#32, some 0#32]) := by decide

/-- V-CACHE-4 (with a word TT defines there), V-CACHE-5: bypasses store nothing. -/
theorem test_fetch_bypass : fetched (setup 0#32) 0x00400014#32 = some (0#32, [none, none, none, none]) ∧
    fetched (setup 0#32) 0x003FFFFC#32 = some (0#32, [none, none, none, none]) := by decide

/-- V-CACHE-6, V-CACHE-7. -/
theorem test_fetch_fails : (setup 0#32).fetch 0x00400002#32 = .misaligned ∧
    (setup 0#32).fetch 0x00400010#32 = .failed 0xFFFFFFFF#32 := by decide

/-- V-CACHE-8 to V-CACHE-11: byte, half, crossing word and double writes. -/
theorem test_snoop_invalidates :
    rawWords (filled.cache.snoopWrite 0x00400006#32 1) = [some 0x24080005#32, none, some 0x08100003#32, some 0#32] ∧
    rawWords (filled.cache.snoopWrite 0x0040000E#32 2) = [some 0x24080005#32, some 0x24090007#32, some 0x08100003#32, none] ∧
    rawWords (filled.cache.snoopWrite 0x00400006#32 4) = [some 0x24080005#32, none, none, some 0#32] ∧
    rawWords (filled.cache.snoopWrite 0x00400000#32 8) = [none, none, some 0x08100003#32, some 0#32] := by decide

/-- V-CACHE-13, V-CACHE-14. -/
theorem test_snoop_grows :
    (setup 0#32).cache.snoopWrite 0x00400020#32 4 = ⟨0x00400000#32, 0x00500000#32, 0x00400020#32, List.replicate 9 none⟩ ∧
    (setup 0#32).cache.snoopWrite 0x00400013#32 1 = ⟨0x00400000#32, 0x00500000#32, 0x00400013#32, List.replicate 5 none⟩ := by
  decide

/-- V-CACHE-15: a crossing write invalidates word 3 and grows for word 4. -/
theorem test_snoop_crossing : rawWords (filled.cache.snoopWrite 0x0040000E#32 4) =
      [some 0x24080005#32, some 0x24090007#32, some 0x08100003#32, none, none] ∧
    (filled.cache.snoopWrite 0x0040000E#32 4).endAddr = 0x00400010#32 := by decide

/-- V-CACHE-16, V-CACHE-17, V-CACHE-18: not text words. -/
theorem test_snoop_ignores : rawWords (filled.cache.snoopWrite 0x00500000#32 4) = rawWords filled.cache ∧
    rawWords (filled.cache.snoopWrite 0x003FFFFC#32 4) = rawWords filled.cache ∧
    rawWords (filled.cache.snoopWrite 0xFFFFFFFE#32 4) = rawWords filled.cache := by decide

/-- V-CACHE-19, V-CACHE-21, V-CACHE-22. -/
theorem test_clear : (filled.cache.clear 4) = ⟨0x00400000#32, 0x00500000#32, 0x0040000C#32, List.replicate 4 none⟩ ∧
    (ICache.create 0x00400000#32 0x00500000#32 0) = ⟨0x00400000#32, 0x00500000#32, 0x003FFFFC#32, []⟩ ∧
    ((ICache.create 0x00400000#32 0x00500000#32 0).snoopWrite 0x00400000#32 4) =
      ⟨0x00400000#32, 0x00500000#32, 0x00400000#32, [none]⟩ := by decide

/-- V-SRC-3: a written word is the next one fetched. -/
theorem test_coherence : fetched (filled.portWrite 0x00400004#32 (bytesOfValue false 4 0x2409000B)) 0x00400004#32 =
    some (0x2409000B#32, [some 0x24080005#32, some 0x2409000B#32, some 0x08100003#32, some 0#32]) := by decide

/-- P1 step 6: the byte at 0x00400006 is bits 23:16 little-endian and 15:8 big-endian. -/
theorem test_byteOrder :
    ((setup 0#32).portWrite 0x00400004#32 [0x0B#8, 0x00#8, 0x09#8, 0x24#8] |>.portWrite 0x00400006#32 [0#8]).readWord 0x00400004#32
      = 0x2400000B#32 ∧
    ({ (setup 0#32).portWrite 0x00400004#32 [0x24#8, 0x09#8, 0x00#8, 0x0B#8] with
      setup := { vectorSetup with bigEndian := true } } |>.portWrite 0x00400006#32 [0#8]).readWord 0x00400004#32
      = 0x2409000B#32 := by decide

/-! ## Trap entry (section 2.4) -/

/-- The pc, EPC, Cause, Status, BadVAddr, run state and exit code of a state. -/
def trapView (s : State) : List Word × RunState × Option Int :=
  ([s.regs.pc, s.regs.cop0.epc, s.regs.cop0.cause, s.regs.cop0.status, s.regs.cop0.badVAddr], s.runState, s.exitCode)

/-- V-TRAP-1, V-TRAP-3. -/
theorem test_trap_interrupt : trapView ((setup 0#32).invokeInterrupt 0#5 none false 0x00400004#32 2) =
      ([0x80000300#32, 0x00400004#32, 0x800#32, 2#32, 0#32], .ready, none) ∧
    trapView ((setup 0#32).invokeInterrupt 30#5 none false 0x00400004#32 0) =
      ([0x80000100#32, 0x00400004#32, 0x78#32, 2#32, 0#32], .ready, none) := by decide

/-- V-TRAP-2: nested. -/
theorem test_trap_nested :
    trapView (((setup 0#32).mutate (.writeCop0 .status 2#32) |>.mutate (.writeCop0 .epc 0x00400100#32)
      |>.mutate (.writeCop0 .cause 0x80000000#32)).invokeInterrupt 0#5 none false 0x00400004#32 2) =
      ([0x80000180#32, 0x00400100#32, 0x80000800#32, 2#32, 0#32], .ready, none) := by decide

/-- V-TRAP-8, V-TRAP-9: delay slots, and the wrap of pc - 4. -/
theorem test_trap_delaySlot : trapView ((setup 0#32).invokeInterrupt 8#5 none true 0x00400008#32 0) =
      ([0x80000180#32, 0x00400004#32, 0x80000020#32, 2#32, 0#32], .ready, none) ∧
    ((setup 0#32).invokeInterrupt 8#5 none true 0#32 0).regs.cop0.epc = 0xFFFFFFFC#32 := by decide

/-- V-TRAP-10: the bad address. -/
theorem test_trap_badAddress : trapView ((setup 0#32).invokeInterrupt 4#5 (some 0x00400002#32) false 0x00400002#32 0) =
    ([0x80000180#32, 0x00400002#32, 0x10#32, 2#32, 0x00400002#32], .ready, none) := by decide

/-- V-TRAP-6, V-TRAP-7, V-TRAP-12: the vector's sum. -/
theorem test_trap_vector :
    vectorTarget { (vectorRegs 0#32).cop0 with intCtl := 0x20#32 } 0#5 63 = 0x800009E0#32 ∧
    vectorTarget { (vectorRegs 0#32).cop0 with intCtl := 0x3E0#32 } 0#5 1 = 0x800005E0#32 ∧
    vectorTarget { (vectorRegs 0#32).cop0 with eBase := 0x80000001#32 } 0#5 2 = 0x80000300#32 := by decide

/-- V-TRAP-14: a zero word at the vector. -/
theorem test_trap_unmapped : trapView ((setup 0#32).invokeInterrupt 0#5 none false 0x00400004#32 3) =
    ([0x80000380#32, 0x00400004#32, 0xC00#32, 2#32, 0#32], .finished, some 0x1000) := by decide

/-! ## The interrupt controller and the cycle (section 2.5) -/

/-- V-INT-2, V-INT-3. -/
theorem test_requestHardware : (((setup 0#32).requestHardware 2).requestHardware 2).hwPending = [2] ∧
    ((setup 0#32).requestHardware 64).hwPending = [] := by decide

/-- A software request with code 8. -/
def request8 : SoftwareRequest := ⟨8#5, none, 0x00400004#32, false⟩

/-- V-INT-4: the highest level is taken (its vector 0x80000480 holds zero, so the entry is fatal). -/
theorem test_takes_highest : ((((setup 0#32).requestHardware 2).requestHardware 5).interruptCheck).hwPending = [2] ∧
    causeLevel ((((setup 0#32).requestHardware 2).requestHardware 5).interruptCheck).regs.cop0.cause = 5#6 := by decide

/-- V-INT-5: software first. -/
theorem test_takes_software : ((((setup 0#32).requestHardware 3).requestSoftware request8).interruptCheck).hwPending = [3] ∧
    causeExcCode ((((setup 0#32).requestHardware 3).requestSoftware request8).interruptCheck).regs.cop0.cause = 8#5 := by decide

/-- V-INT-9: DecodeFailure, with the counter, COP0 and exit code left alone. -/
theorem test_decodeFailure : ∃ t, step { setup 0x00400010#32 with cycles := 7 } = .fault (.decodeFailure 0x00400010#32 0xFFFFFFFF#32 t) ∧
    t.runState = .finished ∧ t.cycles = 7 ∧ t.regs = vectorRegs 0x00400010#32 ∧ t.exitCode = none :=
  ⟨_, rfl, rfl, rfl, rfl, rfl⟩

/-- V-INT-10: FetchAddressError queues its request and counts a cycle. -/
theorem test_misaligned : ∃ t, step { setup 0x00400002#32 with cycles := 7 } = .next t ∧ t.cycles = 8 ∧
    t.swPending = [⟨4#5, some 0x00400002#32, 0x00400002#32, false⟩] :=
  ⟨_, rfl, rfl, rfl⟩

/-- P3b: an interrupt without a handler; no fetch, no count. -/
theorem test_P3b : ∃ t, step { (setup 0x00400004#32).requestHardware 3 with cycles := 7 } = .next t ∧ t.runState = .finished ∧
    t.exitCode = some 0x1000 ∧ t.cycles = 7 ∧ t.regs.pc = 0x80000380#32 :=
  ⟨_, rfl, rfl, rfl, rfl, rfl⟩

/-- V-SRC-6: a cycle that stores 0x2409000B at 0x00400004, and its undo. -/
theorem test_undo :
    let s := ({ filled with cycles := 5, runState := .running, deltas := [] } : State)
    let t := (s.settle (.r 0 0 0 0 0 0) stays ⟨[.memWrite 0x00400004#32 .word 0x2409000B#64 false], .completed 0⟩).finishCycle
    t.cycles = 6 ∧ t.readWord 0x00400004#32 = 0x2409000B#32 ∧ rawWords t.cache =
      [some 0x24080005#32, none, some 0x08100003#32, some 0#32] ∧
    t.undoLastStep.cycles = 5 ∧ t.undoLastStep.readWord 0x00400004#32 = 0x24090007#32 ∧ t.undoLastStep.mem = s.mem ∧
    (t.undoLastStep.cache.entries[1]?) = some none := by
  refine ⟨rfl, by decide, by decide, rfl, by decide, by decide, by decide⟩

/-- V-SRC-7, V-SRC-8. -/
theorem test_undo_refused_and_stop :
    ({ setup 0#32 with setup := { vectorSetup with callEvents := false } } : State).undoLastStep.report = some .undoUnavailable ∧
    ({ setup 0#32 with runState := .running, cycles := 9 } : State).stop.runState = .ready ∧
    ({ setup 0#32 with runState := .running, cycles := 9 } : State).stop.cycles = 9 := by decide

/-- R348, log entry 13: P3b's fatal entry is taken back by one undo, which leaves the counter. -/
theorem test_undo_fatal :
    let s := ({ (setup 0x00400004#32).requestHardware 3 with cycles := 7, undoLog := [⟨[.gpr 8 5#32], true⟩] } : State)
    ∃ t, step s = .next t ∧ t.undoLastStep.regs = s.regs ∧ t.undoLastStep.cycles = 7 ∧ t.undoLastStep.undoLog = s.undoLog :=
  ⟨_, rfl, by decide, rfl, rfl⟩

/-- R349: a stop of a cycle that blocked after a trap entry takes the entry back and puts the request back. -/
theorem test_stop_unwinds :
    let s := (setup 0x00400004#32).requestHardware 2
    let t := ((s.beginCycle false).interruptCheck.settle (.j 2 0) stays ⟨[], .needsInput⟩).finishCycle
    t.regs.pc = 0x80000300#32 ∧ t.hwPending = [] ∧ t.stop.regs = s.regs ∧ t.stop.hwPending = [2] ∧ t.stop.runState = .ready := by
  decide

/-! ## Outside calls within a cycle, and writes that bypass the entry -/

/-- R71, R76: a write that lands before the fetch is fetched; one that lands after it is not. -/
theorem test_interleaved :
    let c := OutsideCall.mutate (.memWrite 0x00400004#32 .word 0x2409000B#64 false)
    fetched ({ setup 0#32 with interleaved := [[c]] } : State).gap 0x00400004#32 =
      some (0x2409000B#32, [none, some 0x2409000B#32, none, none]) ∧
    fetched ({ setup 0#32 with interleaved := [[], [c]] } : State).gap 0x00400004#32 =
      some (0x24090007#32, [none, some 0x24090007#32, none, none]) ∧
    ({ setup 0#32 with interleaved := [[], [c]] } : State).gap.gap.readWord 0x00400004#32 = 0x2409000B#32 := by decide

/-- R423, 93 row 22: a bypassing write changes memory, leaves the stale entry, and frees the next fetch of its
word, unless a snooped write comes first. -/
theorem test_bypassWrite :
    let t := filled.outside (.bypassWrite 0x00400006#32 .byte 0#64)
    t.readWord 0x00400004#32 = 0x24000007#32 ∧ rawWords t.cache = rawWords filled.cache ∧ t.unsynced = ⟨[0x00400004#32], []⟩ ∧
    (t.portWrite 0x00400007#32 [0#8]).unsynced = ⟨[], []⟩ := by decide

/-- R72: an outside write that lands after an effect is what the executable's later read gives: an executable
that copies the low byte at 4 into register 8 after a read step, and the write of 9 there in that gap. -/
def copies (done : List Effect) (seen : List View) : Continuation :=
  ⟨if done = [.read] then [.writeGpr 8 (BitVec.ofNat 32 ((seen.map (fun v => (Mem.readByte v.mem 4).toNat)).headD 0))] else [],
    .completed 0⟩

theorem test_readsSeeOutsideWrites :
    let x : Execution := ⟨[.read, .writeGpr 8 0#32], .completed 0⟩
    let s : State := { setup 0#32 with interleaved := [[.mutate (.memWrite 4#32 .byte 9#64 false)]] }
    Regs.readGpr (s.settle (.j 2 0) copies x).regs 8 = 9#32 ∧ Regs.readGpr ((setup 0#32).settle (.j 2 0) copies x).regs 8 = 0#32 := by
  decide

/-- R349: the input popped before a worker-thread exception is gone. -/
theorem test_raised_input :
    (({ setup 0#32 with inputQueue := [.character 65, .character 66] } : State).settle (.j 2 0) stays
      ⟨[], .raised 1 true⟩).inputQueue = [.character 66] := by decide

/-- R61, R402. -/
theorem test_cachesReset : ((setup 0#32).cachesReset).memoryLevels = [⟨1, 1⟩, ⟨2, 1⟩] ∧
    rawWords (filled.cachesReset).cache = [none, none, none, none] := by decide

/-- R211, R24: a write that wraps into a text segment at 0 leaves the end in the last covered word. -/
theorem test_snoop_wraps : (ICache.create 0#32 0x100#32 0).snoopWrite 0xFFFFFFFE#32 4 = ⟨0#32, 0x100#32, 0#32, [none]⟩ := by
  decide

/-! ## A step from reset runs the word placed at its pc -/

theorem test_withFetchWord : ∃ t, step (State.reset.withFetchWord 32 0x2408FFFF) = .next t := ⟨_, rfl⟩

theorem test_reset : State.reset.mem = [] ∧ State.reset.runState = .ready ∧ State.reset.cycles = 0 ∧
    State.reset.cache.endAddr = 0x0040000C#32 ∧ State.reset.exitCode = none := by decide

/-! ## The operands each format hands over (R116, R151, R160 to R162) -/

theorem test_operands_i16 : operandsOf .i16 0x2408FFFF#32 4#32 =
    ⟨.i16 9 0 8 (-1), 0x2408FFFF#32, 4#32, [(.rs, .general 0), (.rt, .general 8)], some 65535, none, none, none⟩ := by decide

theorem test_operands_j : operandsOf .j 0x08100003#32 0x00400000#32 =
    ⟨.j 2 1048579, 0x08100003#32, 0x00400000#32, [], none, some 1048579, some 0x00400010#32, none⟩ := by decide

theorem test_operands_i9 : operandsOf .i9 0x7FA8FFB6#32 0#32 =
    ⟨.i9 0x1F 29 8 511 0 0x36, 0x7FA8FFB6#32, 0#32, [(.base, .general 29), (.rt, .general 8)], none, none, none, some (-1)⟩ := by
  decide

theorem test_operands_fpu : (operandsOf .rfpu 0x46020800#32 0#32).regs = [(.ft, .fpu 2), (.fs, .fpu 1), (.fd, .fpu 0)] ∧
    (operandsOf .rifpu 0x44880800#32 0#32).regs = [(.rt, .general 8), (.fs, .fpu 1)] := by decide

/-- R27: register 0 ignores writes (log entry 8); another register takes them. -/
theorem test_register0 : Regs.readGpr ((setup 0#32).setGpr 0 7#32).regs 0 = 0#32 ∧
    Regs.readGpr ((setup 0#32).setGpr 31 7#32).regs 31 = 7#32 := by decide

/-! ## Witnesses: states and operands that meet the hypotheses of the statements -/

theorem witness_DecodeEncodeRoundTrip : (Instr.i16 63 31 31 (-32768)).wellFormed = true ∧
    (Instr.pcrel19 63 31 3 262143).wellFormed = true := by decide

theorem witness_UnsignedSpellingDecodesSigned :
    ([32768, 65535].all fun v => (Instr.i16 9 0 8 (v - 65536)).wellFormed && (Instr.ri 1 4 1 (v - 65536)).wellFormed
      && (Instr.pcrel16 0x3B 8 0x1E (v - 65536)).wellFormed) = true ∧
    ([1048576, 2097151].all fun v => (Instr.i21 0x36 4 (v - 2097152)).wellFormed) = true ∧
    ([33554432, 67108863].all fun v => (Instr.i26 0x32 (v - 67108864)).wellFormed && (Instr.j 2 (v - 67108864)).wellFormed) = true ∧
    ([262144, 524287].all fun v => (Instr.pcrel19 0x3B 8 0 (v - 524288)).wellFormed) = true := by decide

theorem witness_EncodeDecodeRoundTrip : decode .r 0#32 = decode .r 0#32 := rfl

/-- Every field of this record is at an end of its range. -/
theorem witness_EncodePlacesTheFields : ∀ (k : Nat) (f : Field) (v : Int),
    (Instr.i16 63 31 0 (-32768)).format.fields[k]? = some f → (Instr.i16 63 31 0 (-32768)).values[k]? = some v →
    (if f.kind = .s then -(2 ^ (f.width - 1)) else (0 : Int)) ≤ v ∧ v ≤ 2 ^ f.width - 1 := by
  intro k f v hf hv
  match k with
  | 0 | 1 | 2 | 3 => cases hf; cases hv; decide
  | k + 4 => simp [Instr.values] at hv

/-- Two spellings of one word, for the last clause of EncodeChecksEveryRange. -/
theorem witness_EncodeChecksEveryRange_spellings : encode (.i16 9 0 8 65535) = .ok 0x2408FFFF#32 ∧
    encode (.i16 9 0 8 (-1)) = .ok 0x2408FFFF#32 ∧ (65535 : Int) % 2 ^ 16 = (-1) % 2 ^ 16 := by decide

theorem witness_EncodeChecksEveryRange : encode (.rifpu 0x11 4 8 1 2048) = .error ⟨.rifpu, .zero, 2048⟩ ∧
    (∃ f, (Instr.rifpu 0x11 4 8 1 2048).format.fields[4]? = some f ∧ (Instr.rifpu 0x11 4 8 1 2048).values[4]? = some 2048) := by
  refine ⟨by decide, _, rfl, rfl⟩

theorem witness_AbsoluteTarget : (0x0BFFFFFF#32 : Word).toNat % 2 ^ 26 = 0x3FFFFFF := by decide

theorem witness_FieldForWantedTarget : (0x90000000#32 : Word).toNat % 4 = 0 ∧
    (0x90000000#32 : Word).toNat / 2 ^ 28 = (0x9FFFFFFC#32 : Word).toNat / 2 ^ 28 ∧
    0x0BFFFFFF#32 &&& 0x3FFFFFF#32 = ((0x90000000#32 - 4#32) &&& 0x0FFFFFFF#32) >>> 2 := by decide

theorem witness_RegisterFormatsRun : ∃ a b c d e f : Int, (0 ≤ a ∧ a < 64) ∧ (0 ≤ b ∧ b < 32) ∧ (0 ≤ c ∧ c < 32) ∧
    (0 ≤ d ∧ d < 32) ∧ (0 ≤ e ∧ e < 32) ∧ 0 ≤ f ∧ f < 64 := ⟨63, 31, 31, 31, 31, 63, by decide⟩

theorem witness_SixteenBitFormatsRun : ∃ a b c v n : Int, (0 ≤ a ∧ a < 64) ∧ (0 ≤ b ∧ b < 32) ∧ (0 ≤ c ∧ c < 32) ∧
    -32768 ≤ n ∧ n < 32768 ∧ (v = n ∨ v = n + 65536 ∧ n < 0) := ⟨63, 31, 31, 32768, -32768, by decide⟩

theorem witness_WideImmediateFormatsRun :
    (∃ a b v n : Int, (0 ≤ a ∧ a < 64) ∧ (0 ≤ b ∧ b < 32) ∧ -1048576 ≤ n ∧ n < 1048576 ∧ (v = n ∨ v = n + 2097152 ∧ n < 0)) ∧
    (∃ a b c v n : Int, (0 ≤ a ∧ a < 64) ∧ (0 ≤ b ∧ b < 32) ∧ (0 ≤ c ∧ c < 4) ∧ -262144 ≤ n ∧ n < 262144 ∧
      (v = n ∨ v = n + 524288 ∧ n < 0)) := ⟨⟨63, 31, 1048575, 1048575, by decide⟩, 63, 31, 3, 262144, -262144, by decide⟩

theorem witness_JumpFormatsRun : ∃ a v n : Int, (0 ≤ a ∧ a < 64) ∧ -33554432 ≤ n ∧ n < 33554432 ∧
    (v = n ∨ v = n + 67108864 ∧ n < 0) := ⟨2, 67108863, -1, by decide⟩

theorem witness_OffsetFormatRuns : ∃ a b c o z f : Int, (0 ≤ a ∧ a < 64) ∧ (0 ≤ b ∧ b < 32) ∧ (0 ≤ c ∧ c < 32) ∧
    (0 ≤ o ∧ o < 512) ∧ (0 ≤ z ∧ z < 2) ∧ 0 ≤ f ∧ f < 64 := ⟨63, 31, 31, 511, 1, 63, by decide⟩

theorem witness_FpuMoveFormatRuns : ∃ a b c d z : Int, (0 ≤ a ∧ a < 64) ∧ (0 ≤ b ∧ b < 32) ∧ (0 ≤ c ∧ c < 32) ∧
    (0 ≤ d ∧ d < 32) ∧ 0 ≤ z ∧ z < 2048 := ⟨63, 31, 31, 31, 2047, by decide⟩

theorem witness_ExecRefusesOnlyOutOfRange : exec (.r 64 0 0 0 0 0) (setup 0#32) = .refused (.codecFieldRange ⟨.r, .opcode, 64⟩) := rfl

theorem witness_ExecFrame : Mem.wf (setup 0#32).mem = true ∧ (setup 0#32).interleaved = [] ∧ ∃ t, exec (.i16 9 0 8 (-1)) (setup 0#32) = .next t :=
  ⟨by decide, rfl, _, rfl⟩

/-- The endings the last three clauses of ExecFrame name, each with the state it leaves. -/
theorem witness_ExecFrame_endings : ((setup 0#32).settle (.j 2 0) stays ⟨[], .completed 1⟩).executing = none ∧
    ((setup 0#32).settle (.j 2 0) stays ⟨[], .needsInput⟩).runState = .lockedOnInput ∧
    ((setup 0#32).settle (.j 2 0) stays ⟨[], .raised 0 true⟩).runState = .finished := by decide

/-- The second clause, with a call to land within the run; the conclusion is shown at a written-out run. -/
theorem witness_ExecFrame_outside :
    (∃ t, exec (.i16 9 0 8 (-1)) { setup 0#32 with interleaved := [[.addBreakpoint 4#32]] } = .next t) ∧
    (⟨[.read], .completed 1⟩ : Execution).ending.conclusion = some (.completed 1) ∧
    (({ setup 0#32 with interleaved := [[.addBreakpoint 4#32]] } : State).runEffects stays ⟨[.read], .completed 1⟩).2 = .completed 0 ∧
    (({ setup 0#32 with interleaved := [[.addBreakpoint 4#32]] } : State).runEffects (fun _ _ => ⟨[], .raised 0 true⟩)
      ⟨[.read], .completed 1⟩).2 = .raised 0 true := ⟨⟨_, rfl⟩, by decide, by decide, by decide⟩

/-- A write that is recorded and one that is not, in an undo-enabled run. -/
theorem witness_EffectsHappen : Mem.wf (setup 0#32).mem = true ∧ (setup 0#32).setup.undoEnabled = true ∧
    ((setup 0#32).applyEffect (.memWrite 4#32 .word 1#64 false)).deltas.length = 1 ∧
    ((setup 0#32).applyEffect (.memWrite 4#32 .word 1#64 true)).deltas.length = 0 ∧ (setup 0#32).interleaved = [] ∧
    ({ setup 0#32 with interleaved := [[.addBreakpoint 4#32]] } : State).interleaved = [.addBreakpoint 4#32] :: [] := by decide

theorem witness_WriteThenReadByByteOrder : Mem.wf (setup 0#32).mem = true ∧ 7 < Width.double.bytes ∧
    ∀ k < Width.double.bytes, (6 : Nat) ≠ (0xFFFFFFFE#32 + BitVec.ofNat 32 k).toNat := by decide

theorem witness_SnoopEmptiesExactlyTheTouchedEntries : filled.cache.Bounded ∧ 3 < filled.cache.size :=
  ⟨⟨by decide, by decide, by decide⟩, by decide⟩

/-- V-CACHE-14 and V-CACHE-15. -/
theorem witness_SnoopGrowsPastTheEnd :
    ((0x00400013#32 : Word).toNat % 4 + Width.byte.bytes ≤ 4 ∧ filled.cache.isText (containingWord 0x00400013#32) = true ∧
      filled.cache.size ≤ filled.cache.index (containingWord 0x00400013#32)) ∧
    (4 < (0x0040000E#32 : Word).toNat % 4 + Width.word.bytes ∧ (0x0040000E#32 : Word).toNat % 4 + Width.word.bytes ≤ 8 ∧
      filled.cache.isText (containingWord 0x0040000E#32 + 4#32) = true ∧
      filled.cache.index (containingWord 0x0040000E#32) < filled.cache.size ∧
      filled.cache.size ≤ filled.cache.index (containingWord 0x0040000E#32 + 4#32)) ∧ filled.cache.Bounded := by
  refine ⟨by decide, by decide, by decide, by decide, by decide⟩

/-- The second clause where the first word is no text word, at the top of the address space. -/
theorem witness_SnoopGrowsPastTheEnd_wrap : (ICache.create 0#32 0x100#32 0).Bounded ∧
    4 < (0xFFFFFFFE#32 : Word).toNat % 4 + Width.word.bytes ∧
    (ICache.create 0#32 0x100#32 0).isText (containingWord 0xFFFFFFFE#32) = false ∧
    (ICache.create 0#32 0x100#32 0).isText (containingWord 0xFFFFFFFE#32 + 4#32) = true ∧
    (ICache.create 0#32 0x100#32 0).size ≤ (ICache.create 0#32 0x100#32 0).index (containingWord 0xFFFFFFFE#32 + 4#32) :=
  ⟨⟨by decide, by decide, by decide⟩, by decide⟩

/-- The second clause where both words lie beyond the end of the array. -/
theorem witness_SnoopGrowsPastTheEnd_both : (ICache.create 0x00400000#32 0x00500000#32 4).Bounded ∧
    4 < (0x0040001E#32 : Word).toNat % 4 + Width.word.bytes ∧ (0x0040001E#32 : Word).toNat + Width.word.bytes ≤ 2 ^ 32 ∧
    (ICache.create 0x00400000#32 0x00500000#32 4).size ≤
      (ICache.create 0x00400000#32 0x00500000#32 4).index (containingWord 0x0040001E#32) ∧
    (ICache.create 0x00400000#32 0x00500000#32 4).isText (containingWord 0x0040001E#32 + 4#32) = true :=
  ⟨⟨by decide, by decide, by decide⟩, by decide⟩

/-- V-CACHE-16 and V-CACHE-17: the first word above the text and the last below it. -/
theorem witness_SnoopIgnoresOtherMemory :
    filled.cache.textLimit.toNat ≤ (0x00500000#32 : Word).toNat ∧ (0x003FFFFC#32 : Word).toNat < filled.cache.textBase.toNat ∧
    (∀ k < Width.word.bytes, (containingWord (0x00500000#32 + BitVec.ofNat 32 k)).toNat < filled.cache.textBase.toNat ∨
      filled.cache.textLimit.toNat ≤ (containingWord (0x00500000#32 + BitVec.ofNat 32 k)).toNat) ∧
    (∀ k < Width.word.bytes, (containingWord (0x003FFFFC#32 + BitVec.ofNat 32 k)).toNat < filled.cache.textBase.toNat ∨
      filled.cache.textLimit.toNat ≤ (containingWord (0x003FFFFC#32 + BitVec.ofNat 32 k)).toNat) := by decide

/-- A pc in the last covered word, one whose word TT defines and one whose word it does not. -/
theorem witness_FetchEqualsFreshDecode : (setup 0#32).Inv ∧ (0x0040000C#32 : Word).toNat % 4 = 0 ∧
    (setup 0#32).InStep 0x0040000C#32 ∧ (setup 0#32).InStep 0x00400010#32 ∧
    (∃ e, (setup 0#32).freshDecode 0x0040000C#32 = .ok e) ∧ (setup 0#32).freshDecode 0x00400010#32 = .error 0xFFFFFFFF#32 :=
  ⟨setup_inv _, by decide, by decide, by decide, ⟨_, rfl⟩, by decide⟩

/-- The second and third clauses, for a write that crosses into the word at 0. -/
theorem witness_WrittenCodeIsFetched_bypass :
    ((setup 0#32).outside (.bypassWrite 0xFFFFFFFE#32 .word 0#64)).unsynced = ⟨[0#32, 0xFFFFFFFC#32], []⟩ ∧
    (0#32 : Word).toNat % 4 = 0 := by decide

/-- A stale word's state: its next fetch gave an entry other than the word memory holds. -/
def stale : State := (filled.outside (.bypassWrite 0x00400006#32 .byte 0#64)).freeFetched 0x00400004#32
  ⟨assembleFromCode ⟨0, .r⟩ 0x24090007#32, ⟨0, .r⟩, ⟨⟨0, .r⟩, 0x24090007#32, 0x00400004#32⟩⟩

/-- The last clause, in bounds: the entry stays and is hit, though memory holds another word (R206). -/
theorem witness_WrittenCodeIsFetched_stale : stale.unsynced = ⟨[], [0x00400004#32]⟩ ∧
    stale.readWord 0x00400004#32 = 0x24000007#32 ∧ fetched stale 0x00400004#32 = some (0x24090007#32, rawWords stale.cache) := by
  decide

/-- The last clause, out of bounds: a fetch after the free one reads memory (R205). -/
theorem witness_WrittenCodeIsFetched_outOfBounds :
    let t := ((setup 0#32).outside (.bypassWrite 0x00400014#32 .word 0x2409000B#64)).freeFetched 0x00400014#32
      ⟨assembleFromCode ⟨0, .r⟩ 0x24090007#32, ⟨0, .r⟩, ⟨⟨0, .r⟩, 0x24090007#32, 0x00400014#32⟩⟩
    t.unsynced = ⟨[], []⟩ ∧ fetched t 0x00400014#32 = some (0x2409000B#32, [none, none, none, none]) := by decide

theorem witness_WrittenCodeIsFetched : (setup 0#32).Inv ∧ (0x00400004#32 : Word).toNat % 4 = 0 ∧ ∃ t e,
    ((setup 0#32).portWrite 0x00400004#32 ((setup 0#32).storedBytes .word ((0x2409000B#32 : Word).zeroExtend 64))).fetch
      0x00400004#32 = .fetched t e :=
  ⟨setup_inv _, by decide, _, _, rfl⟩

/-- The clauses of FetchCases: misaligned, bypass just above and just below, hit, miss, and a failed miss. -/
theorem witness_FetchCases : (∀ pc, pc ∉ (setup 0#32).unsynced.next ∧ pc ∉ filled.unsynced.next) ∧ (0x00400003#32 : Word).toNat % 4 ≠ 0 ∧
    ((setup 0#32).cache.inBounds 0x00400014#32 = false ∧ (setup 0#32).cache.inBounds 0x003FFFFC#32 = false ∧
      ∃ e, (setup 0#32).freshDecode 0x00400014#32 = .ok e) ∧
    (filled.cache.inBounds 0x0040000C#32 = true ∧ ∃ e, filled.cache.entries[filled.cache.index 0x0040000C#32]? = some (some e)) ∧
    ((setup 0#32).cache.inBounds 0x00400000#32 = true ∧ (setup 0#32).cache.entries[(setup 0#32).cache.index 0x00400000#32]? = some none ∧
      ∃ e, (setup 0#32).freshDecode 0x00400000#32 = .ok e) ∧
    (({ setup 0#32 with cache := (setup 0#32).cache.snoopWrite 0x00400010#32 1 } : State).cache.inBounds 0x00400010#32 = true ∧
      ({ setup 0#32 with cache := (setup 0#32).cache.snoopWrite 0x00400010#32 1 } : State).freshDecode 0x00400010#32
        = .error 0xFFFFFFFF#32) := by
  refine ⟨fun _ => ⟨List.not_mem_nil, by rw [show filled.unsynced = ⟨[], []⟩ from rfl]; exact List.not_mem_nil⟩, by decide,
    ⟨by decide, by decide, _, rfl⟩, ⟨by decide, _, rfl⟩, ⟨by decide, by decide, _, rfl⟩, by decide, by decide⟩

theorem witness_ClearRestoresCreation : (3 : Nat) < 4 := by decide

/-- An empty array on an empty text segment at 0, and the largest array of a segment. -/
theorem witness_CreationMeetsInvariant : ((0#32 : Word).toNat % 4 = 0 ∧ (0#32 : Word).toNat ≤ (0#32 : Word).toNat ∧
      (0#32 : Word).toNat + 4 * 0 ≤ (0#32 : Word).toNat + 3) ∧
    ((0x00400000#32 : Word).toNat % 4 = 0 ∧ (0x00400000#32 : Word).toNat ≤ (0x0040000D#32 : Word).toNat ∧
      (0x00400000#32 : Word).toNat + 4 * 4 ≤ (0x0040000D#32 : Word).toNat + 3) ∧ Mem.wf vectorMem = true := by decide

/-- A step that gives a next state, and one that faults, from states that meet the invariant. -/
theorem witness_StepKeepsInvariant : (setup 0x00400000#32).Inv ∧ (∃ t, step (setup 0x00400000#32) = .next t) ∧
    (setup 0x00400010#32).Inv ∧ ∃ t, step (setup 0x00400010#32) = .fault (.decodeFailure 0x00400010#32 0xFFFFFFFF#32 t) :=
  ⟨setup_inv _, ⟨_, rfl⟩, setup_inv _, _, rfl⟩

/-- The setup, FINISHED. -/
def finishedState : State := { setup 0#32 with runState := .finished }

theorem finishedState_inv : finishedState.Inv :=
  { setup_inv 0#32 with blocked := blockedOk_idle (by decide) rfl }

theorem witness_StepStopsOnlyWhereTheSpecDoes : finishedState.Inv ∧ step finishedState = .refused .runFinished ∧
    (setup 0x00400010#32).Inv ∧ ∃ t, step (setup 0x00400010#32) = .fault (.decodeFailure 0x00400010#32 0xFFFFFFFF#32 t) :=
  ⟨finishedState_inv, rfl, setup_inv _, _, rfl⟩

theorem witness_StepKeepsParameters : ∃ t, step { setup 0x00400000#32 with commands := [.reset] } = .next t := ⟨_, rfl⟩

theorem witness_StepCountsAtMostOneCycle : (setup 0x00400000#32).commands = [] ∧ ∃ t, step (setup 0x00400000#32) = .next t :=
  ⟨rfl, _, rfl⟩

/-- The setup with Status.EXL and Status.ERL set. -/
def nested : State := (setup 0#32).mutate (.writeCop0 .status 6#32)

theorem witness_TrapSavesRestartUnlessNested : statusEXL (setup 0#32).regs.cop0.status = false ∧
    statusEXL nested.regs.cop0.status = true := by decide

theorem witness_TrapRecordsCause : ∃ t, t = (setup 0#32).invokeInterrupt 8#5 none false 4#32 63 := ⟨_, rfl⟩

theorem witness_TrapVectorExample : (setup 0#32).regs.cop0.eBase = 0x80000000#32 ∧
    statusEXL (setup 0#32).regs.cop0.status = false ∧ intCtlVS (setup 0#32).regs.cop0.intCtl = 4 := by decide

/-- A zero word at the vector, and a nonzero one. -/
theorem witness_UnmappedVectorEndsTheRun :
    (setup 0#32).readWord ((setup 0#32).invokeInterrupt 0#5 none false 4#32 3).regs.pc = 0#32 ∧
    (setup 0#32).readWord ((setup 0#32).invokeInterrupt 0#5 none false 4#32 2).regs.pc ≠ 0#32 := by decide

theorem witness_TrapFrame : ∃ t, t = nested.invokeInterrupt 30#5 (some 1#32) true 0#32 0 := ⟨_, rfl⟩

theorem witness_NestedTrapKeepsFirstEpc_exl : statusEXL nested.regs.cop0.status = true ∧
    ∃ t, t = nested.invokeInterrupt 0#5 none false 4#32 63 := ⟨by decide, _, rfl⟩

theorem witness_NestedTrapKeepsFirstEpc : ∃ t, t = ((setup 0#32).invokeInterrupt 8#5 none false 4#32 0).invokeInterrupt 0#5 none
    true 8#32 63 := ⟨_, rfl⟩

theorem witness_ExceptionReturn : statusERL nested.regs.cop0.status = true ∧
    statusERL (setup 0#32).regs.cop0.status = false := by decide

theorem witness_HardwareRequestsAreASet : (setup 0#32).SetsOrdered ∧ (63 : Nat) < 64 ∧ (64 : Nat) ≤ 64 :=
  ⟨(setup_inv _).sets, by decide, by decide⟩

theorem witness_PendingRequests : State.reset.setup.interruptPolicy = .mips32 ∧
    ({ State.reset.requestHardware 7 with
      regs := Regs.writeCop0 Regs.initial .status 0x8001#32 } : State).interruptEnabled 7 = true := by decide

/-- The clauses of InterruptCheckPriority: a software request; the highest of two enabled levels; none. -/
theorem witness_InterruptCheckPriority :
    (((setup 0#32).requestHardware 2).requestHardware 63).SetsOrdered ∧
    ((setup 0#32).requestSoftware request8).swPending = [request8] ∧
    ((((setup 0#32).requestHardware 2).requestHardware 63).swPending = [] ∧
      (63 : Fin 64) ∈ (((setup 0#32).requestHardware 2).requestHardware 63).hwPending ∧
      (((setup 0#32).requestHardware 2).requestHardware 63).interruptEnabled 63 = true ∧
      ∀ k ∈ (((setup 0#32).requestHardware 2).requestHardware 63).hwPending, k ≤ 63) ∧
    ((State.reset.requestHardware 3).swPending = [] ∧
      ∀ k ∈ (State.reset.requestHardware 3).hwPending, (State.reset.requestHardware 3).interruptEnabled k = false) := by
  refine ⟨⟨by decide, List.Pairwise.nil, List.Pairwise.nil, List.Pairwise.nil⟩, rfl, by decide, by decide⟩

theorem witness_StepRunsDecodedInstruction : (setup 0x00400000#32).Inv ∧ (setup 0x00400000#32).commands = [] ∧
    (setup 0x00400000#32).runState = .ready ∧ (setup 0x00400000#32).hasPending = false ∧
    (setup 0x00400000#32).interleaved = [] ∧ (setup 0x00400000#32).InStep 0x00400000#32 ∧
    (setup 0x00400000#32).regs.pc.toNat % 4 = 0 ∧ vectorTable.lookup ((setup 0x00400000#32).readWord 0x00400000#32) = some ⟨0, .r⟩ ∧
    vectorTable.generateExecution ⟨0, .r⟩ ((setup 0x00400000#32).readWord 0x00400000#32) 0x00400000#32
      = some ⟨⟨0, .r⟩, 0x24080005#32, 0x00400000#32⟩ :=
  ⟨setup_inv _, by decide⟩

/-- The second clause: an outside write lands before the fetch, another before the execute. -/
theorem witness_StepRunsDecodedInstruction_interleaved :
    let s := ({ setup 0x00400004#32 with
      interleaved := [[.mutate (.memWrite 0x00400004#32 .word 0x2409000B#64 false)], [.addBreakpoint 4#32]] } : State)
    s.commands = [] ∧ s.runState = .ready ∧ s.hasPending = false ∧ ∃ t e,
      (({ s with runState := .running, singleStep := true, deltas := [], openEntry := none } : State).gap).fetch 0x00400004#32
        = .fetched t e :=
  ⟨rfl, rfl, rfl, _, _, rfl⟩

/-- The clauses of CycleEnd: a completed execute of a run and of a `step()`, one after which the run is
over, a blocked one, and one that raised. -/
theorem witness_CycleEnd :
    (({ setup 0#32 with runState := .running } : State).executing = none ∧ ({ setup 0#32 with runState := .running } : State).runState = .running) ∧
    (finishedState.executing = none ∧ finishedState.runState ≠ .running) ∧
    (((setup 0#32).settle (.j 2 0) stays ⟨[], .needsInput⟩).executing ≠ none ∧
      ((setup 0#32).settle (.j 2 0) stays ⟨[], .needsInput⟩).runState = .lockedOnInput) ∧
    (((setup 0#32).settle (.j 2 0) stays ⟨[], .raised 0 false⟩).executing ≠ none ∧
      ((setup 0#32).settle (.j 2 0) stays ⟨[], .raised 0 false⟩).runState ≠ .lockedOnInput) := by decide

theorem witness_DecodeFailureLeavesTheMachine : (setup 0x00400010#32).Inv ∧ (setup 0x00400010#32).commands = [] ∧
    (setup 0x00400010#32).runState = .ready ∧ (setup 0x00400010#32).hasPending = false ∧
    (setup 0x00400010#32).interleaved = [] ∧ (setup 0x00400010#32).InStep 0x00400010#32 ∧
    (setup 0x00400010#32).regs.pc.toNat % 4 = 0 ∧ (setup 0x00400010#32).freshDecode 0x00400010#32 = .error 0xFFFFFFFF#32 :=
  ⟨setup_inv _, by decide⟩

theorem witness_DecodeFailureLeavesTheMachine_midCycle : ((setup 0x00400010#32).beginCycle true).cache.Bounded ∧
    ((setup 0x00400010#32).beginCycle true).Coherent ∧ ((setup 0x00400010#32).beginCycle true).runState = .running ∧
    ((setup 0x00400010#32).beginCycle true).interleaved = [] ∧
    ((setup 0x00400010#32).beginCycle true).InStep 0x00400010#32 ∧
    ((setup 0x00400010#32).beginCycle true).freshDecode 0x00400010#32 = .error 0xFFFFFFFF#32 :=
  ⟨(setup_inv 0x00400010#32).bounded, (setup_inv 0x00400010#32).coherent, rfl, rfl, by decide, by decide⟩

theorem witness_MisalignedFetchQueuesRequest : (setup 0x00400003#32).commands = [] ∧ (setup 0x00400003#32).runState = .ready ∧
    (setup 0x00400003#32).hasPending = false ∧ (setup 0x00400003#32).interleaved = [] ∧ (setup 0x00400003#32).regs.pc.toNat % 4 ≠ 0 := by decide

/-- P4's second cycle. -/
def fatal : State := { State.reset.requestSoftware request8 with runState := .running }

theorem witness_FatalEntryEndsTheCycle : fatal.commands = [] ∧ fatal.runState = .running ∧ fatal.swPending = [request8] ∧
    fatal.readWord (vectorTarget fatal.regs.cop0 request8.code 0) = 0#32 := by decide

/-- The second clause: level 3, whose vector holds zero, and a lower one. -/
theorem witness_FatalEntryEndsTheCycle_hardware :
    let s := ((setup 0#32).requestHardware 3).requestHardware 2
    s.hwPending.Pairwise (fun a b => a.val < b.val) ∧ s.commands = [] ∧ s.runState = .ready ∧ s.swPending = [] ∧
    (3 : Fin 64) ∈ s.hwPending ∧ s.interruptEnabled 3 = true ∧ (∀ k ∈ s.hwPending, k ≤ 3) ∧
    s.readWord (vectorTarget s.regs.cop0 0#5 3) = 0#32 := by decide

theorem witness_WaitingAndFinishedRuns : finishedState.commands = [] ∧ finishedState.runState = .finished ∧
    ((setup 0#32).settle (.j 2 0) stays ⟨[], .needsInput⟩).commands = [] ∧
    ((setup 0#32).settle (.j 2 0) stays ⟨[], .needsInput⟩).runState = .lockedOnInput := by decide

/-- A run that waits, and the call that brings its input. -/
theorem witness_InputResumesTheExecute :
    ({ (setup 0#32).settle (.j 2 0) stays ⟨[], .needsInput⟩ with commands := [.outside (.input (.character 65))] } : State).commands
      = .outside (.input (.character 65)) :: [] ∧
    ({ (setup 0#32).settle (.j 2 0) stays ⟨[], .needsInput⟩ with commands := [.outside (.input (.character 65))] } : State).runState
      = .lockedOnInput ∧
    ({ (setup 0#32).settle (.j 2 0) stays ⟨[], .needsInput⟩ with commands := [.outside (.input (.character 65))] } : State).executing
      = some (.j 2 0) := by decide

theorem witness_UndoIsSnooped : Mem.wf (setup 0#32).mem = true := by decide

theorem witness_UndoRestoresTheCycle : Mem.wf (setup 0#32).mem = true ∧ (setup 0#32).setup.undoEnabled = true ∧
    (setup 0#32).interleaved = [] ∧ ∀ a w v, Effect.memWrite a w v true ∉ [Effect.memWrite 4#32 .word 1#64 false, .writeGpr 8 1#32] :=
  ⟨by decide, by decide, rfl, fun _ _ _ h => by simp at h⟩

/-- The second clause: an entry whose vector holds zero. -/
theorem witness_UndoRestoresTheCycle_fatal : Mem.wf ((setup 0#32).requestHardware 3).mem = true ∧
    ((setup 0#32).requestHardware 3).setup.undoEnabled = true ∧
    (((setup 0#32).requestHardware 3).beginCycle true).interruptCheck.runState = .finished ∧
    ∃ t, ((setup 0#32).requestHardware 3).cycle true = .next t := ⟨by decide, by decide, by decide, _, rfl⟩

theorem witness_UndoRefused : ({ vectorSetup with callEvents := false } : Setup).callEvents = false ∧
    ({ vectorSetup with undoConfigured := false } : Setup).undoConfigured = false ∧ (2 : Nat) ≠ 1 ∧ (0 : Nat) ≠ 1 := by decide

theorem witness_EngineReset : ({ finishedState with commands := [.reset, .step] } : State).commands = .reset :: [.step] ∧
    ({ finishedState with commands := [.reset, .step] } : State).runState ≠ .lockedOnInput := by decide

/-- An address in the set and one that is not. -/
theorem witness_BreakpointsAreASet :
    ({ State.reset with breakpoints := [4#32, 8#32] } : State).breakpoints.Pairwise (fun x y => x.toNat < y.toNat) ∧
    (8#32 : Word) ∈ ({ State.reset with breakpoints := [4#32, 8#32] } : State).breakpoints ∧
    (0#32 : Word) ∉ ({ State.reset with breakpoints := [4#32, 8#32] } : State).breakpoints := by decide

/-- The four run states. -/
theorem witness_StopUnwindsToReady : ({ setup 0#32 with runState := .running } : State).runState = .running ∧
    ((setup 0#32).settle (.j 2 0) stays ⟨[], .needsInput⟩).runState = .lockedOnInput ∧ (setup 0#32).runState = .ready ∧
    finishedState.runState = .finished := by decide

/-- The second clause: a level is taken, and the execute blocks. -/
theorem witness_StopUnwindsToReady_blocked : ((setup 0#32).requestHardware 2).SetsOrdered ∧
    (⟨[], .needsInput⟩ : Execution).ending = .needsInput :=
  ⟨⟨by decide, List.Pairwise.nil, List.Pairwise.nil, List.Pairwise.nil⟩, rfl⟩

end Sys2Proof.Machine.Tests
end

section
/-! The bytes a write leaves in memory, one by one, and the obligation about a write and its read. -/

namespace Sys2Proof.Machine

/-- A read of bytes is the list of the bytes at rising addresses modulo 2^32. -/
theorem getElem_readBytes (m : Mem) (a : Word) {n k : Nat} (h : k < (Mem.readBytes m a n).length) :
    (Mem.readBytes m a n)[k] = Mem.readByte m (a + BitVec.ofNat 32 k).toNat := by
  induction n generalizing a k with
  | zero => exact absurd h (Nat.not_lt_zero k)
  | succ n ih =>
    cases k with
    | zero => simp [Mem.readBytes]
    | succ k =>
      have hstep : a + 1#32 + BitVec.ofNat 32 k = a + BitVec.ofNat 32 (k + 1) := by
        rw [BitVec.ofNat_add, BitVec.add_assoc, BitVec.add_comm (BitVec.ofNat 32 k)]
      simp only [Mem.readBytes, List.getElem_cons_succ, ih, hstep]

/-- After a store of at most 2^32 bytes each stored address holds its byte. -/
theorem readByte_writeBytes_of_stored {m : Mem} (h : Mem.wf m = true) (a : Word) (bs : List Byte)
    (hn : bs.length ≤ 2 ^ 32) {k : Nat} (hk : k < bs.length) :
    Mem.readByte (Mem.writeBytes m a bs) (a + BitVec.ofNat 32 k).toNat = bs[k] := by
  have hread := getElem_readBytes (Mem.writeBytes m a bs) a (n := bs.length) (k := k) (by simpa using hk)
  simpa only [readBytes_writeBytes h a bs hn] using hread.symm

/-- Byte `k` of a value, least significant first, is its `k`-th digit in base 256. -/
theorem getElem_littleEndianBytes (v : Nat) {n k : Nat} (h : k < (littleEndianBytes n v).length) :
    (littleEndianBytes n v)[k].toNat = v / 256 ^ k % 256 := by
  induction n generalizing v k with
  | zero => exact absurd h (Nat.not_lt_zero k)
  | succ n ih =>
    cases k with
    | zero => simp [littleEndianBytes]
    | succ k => simp only [littleEndianBytes, List.getElem_cons_succ, ih, Nat.div_div_eq_div_mul, pow_succ']

/-- The byte at offset `k` is the digit the byte order puts there: the last comes first when big-endian. -/
theorem getElem_bytesOfValue (bigEndian : Bool) (v : Nat) {n k : Nat} (h : k < (bytesOfValue bigEndian n v).length) :
    (bytesOfValue bigEndian n v)[k].toNat = v / 256 ^ (if bigEndian then n - 1 - k else k) % 256 := by
  cases bigEndian with
  | false => exact getElem_littleEndianBytes v h
  | true => simp [bytesOfValue, getElem_littleEndianBytes]

/-- A store of a width is short enough not to wrap onto itself. -/
theorem storedBytes_length_le (s : State) (w : Width) (v : BitVec 64) : (s.storedBytes w v).length ≤ 2 ^ 32 := by
  rw [storedBytes_length]
  exact (Width.bytes_le w).trans (by norm_num)

/-- Each byte a write through the port stores is the digit the byte order puts there (R12, R64). -/
theorem readByte_portWrite (s : State) (h : Mem.wf s.mem = true) (a : Word) (w : Width) (v : BitVec 64) {k : Nat}
    (hk : k < w.bytes) :
    (Mem.readByte (s.portWrite a (s.storedBytes w v)).mem (a + BitVec.ofNat 32 k).toNat).toNat =
      v.toNat / 256 ^ (if s.setup.bigEndian then w.bytes - 1 - k else k) % 256 := by
  rw [portWrite_mem, readByte_writeBytes_of_stored h a _ (storedBytes_length_le s w v) (by simpa using hk)]
  exact getElem_bytesOfValue ..

/-- A write through the port leaves every byte outside the stored ones alone. -/
theorem readByte_portWrite_of_outside (s : State) (h : Mem.wf s.mem = true) (a : Word) (w : Width) (v : BitVec 64)
    (x : Nat) (hx : ∀ k < w.bytes, x ≠ (a + BitVec.ofNat 32 k).toNat) :
    Mem.readByte (s.portWrite a (s.storedBytes w v)).mem x = Mem.readByte s.mem x :=
  readByte_writeBytes_of_outside h a _ x (by simpa using hx)

/-- Settles O21: the stored bytes digit by digit, every other byte by the frame of a store, and the read back by
`memRead_portWrite`. -/
theorem writeThenReadByByteOrder : Obligations.WriteThenReadByByteOrder := by
  intro s a w v h
  exact ⟨fun k hk => readByte_portWrite s h a w v hk, readByte_portWrite_of_outside s h a w v,
    memRead_portWrite s h a w v⟩

end Sys2Proof.Machine
end

section
/-! What no step changes: the parameters, the snapshot and the bounds of the text segment. -/

namespace Sys2Proof.Machine

/-- The part of the state that is fixed at creation (R8, R42, R204). -/
def State.parameters (s : State) : Setup × Snapshot × Word × Word :=
  (s.setup, s.snapshot, s.cache.textBase, s.cache.textLimit)

/-- Two states have the same parameters when each of the four parts is the same. -/
theorem parameters_eq_iff {s t : State} :
    t.parameters = s.parameters ↔ t.setup = s.setup ∧ t.snapshot = s.snapshot ∧
      t.cache.textBase = s.cache.textBase ∧ t.cache.textLimit = s.cache.textLimit := by
  simp [State.parameters]

/-- An operation that leaves the whole cache leaves the bounds of the text segment. -/
theorem parameters_congr {s t : State} (hs : t.setup = s.setup) (hn : t.snapshot = s.snapshot)
    (hc : t.cache = s.cache) : t.parameters = s.parameters :=
  parameters_eq_iff.mpr ⟨hs, hn, by rw [hc], by rw [hc]⟩

/-! ## The worker's and the outside's atomic steps -/

@[simp] theorem parameters_portWrite (s : State) (a : Word) (bs : List Byte) :
    (s.portWrite a bs).parameters = s.parameters := by
  simp [State.parameters]

@[simp] theorem parameters_applyEffect (s : State) (e : Effect) : (s.applyEffect e).parameters = s.parameters :=
  parameters_eq_iff.mpr ⟨applyEffect_setup s e, applyEffect_snapshot s e, applyEffect_textBase s e⟩

@[simp] theorem parameters_outside (s : State) (c : OutsideCall) : (s.outside c).parameters = s.parameters := by
  cases c with
  | requestHardware l => exact parameters_congr (by simp) (by simp) (by simp [State.outside])
  | mutate e =>
    simp only [State.outside, State.mutate]
    split
    · exact parameters_applyEffect s e
    · rfl
  | _ => rfl

@[simp] theorem parameters_gap (s : State) : s.gap.parameters = s.parameters :=
  gap_induct (P := fun u => u.parameters = s.parameters) (fun u h c => (parameters_outside u c).trans h)
    (fun _ h _ => h) rfl

@[simp] theorem parameters_runEffects (s : State) (next : Continue) (rest : Continuation) :
    (s.runEffects next rest).1.parameters = s.parameters :=
  runBatches_field State.parameters parameters_applyEffect parameters_gap ..

/-! ## A cycle -/

@[simp] theorem parameters_conclude (s : State) (i : Instr) (c : Conclusion) :
    (s.conclude i c).parameters = s.parameters := by
  cases c <;> rfl

@[simp] theorem parameters_settle (s : State) (i : Instr) (next : Continue) (x : Execution) :
    (s.settle i next x).parameters = s.parameters := by
  rcases settle_cases s i next x with ⟨_, h⟩ | ⟨c, _, h⟩ <;> rw [h]
  · rfl
  · simp

theorem parameters_exec {s t : State} {i : Instr} (h : exec i s = .next t) : t.parameters = s.parameters := by
  rcases exec_cases i s with ⟨_, he⟩ | ⟨_, e, _, he⟩ <;> rw [he] at h <;> cases h
  exact parameters_settle ..

@[simp] theorem parameters_checkBreakpoints (s : State) : s.checkBreakpoints.parameters = s.parameters := by
  unfold State.checkBreakpoints
  split <;> rfl

@[simp] theorem parameters_endStep (s : State) : s.endStep.parameters = s.parameters := by
  unfold State.endStep
  split <;> rfl

@[simp] theorem parameters_countCycle (s : State) : s.countCycle.parameters = s.parameters := rfl

@[simp] theorem parameters_finishCycle (s : State) : s.finishCycle.parameters = s.parameters := by
  unfold State.finishCycle
  split
  · simp
  · split <;> rfl

/-- The execute of a cycle with its end. -/
theorem parameters_finishResult_exec {s t : State} {i : Instr} (h : finishResult (exec i s) = .next t) :
    t.parameters = s.parameters := by
  cases he : exec i s with
  | next u =>
    rw [he] at h
    cases h
    exact (parameters_finishCycle u).trans (parameters_exec he)
  | fault f => rw [he] at h; cases h
  | refused r => rw [he] at h; cases h

theorem parameters_fetch {s t : State} {pc : Word} {e : Entry} (h : s.fetch pc = .fetched t e) :
    t.parameters = s.parameters :=
  parameters_eq_iff.mpr ⟨by rw [fetch_frame h], by rw [fetch_frame h], fetch_text h⟩

@[simp] theorem parameters_interruptCheck (s : State) : s.interruptCheck.parameters = s.parameters :=
  parameters_congr (by simp) (by simp) (by simp)

theorem parameters_fetchAndExecute {s t : State} (h : s.fetchAndExecute = .next t) : t.parameters = s.parameters := by
  unfold State.fetchAndExecute at h
  split at h
  · cases h
    exact parameters_endStep _
  · cases h
  · rename_i u e hf
    exact (parameters_finishResult_exec h).trans ((parameters_gap u).trans (parameters_fetch hf))

theorem parameters_cycle {s t : State} {single : Bool} (h : s.cycle single = .next t) : t.parameters = s.parameters := by
  have hcheck : (s.beginCycle single).interruptCheck.parameters = s.parameters := parameters_interruptCheck _
  rw [State.cycle, State.cycleBody] at h
  split at h
  · cases h
    exact hcheck
  · exact (parameters_fetchAndExecute h).trans ((parameters_gap _).trans hcheck)

/-! ## The controller's calls -/

theorem parameters_resume {s t : State} (h : s.resume = .next t) : t.parameters = s.parameters := by
  unfold State.resume at h
  split at h
  · exact (parameters_finishResult_exec h).trans rfl
  · cases h
    rfl

@[simp] theorem parameters_undoDelta (s : State) (d : Delta) : (s.undoDelta d).parameters = s.parameters := by
  cases d with
  | mem a w old => exact parameters_portWrite ..
  | _ => rfl

@[simp] theorem parameters_undoDeltas (s : State) (ds : List Delta) : (s.undoDeltas ds).parameters = s.parameters := by
  induction ds generalizing s with
  | nil => rfl
  | cons d ds ih => exact (ih _).trans (parameters_undoDelta s d)

@[simp] theorem parameters_undoCycles (s : State) (n : Nat) : (s.undoCycles n).parameters = s.parameters := by
  unfold State.undoCycles
  split
  · unfold State.undoLastStep
    split
    · exact parameters_undoDeltas ..
    · rfl
  · rfl

@[simp] theorem parameters_stop (s : State) : s.stop.parameters = s.parameters := by
  unfold State.stop
  split
  · unfold State.unwind
    split
    · rfl
    · exact parameters_congr (putBack_setup ..) (putBack_snapshot ..) (putBack_cache ..)
  · split <;> rfl

theorem parameters_perform {s t : State} {c : Command} (h : s.perform c = .next t) : t.parameters = s.parameters := by
  cases c <;> simp only [State.perform] at h
  case step =>
    split at h
    · exact parameters_cycle h
    · cases h; rfl
  case runToCompletion => split at h <;> cases h <;> rfl
  case stop => cases h; exact parameters_stop s
  case reset => split at h <;> cases h <;> rfl
  case undo n =>
    split at h <;> cases h
    · rfl
    · exact parameters_undoCycles s n
  case cancelBeforeCycle => cases h; rfl
  case outside c =>
    split at h
    · exact (parameters_resume h).trans (parameters_outside s c)
    · cases h; exact parameters_outside s c

/-- One step, a call or a cycle, keeps the parameters. -/
theorem parameters_step {s t : State} (h : step s = .next t) : t.parameters = s.parameters := by
  unfold step at h
  split at h
  · exact (parameters_perform h).trans rfl
  · split at h
    · exact parameters_cycle h
    · exact parameters_cycle h
    · cases h; rfl
    · cases h

/-- Settles O33: every call and every part of a cycle keeps `State.parameters`. -/
theorem stepKeepsParameters : Obligations.StepKeepsParameters := by
  intro s t h
  exact parameters_eq_iff.mp (parameters_step h)

end Sys2Proof.Machine
end

section
/-! What each effect of an executable does, what lands between two effects, and what an executable can see. -/

namespace Sys2Proof.Machine

/-! ## Register writes -/

/-- A general register written reads as written, register 0 as zero (R27). -/
theorem readGpr_applyEffect_writeGpr (s : State) (r : Fin 32) (v : Word) :
    Regs.readGpr (s.applyEffect (.writeGpr r v)).regs r = if r = 0 then 0#32 else v := by
  split
  case isTrue h => subst h; exact readGpr_zero _
  case isFalse h => exact readGpr_writeGpr_self s.regs v h

/-- An FPU register written holds what was written (R29). -/
theorem fpr_applyEffect_writeFpr (s : State) (r : Fin 32) (v : Nat) :
    (s.applyEffect (.writeFpr r v)).regs.fpr[r] = v :=
  Vector.getElem_set_self r.isLt

/-- A COP0 register written reads as written (R32). -/
theorem cop0_read_writeCop0_self (g : Regs) (c : Cop0Reg) (v : Word) : Cop0.read (Regs.writeCop0 g c v).cop0 c = v := by
  cases c <;> rfl

/-! ## Stores -/

/-- A store reads back modulo its width, is snooped whatever the event-suppression flag says, and is recorded for
undo only without the flag (R12, R77, R215, R348). -/
theorem applyEffect_memWrite_spec (s : State) (h : Mem.wf s.mem = true) (a : Word) (w : Width) (v : BitVec 64) (q : Bool) :
    ((s.applyEffect (.memWrite a w v q)).memRead a w).toNat = v.toNat % 256 ^ w.bytes ∧
    (s.applyEffect (.memWrite a w v q)).cache = s.cache.snoopWrite a w.bytes ∧
    (q = true → (s.applyEffect (.memWrite a w v q)).deltas = s.deltas) ∧
    (q = false → s.setup.undoEnabled = true →
      (s.applyEffect (.memWrite a w v q)).deltas = .mem a w (s.memRead a w) :: s.deltas) := by
  refine ⟨memRead_portWrite s h a w v, ?_, ?_, ?_⟩
  · simp [State.applyEffect]
  · rintro rfl
    rfl
  · rintro rfl hu
    exact recorded_eq hu _

/-! ## Outside calls within a run (R71, R72) -/

/-- The calls of a gap land in the order they are made. -/
theorem outsideAll_eq_foldl (s : State) (cs : List OutsideCall) : s.outsideAll cs = cs.foldl State.outside s := by
  induction cs generalizing s with
  | nil => rfl
  | cons c cs ih => exact ih _

/-- After each effect the calls of one gap land; where there are some, the rest of the run is what the executable
makes of the state they left. -/
theorem runBatches_cons (next : Continue) (calls : List OutsideCall) (later : List (List OutsideCall))
    (done : List Effect) (seen : List View) (e : Effect) (es : List Effect) (c : Conclusion) (s : State) :
    State.runBatches next (calls :: later) done seen ⟨e :: es, c⟩ s =
      if calls = [] then State.runBatches next later (done ++ [e]) seen ⟨es, c⟩ (s.applyEffect e).gap
      else State.runBatches next later (done ++ [e]) ((s.applyEffect e).gap.view :: seen)
        (next (done ++ [e]) ((s.applyEffect e).gap.view :: seen)) (s.applyEffect e).gap := by
  cases calls <;> rfl

/-- An executable sees the general registers as they read. -/
theorem view_gpr (s : State) (r : Fin 32) : s.view.regs.gpr[r] = Regs.readGpr s.regs r := by
  by_cases h : r = 0
  · subst h
    exact Vector.getElem_set_self (by decide)
  · have hne : 0 ≠ r.val := fun h0 => h (Fin.ext h0.symm)
    calc s.view.regs.gpr[r] = s.regs.gpr[r] := Vector.getElem_set_ne (by decide) r.isLt hne
      _ = Regs.readGpr s.regs r := (if_neg h).symm

/-- Settles O20: each clause is the lemma about its effect, about the gap after it, or about the view. -/
theorem effectsHappen : Obligations.EffectsHappen := by
  intro s hwf
  refine ⟨readGpr_applyEffect_writeGpr s, fpr_applyEffect_writeFpr s, fun c v => cop0_read_writeCop0_self s.regs c v,
    fun _ => rfl, applyEffect_memWrite_spec s hwf, fun _ => rfl, fun _ => rfl, fun _ => ⟨rfl, rfl, rfl⟩, rfl, rfl,
    fun next rest h => runEffects_of_nil h next rest, fun _ _ => rfl, ?landing,
    rfl, rfl, rfl, rfl, rfl, rfl, rfl, view_gpr s, gap_of_nil, ?gap⟩
  case landing =>
    rintro next calls later done seen e es c u rfl
    exact runBatches_cons ..
  case gap =>
    intro cs later h
    rw [gap_of_cons h, outsideAll_eq_foldl]

end Sys2Proof.Machine
end

section
/-! The invariant holds at creation and at reset, and every step keeps it. -/

namespace Sys2Proof.Machine

/-! ## Creation and reset -/

/-- A created cache is empty, so it disagrees with no memory (R42). -/
theorem create_coherent (setup : Setup) (base limit : Word) (initial : Snapshot) :
    (State.create setup base limit initial).Coherent :=
  fun i e he => absurd he (create_entry base limit setup.initialEntries i e)

/-- Settles O29: the cache's part is the laws of a created cache; every set and record is empty, and the run is
idle. -/
theorem creationMeetsInvariant : Obligations.CreationMeetsInvariant := by
  intro setup base limit initial hAligned hOrder hFits hMem
  exact {
    memWf := hMem
    snapshotWf := hMem
    bounded := create_bounded base limit setup.initialEntries hOrder hFits hAligned
    endAddr := create_endInLastWord base limit setup.initialEntries hFits hAligned
    clearable := hFits
    coherent := create_coherent setup base limit initial
    sets := ⟨.nil, .nil, .nil, .nil⟩
    blocked := blockedOk_idle (by simp [State.create]) rfl
    undoDepth := Nat.le_refl 0 }

/-- Settles O30: reset is a creation whose parameters meet the premises of O29. -/
theorem resetMeetsInvariant : Obligations.ResetMeetsInvariant :=
  creationMeetsInvariant _ _ _ _ (by decide) (by decide) (by decide) (by decide)

/-! ## A step -/

/-- The invariant after an outcome: of the next state, and of the state a DecodeFailure leaves (R301).  A refusal
leaves no state. -/
def InvAfter (r : Result) : Prop :=
  (∀ t, r = .next t → t.Inv) ∧ (∀ pc raw t, r = .fault (.decodeFailure pc raw t) → t.Inv)

theorem invAfter_next {t : State} (h : t.Inv) : InvAfter (.next t) := by
  refine ⟨fun u hu => ?_, fun pc raw u hu => ?_⟩ <;> cases hu
  exact h

theorem invAfter_refused (r : Refusal) : InvAfter (.refused r) := by
  refine ⟨fun u hu => ?_, fun pc raw u hu => ?_⟩ <;> cases hu

/-- A cycle starts with no execute open, by the invariant where the worker is neither blocked nor FINISHED. -/
theorem invAfter_cycle {s : State} (h : s.Inv) (hb : s.runState ≠ .lockedOnInput) (hf : s.runState ≠ .finished)
    (single : Bool) : InvAfter (s.cycle single) :=
  inv_cycle h (h.executing_none hb hf) single

/-- A resumed execute is of a decoded record, whose `exec` always completes: no refusal and no fault. -/
theorem resume_next {s : State} (h : s.Inv) : ∃ t, s.resume = .next t := by
  unfold State.resume
  split
  · rename_i i _ hi
    rw [exec_of_encodable (encodable_of_wellFormed (h.blocked.2.2 i hi))]
    exact ⟨_, rfl⟩
  · exact ⟨s, rfl⟩

theorem invAfter_resume {s : State} (h : s.Inv) : InvAfter s.resume := by
  obtain ⟨t, ht⟩ := resume_next h
  rw [ht]
  exact invAfter_next (inv_resume h ht)

/-- The last report is no part of the invariant. -/
theorem inv_setReport {s : State} (h : s.Inv) (r : Option Report) : ({ s with report := r } : State).Inv := { h with }

/-- Neither are the calls that wait. -/
theorem inv_setCommands {s : State} (h : s.Inv) (cs : List Command) : ({ s with commands := cs } : State).Inv :=
  { h with }

/-- `runToCompletion()` from READY starts a run of an idle worker (R346). -/
theorem inv_startRun {s : State} (h : s.Inv) (hr : s.runState = .ready) :
    ({ s with runState := .running, singleStep := false } : State).Inv :=
  have hidle : s.executing = none := h.executing_none (by simp [hr]) (by simp [hr])
  { h with blocked := blockedOk_idle (by simp) hidle }

theorem inv_undoCycles {s : State} (h : s.Inv) (n : Nat) : (s.undoCycles n).Inv := by
  unfold State.undoCycles
  split
  · exact inv_undoLastStep h
  · exact inv_setReport h _

/-- Each of the controller's calls keeps the invariant (R344 to R349, R401, R428). -/
theorem invAfter_perform {s : State} (h : s.Inv) (c : Command) : InvAfter (s.perform c) := by
  cases c with
  | step =>
    rw [State.perform]
    split
    next hr => exact invAfter_cycle h (by simp [hr]) (by simp [hr]) true
    next => exact invAfter_next (inv_setReport h _)
  | runToCompletion =>
    rw [State.perform]
    split
    next hr => exact invAfter_next (inv_startRun h hr)
    next => exact invAfter_next (inv_setReport h _)
  | stop => exact invAfter_next (inv_stop h)
  | reset =>
    rw [State.perform]
    split
    · exact invAfter_next (inv_setCommands h _)
    · exact invAfter_next (inv_resetEngine h)
  | undo n =>
    rw [State.perform]
    split
    · exact invAfter_next (inv_setCommands h _)
    · exact invAfter_next (inv_undoCycles h n)
  | cancelBeforeCycle => exact invAfter_next h
  | outside c =>
    rw [State.perform]
    split
    · exact invAfter_resume (inv_outside h c)
    · exact invAfter_next (inv_outside h c)

/-- One step, a waiting call or else a part of the worker's run, keeps the invariant. -/
theorem invAfter_step {s : State} (h : s.Inv) : InvAfter (step s) := by
  unfold step
  split
  next c rest _ => exact invAfter_perform (inv_setCommands h rest) c
  next =>
    split
    next hr => exact invAfter_cycle h (by simp [hr]) (by simp [hr]) true
    next hr => exact invAfter_cycle h (by simp [hr]) (by simp [hr]) false
    next => exact invAfter_next h
    next => exact invAfter_refused _

/-- Settles O31: every call and every part of a cycle keeps the invariant, and so does a DecodeFailure. -/
theorem stepKeepsInvariant : Obligations.StepKeepsInvariant :=
  fun _ h => invAfter_step h

end Sys2Proof.Machine
end

section
/-! What a fetch gives after a write through the port, and after one that bypasses it. -/

namespace Sys2Proof.Machine

/-! ## The words a write touches -/

/-- The touched words are those that hold a stored byte (R210). -/
theorem mem_touchedWords_iff {a x : Word} {n : Nat} (h0 : 0 < n) (hn : n ≤ 2 ^ 32) :
    x ∈ touchedWords a n ↔ ∃ k < n, x = containingWord (a + BitVec.ofNat 32 k) := by
  refine ⟨exists_of_mem_touchedWords h0, ?_⟩
  rintro ⟨k, hk, rfl⟩
  exact containingWord_mem_touchedWords a hk hn

theorem containingWord_of_aligned {a : Word} (h4 : a.toNat % 4 = 0) : containingWord a = a :=
  BitVec.eq_of_toNat_eq (by rw [containingWord_toNat]; omega)

/-- A write of a width at a word address touches that word. -/
theorem mem_touchedWords_self {a : Word} (h4 : a.toNat % 4 = 0) (w : Width) : a ∈ touchedWords a w.bytes :=
  (mem_touchedWords_iff (Width.bytes_pos w) ((Width.bytes_le w).trans (by norm_num))).mpr
    ⟨0, Width.bytes_pos w, by rw [BitVec.add_zero, containingWord_of_aligned h4]⟩

/-- A snooped store brings the words it touches back in step. -/
theorem inStep_portWrite {s : State} {a pc : Word} {bs : List Byte} (h : pc ∈ touchedWords a bs.length) :
    (s.portWrite a bs).InStep pc := by
  simp [State.InStep, mem_snooped_next, mem_snooped_stale, h]

/-! ## A word written and decoded -/

/-- The port's word get is the low half of the zero-extended read (R12, R63). -/
theorem readWord_eq_setWidth_memRead (s : State) (a : Word) : s.readWord a = (s.memRead a .word).setWidth 32 :=
  (BitVec.setWidth_ofNat_of_le (by norm_num) _).symm

/-- A word stored through the port is the word read there. -/
theorem readWord_portWrite (s : State) (h : Mem.wf s.mem = true) (a w : Word) :
    (s.portWrite a (s.storedBytes .word (w.zeroExtend 64))).readWord a = w := by
  have hw := w.isLt
  apply BitVec.eq_of_toNat_eq
  rw [readWord_eq_setWidth_memRead, BitVec.toNat_setWidth, memRead_portWrite s h, BitVec.toNat_setWidth, Width.bytes]
  omega

/-- A decoded entry holds the word it was decoded from (R203). -/
theorem value_of_decodeRaw {table : DecodeTable} {pc raw : Word} {e : Entry} (h : decodeRaw table pc raw = .ok e) :
    e.raw.value = raw := by
  unfold decodeRaw at h
  split at h
  · cases h
  · split at h
    · cases h
    · cases h; rfl

/-- A word written through the port is in step and coherent, so its next fetch decodes it (R75). -/
theorem value_of_fetch_portWrite {s t : State} {pc w : Word} {e : Entry} (hinv : s.Inv) (h4 : pc.toNat % 4 = 0)
    (h : (s.portWrite pc (s.storedBytes .word (w.zeroExtend 64))).fetch pc = .fetched t e) : e.raw.value = w := by
  have hbounded : (s.portWrite pc (s.storedBytes .word (w.zeroExtend 64))).cache.Bounded :=
    snoopWrite_bounded hinv.bounded _ _
  have hcoherent := portWrite_coherent hinv.bounded hinv.memWf hinv.coherent pc _
    (storedBytes_length_le s .word (w.zeroExtend 64))
  have hstep : (s.portWrite pc (s.storedBytes .word (w.zeroExtend 64))).InStep pc :=
    inStep_portWrite (by rw [storedBytes_length]; exact mem_touchedWords_self h4 .word)
  rw [value_of_decodeRaw (fetch_fresh hbounded hcoherent hstep h), readWord_portWrite s hinv.memWf]

/-! ## A bypassing write (R423) -/

/-- A bypassing write frees the next fetch of the words that hold its bytes. -/
theorem mem_next_bypassWrite (s : State) (a : Word) (w : Width) (v : BitVec 64) (x : Word) :
    x ∈ (s.bypassWrite a (s.storedBytes w v)).unsynced.next ↔
      x ∈ s.unsynced.next ∨ ∃ k < w.bytes, x = containingWord (a + BitVec.ofNat 32 k) := by
  rw [bypassWrite_unsynced, storedBytes_length, mem_bypassed_next,
    mem_touchedWords_iff (Width.bytes_pos w) ((Width.bytes_le w).trans (by norm_num)), or_comm]

/-! ## The cases of a fetch, one equation each -/

/-- The cache covers the word at `pc` and has the entry `e` for it. -/
def ICache.Holds (c : ICache) (pc : Word) (e : Entry) : Prop :=
  c.inBounds pc = true ∧ c.entries[c.index pc]? = some (some e)

/-- A fill in bounds leaves its entry there (R202). -/
theorem holds_fill {c : ICache} {pc : Word} (hin : c.inBounds pc = true) (e : Entry) :
    (c.fill (c.index pc) e).Holds pc e := by
  have hlt : c.index pc < c.size := by
    simp only [ICache.inBounds, Bool.and_eq_true, decide_eq_true_eq] at hin
    exact hin.2
  exact ⟨by rw [fill_inBounds, hin], by rw [fill_index, fill_entry hlt]⟩

/-- The next fetch of a word a bypassing write touched decodes the free word. -/
theorem fetch_of_unsynced {s : State} {pc : Word} (h4 : pc.toNat % 4 = 0) (hu : pc ∈ s.unsynced.next) :
    s.fetch pc = s.fetchUnsynced pc := by
  simp [State.fetch, h4, hu]

theorem fetchUnsynced_of_ok {s : State} {pc : Word} {e : Entry}
    (h : decodeRaw s.setup.table pc (Config.unsyncedWord s.freeIndex pc) = .ok e) :
    s.fetchUnsynced pc = .fetched (s.freeFetched pc e) e := by
  simp only [State.fetchUnsynced, h]

theorem fetchUnsynced_of_error {s : State} {pc raw : Word}
    (h : decodeRaw s.setup.table pc (Config.unsyncedWord s.freeIndex pc) = .error raw) :
    s.fetchUnsynced pc = .failed raw := by
  simp only [State.fetchUnsynced, h]

/-- A hit gives the entry and changes nothing (R206). -/
theorem fetch_of_holds {s : State} {pc : Word} {e : Entry} (h4 : pc.toNat % 4 = 0) (hu : pc ∉ s.unsynced.next)
    (h : s.cache.Holds pc e) : s.fetch pc = .fetched s e := by
  obtain ⟨hin, he⟩ := h
  simp [State.fetch, h4, hu, hin, he]

/-- Out of bounds a fetch is memory's fresh decode, with nothing stored (R205). -/
theorem fetch_of_outOfBounds_ok {s : State} {pc : Word} {e : Entry} (h4 : pc.toNat % 4 = 0)
    (hu : pc ∉ s.unsynced.next) (hout : s.cache.inBounds pc = false) (he : s.freshDecode pc = .ok e) :
    s.fetch pc = .fetched s e := by
  simp [State.fetch, h4, hu, hout, he]

theorem fetch_of_outOfBounds_error {s : State} {pc raw : Word} (h4 : pc.toNat % 4 = 0)
    (hu : pc ∉ s.unsynced.next) (hout : s.cache.inBounds pc = false) (he : s.freshDecode pc = .error raw) :
    s.fetch pc = .failed raw := by
  simp [State.fetch, h4, hu, hout, he]

/-! ## What a fetch leaves for the next one -/

/-- After a fetch its word's next fetch is not free, and every other word's is as it was. -/
theorem mem_next_fetch {s t : State} {pc : Word} {e : Entry} (h : s.fetch pc = .fetched t e) (x : Word) :
    x ∈ t.unsynced.next ↔ x ∈ s.unsynced.next ∧ x ≠ pc := by
  obtain ⟨_, ⟨_, rfl, _⟩ | ⟨hu, hcase⟩⟩ := fetch_cases h
  · rw [freeFetched_unsynced, mem_fetched_next]
  · have hsame : t.unsynced = s.unsynced := by
      obtain ⟨rfl, _⟩ | ⟨rfl, _⟩ | ⟨rfl, _⟩ := hcase <;> rfl
    rw [hsame]
    exact ⟨fun hx => ⟨hx, fun heq => hu (heq ▸ hx)⟩, And.left⟩

/-- In bounds the cache holds the fetched entry from then on, whether hit, missed or free (R202, R206, R423). -/
theorem holds_fetch {s t : State} {pc : Word} {e : Entry} (h : s.fetch pc = .fetched t e)
    (hin : s.cache.inBounds pc = true) : t.cache.Holds pc e := by
  obtain ⟨_, ⟨_, rfl, _⟩ | ⟨_, ⟨rfl, _, he⟩ | ⟨_, hout, _⟩ | ⟨rfl, _⟩⟩⟩ := fetch_cases h
  · rw [freeFetched_cache, if_pos hin]
    exact holds_fill hin e
  · exact ⟨hin, he⟩
  · rw [hout] at hin
    cases hin
  · exact holds_fill hin e

/-- Out of bounds a fetch stores nothing and leaves no word stale (R205, R423). -/
theorem fetch_outOfBounds_frame {s t : State} {pc : Word} {e : Entry} (h : s.fetch pc = .fetched t e)
    (hout : s.cache.inBounds pc = false) : t.cache = s.cache ∧ t.unsynced.stale = s.unsynced.stale := by
  obtain ⟨_, ⟨_, rfl, _⟩ | ⟨_, ⟨_, hin, _⟩ | ⟨rfl, _⟩ | ⟨_, hin, _⟩⟩⟩ := fetch_cases h
  · simp [hout, OutOfStep.fetched]
  · rw [hout] at hin
    cases hin
  · exact ⟨rfl, rfl⟩
  · rw [hout] at hin
    cases hin

/-- A fetch changes no word's fresh decode. -/
theorem freshDecode_fetch {s t : State} {pc : Word} {e : Entry} (h : s.fetch pc = .fetched t e) (x : Word) :
    t.freshDecode x = s.freshDecode x := by
  rw [fetch_frame h]
  rfl

/-- Settles O26: a port write puts its word in step; a bypassing write frees exactly its words; and a fetch ends
its word's freedom, so that the next one is a hit in bounds and memory's decode out of bounds. -/
theorem writtenCodeIsFetched : Obligations.WrittenCodeIsFetched := by
  refine ⟨fun s t pc w e hinv h4 h => value_of_fetch_portWrite hinv h4 h, ?bypass, ?free, ?after⟩
  case bypass =>
    rintro s t a w v pc rfl
    exact ⟨rfl, rfl, rfl, mem_next_bypassWrite s a w v pc⟩
  case free =>
    intro s pc h4 hu
    rw [fetch_of_unsynced h4 hu]
    exact ⟨fun e he => ⟨s.freeFetched pc e, fetchUnsynced_of_ok he, rfl⟩, fun raw he => fetchUnsynced_of_error he⟩
  case after =>
    intro s t pc e h
    have h4 : pc.toNat % 4 = 0 := (fetch_cases h).1
    have hu : pc ∉ t.unsynced.next := fun hmem => ((mem_next_fetch h pc).mp hmem).2 rfl
    refine ⟨hu, fun x hx => by simp [mem_next_fetch h, hx], fun hin => fetch_of_holds h4 hu (holds_fetch h hin),
      fun hout => ?_⟩
    obtain ⟨hcache, hstale⟩ := fetch_outOfBounds_frame h hout
    have hout' : t.cache.inBounds pc = false := by rw [hcache, hout]
    rw [← freshDecode_fetch h pc]
    exact ⟨hcache, hstale, fun e' he => fetch_of_outOfBounds_ok h4 hu hout' he,
      fun raw he => fetch_of_outOfBounds_error h4 hu hout' he⟩

end Sys2Proof.Machine
end

section
/-! Decoding the word a well-formed record packs to gives the record back, layout by layout (R140, R141, R143), and
the accessors of such a word (R151, R160 to R162). -/

namespace Sys2Proof

@[simp] theorem below_eq_true {bound v : Int} : below bound v = true ↔ 0 ≤ v ∧ v < bound := by simp [below]

@[simp] theorem between_eq_true {lo hi v : Int} : between lo hi v = true ↔ lo ≤ v ∧ v ≤ hi := by simp [between]

/-- A signed field holds the one value of its range that has the field's bits (R11, R140). -/
theorem sfield_eq_of_emod_eq {w : Word} {n : Int} {hi lo : Nat} (h : hi - lo + 1 ≤ 32)
    (hw : (w.toNat : Int) / 2 ^ lo % 2 ^ (hi - lo + 1) = n % 2 ^ (hi - lo + 1))
    (hn : -(2 ^ (hi - lo)) ≤ n ∧ n < 2 ^ (hi - lo)) : sfield w hi lo = n := by
  have hp : (2 : Int) ^ (hi - lo + 1) = 2 * 2 ^ (hi - lo) := by ring
  rw [sfield_eq w hi lo h, hw, hp]
  rcases lt_or_ge n 0 with hneg | hpos
  · have hm : n % (2 * 2 ^ (hi - lo)) = n + 2 * 2 ^ (hi - lo) := by
      rw [← Int.add_emod_right, Int.emod_eq_of_lt] <;> omega
    rw [hm, if_neg] <;> omega
  · rw [Int.emod_eq_of_lt hpos (by omega), if_pos hn.2]

/-- A value is placed by its low bits alone (R141). -/
theorem place_congr {v n : Int} {hi lo : Nat} (h : hi < 32) (hl : lo ≤ hi)
    (hv : v % 2 ^ (hi - lo + 1) = n % 2 ^ (hi - lo + 1)) : place hi lo v = place hi lo n := by
  have hv' : ((place hi lo v).toNat : Int) = (place hi lo n).toNat := by
    rw [place_toNat hi lo v h hl, place_toNat hi lo n h hl, hv]
  exact BitVec.eq_of_toNat_eq (by exact_mod_cast hv')

/-! ## Decode after packing, one lemma for each layout (R163) -/

theorem decode_packR {a b c d e f : Int} (h : (Instr.r a b c d e f).wellFormed = true) :
    decode .r (packR a b c d e f) = .r a b c d e f := by
  simp only [Instr.wellFormed, Bool.and_eq_true, below_eq_true] at h
  simp only [decode, decodeR, ufield_eq, packR_toNat, Instr.r.injEq]
  omega

theorem decode_packI16 {a b c n : Int} (h : (Instr.i16 a b c n).wellFormed = true) :
    decode .i16 (packI16 a b c n) = .i16 a b c n := by
  simp only [Instr.wellFormed, Bool.and_eq_true, below_eq_true, between_eq_true] at h
  have hn : sfield (packI16 a b c n) 15 0 = n :=
    sfield_eq_of_emod_eq (by decide) (by rw [packI16_toNat]; omega) (by norm_num; omega)
  simp only [decode, decodeI16, hn, ufield_eq, packI16_toNat, Instr.i16.injEq, and_true]
  omega

theorem decode_packI21 {a b n : Int} (h : (Instr.i21 a b n).wellFormed = true) :
    decode .i21 (packI21 a b n) = .i21 a b n := by
  simp only [Instr.wellFormed, Bool.and_eq_true, below_eq_true, between_eq_true] at h
  have hn : sfield (packI21 a b n) 20 0 = n :=
    sfield_eq_of_emod_eq (by decide) (by rw [packI21_toNat]; omega) (by norm_num; omega)
  simp only [decode, decodeI21, hn, ufield_eq, packI21_toNat, Instr.i21.injEq, and_true]
  omega

theorem decode_packI26 {a n : Int} (h : (Instr.i26 a n).wellFormed = true) :
    decode .i26 (packI26 a n) = .i26 a n := by
  simp only [Instr.wellFormed, Bool.and_eq_true, below_eq_true, between_eq_true] at h
  have hn : sfield (packI26 a n) 25 0 = n :=
    sfield_eq_of_emod_eq (by decide) (by rw [packI26_toNat]; omega) (by omega)
  simp only [decode, decodeI26, hn, ufield_eq, packI26_toNat, Instr.i26.injEq, and_true]
  omega

theorem decode_packI9 {a b c o z f : Int} (h : (Instr.i9 a b c o z f).wellFormed = true) :
    decode .i9 (packI9 a b c o z f) = .i9 a b c o z f := by
  simp only [Instr.wellFormed, Bool.and_eq_true, below_eq_true] at h
  simp only [decode, decodeI9, ufield_eq, packI9_toNat, Instr.i9.injEq]
  omega

theorem decode_packRifpu {a b c d z : Int} (h : (Instr.rifpu a b c d z).wellFormed = true) :
    decode .rifpu (packRifpu a b c d z) = .rifpu a b c d z := by
  simp only [Instr.wellFormed, Bool.and_eq_true, below_eq_true] at h
  simp only [decode, decodeRifpu, ufield_eq, packRifpu_toNat, Instr.rifpu.injEq]
  omega

theorem decode_packPcrel19 {a b c n : Int} (h : (Instr.pcrel19 a b c n).wellFormed = true) :
    decode .pcrel19 (packPcrel19 a b c n) = .pcrel19 a b c n := by
  simp only [Instr.wellFormed, Bool.and_eq_true, below_eq_true, between_eq_true] at h
  have hn : sfield (packPcrel19 a b c n) 18 0 = n :=
    sfield_eq_of_emod_eq (by decide) (by rw [packPcrel19_toNat]; omega) (by norm_num; omega)
  simp only [decode, decodePcrel19, hn, ufield_eq, packPcrel19_toNat, Instr.pcrel19.injEq, and_true]
  omega

/-- R143 law 1 on the packed word: a well-formed record is what its word decodes to. -/
theorem decode_pack {i : Instr} (h : i.wellFormed = true) : decode i.format i.pack = i := by
  cases i with
  | r => exact decode_packR h
  | rsop => exact (Instr.rsop.injEq ..).mpr (Instr.r.inj (decode_packR h))
  | rfpu => exact (Instr.rfpu.injEq ..).mpr (Instr.r.inj (decode_packR h))
  | i16 => exact decode_packI16 h
  | ri => exact (Instr.ri.injEq ..).mpr (Instr.i16.inj (decode_packI16 h))
  | pcrel16 => exact (Instr.pcrel16.injEq ..).mpr (Instr.i16.inj (decode_packI16 h))
  | i21 => exact decode_packI21 h
  | i26 => exact decode_packI26 h
  | j => exact (Instr.j.injEq ..).mpr (Instr.i26.inj (decode_packI26 h))
  | i9 => exact decode_packI9 h
  | rifpu => exact decode_packRifpu h
  | pcrel19 => exact decode_packPcrel19 h

/-! ## The accessors of a packed word -/

theorem uimm_packI16 (a b c n : Int) : uimm (packI16 a b c n) = n % 65536 := by
  have hu : uimm (packI16 a b c n) = ufield (packI16 a b c n) 15 0 := rfl
  rw [hu, ufield_eq, packI16_toNat]
  omega

theorem rel_packI26 {a n : Int} (h : (Instr.i26 a n).wellFormed = true) : rel (packI26 a n) = n :=
  (Instr.i26.inj (decode_packI26 h)).2

/-- The signed reading of the I9 offset is two's complement at nine bits (R151). -/
theorem soffsetI9_packI9 {a b c o z f : Int} (h : (Instr.i9 a b c o z f).wellFormed = true) :
    soffsetI9 (packI9 a b c o z f) = if o < 256 then o else o - 512 := by
  simp only [Instr.wellFormed, Bool.and_eq_true, below_eq_true] at h
  refine sfield_eq_of_emod_eq (by decide) ?_ ?_
  · rw [packI9_toNat]; split <;> omega
  · split <;> omega

/-- Masking with `0xF0000000` keeps the pc's region of 2^28 bytes. -/
theorem toNat_and_regionMask (pc : Word) : (pc &&& 0xF0000000#32).toNat = pc.toNat / 2 ^ 28 * 2 ^ 28 := by
  have hbit : ∀ i < 32, (0xF0000000#32).getLsbD i = decide (28 ≤ i) := by decide
  have hshift : pc &&& 0xF0000000#32 = (pc >>> 28) <<< 28 := by
    refine BitVec.eq_of_getLsbD_eq fun i hi => ?_
    rw [BitVec.getLsbD_and, hbit i hi, BitVec.getLsbD_shiftLeft, BitVec.getLsbD_ushiftRight]
    by_cases h : 28 ≤ i
    · simp [h, hi, show ¬ i < 28 by omega]
    · simp [h, show i < 28 by omega]
  have := pc.isLt
  rw [hshift, BitVec.toNat_shiftLeft, BitVec.toNat_ushiftRight, Nat.shiftRight_eq_div_pow, Nat.shiftLeft_eq]
  exact Nat.mod_eq_of_lt (by omega)

/-- R160: the pc's region, and in it the field times four plus four, the carry out of bit 27 dropped. -/
theorem absTarget_toNat (w pc : Word) :
    (absTarget w pc).toNat = pc.toNat / 2 ^ 28 * 2 ^ 28 + (w.toNat % 2 ^ 26 * 4 + 4) % 2 ^ 28 := by
  have h26 (x : Nat) : x &&& 0x3FFFFFF = x % 2 ^ 26 := Nat.and_two_pow_sub_one_eq_mod x 26
  have h28 (x : Nat) : x &&& 0x0FFFFFFF = x % 2 ^ 28 := Nat.and_two_pow_sub_one_eq_mod x 28
  have hfield : ((((w &&& 0x3FFFFFF#32) <<< 2) + 4#32) &&& 0x0FFFFFFF#32).toNat =
      (w.toNat % 2 ^ 26 * 4 + 4) % 2 ^ 28 := by
    simp [h26, h28, Nat.shiftLeft_eq]
  rw [absTarget, BitVec.toNat_or, toNat_and_regionMask, hfield, Nat.mul_comm,
    ← Nat.two_pow_add_eq_or_of_lt (Nat.mod_lt _ (by decide))]

end Sys2Proof
end

section
/-! The obligations on the twelve formats: each instruction in range runs its executable with the operands its
record names, which are those of the record its word decodes to. -/

namespace Sys2Proof.Machine

/-! ## The operands of a packed word -/

/-- The register operands a record names, in the table order of its format (R116). -/
def registersOf (i : Instr) : List (FieldName × RegRef) :=
  (i.format.fields.zip i.values).filterMap fun (f, v) => (regRef f.name v).map fun r => (f.name, r)

/-- The register operands of a word are those of the record it decodes to. -/
theorem regOperands_eq (F : Format) (w : Word) : regOperands F w = registersOf (decode F w) := by
  cases F <;> rfl

theorem plainOperands_pack {i : Instr} (h : i.wellFormed = true) (pc : Word) :
    plainOperands i.format i.pack pc = ⟨i, i.pack, pc, registersOf i, none, none, none, none⟩ := by
  rw [plainOperands, regOperands_eq, decode_pack h]

/-! ## Running an instruction in either spelling of its signed field -/

/-- A record in the range of `encode`, and the well-formed record of its format with the same word (R143 law 2). -/
structure Spells (i j : Instr) : Prop where
  encodable  : i.encodable = true
  wellFormed : j.wellFormed = true
  format     : i.format = j.format
  pack       : i.pack = j.pack

theorem Spells.refl {i : Instr} (h : i.wellFormed = true) : Spells i i := ⟨encodable_of_wellFormed h, h, rfl, rfl⟩

/-- An instruction runs with the operands its format makes of the word of the record it spells. -/
theorem exec_of_spells {i j : Instr} (h : Spells i j) (s : State) :
    exec i s = .next (s.runExecutable i (operandsOf j.format j.pack s.regs.pc)) := by
  rw [exec_of_encodable h.encodable, h.format, h.pack]

/-- A format without accessors hands over the fields and the registers alone. -/
theorem exec_plain {i j : Instr} {w : Word} (h : Spells i j) (hw : j.pack = w)
    (hop : operandsOf j.format = plainOperands j.format) (s : State) :
    exec i s = .next (s.runExecutable i ⟨j, w, s.regs.pc, registersOf j, none, none, none, none⟩) := by
  rw [exec_of_spells h, hop, plainOperands_pack h.wellFormed, hw]

theorem exec_immediate {i j : Instr} {w : Word} (h : Spells i j) (hw : j.pack = w)
    (hop : operandsOf j.format = immediateOperands j.format) {u : Int} (hu : uimm w = u) (s : State) :
    exec i s = .next (s.runExecutable i ⟨j, w, s.regs.pc, registersOf j, some u, none, none, none⟩) := by
  rw [exec_of_spells h, hop, immediateOperands, plainOperands_pack h.wellFormed, hw, hu]

theorem exec_jump {i j : Instr} {w : Word} (h : Spells i j) (hw : j.pack = w)
    (hop : operandsOf j.format = jumpOperands j.format) {n : Int} (hn : rel w = n) (s : State) :
    exec i s = .next (s.runExecutable i
      ⟨j, w, s.regs.pc, registersOf j, none, some n, some (absTarget w s.regs.pc), none⟩) := by
  rw [exec_of_spells h, hop, jumpOperands, plainOperands_pack h.wellFormed, hw, hn]

theorem exec_offset {i j : Instr} {w : Word} (h : Spells i j) (hw : j.pack = w) (hf : j.format = .i9) {o : Int}
    (ho : soffsetI9 w = o) (s : State) :
    exec i s = .next (s.runExecutable i ⟨j, w, s.regs.pc, registersOf j, none, none, none, some o⟩) := by
  rw [exec_of_spells h, hf, operandsOf, offsetOperands, ← hf, plainOperands_pack h.wellFormed, hw, ho]

/-! ## The two spellings of a signed field, one lemma for each layout -/

theorem spells_i16 {a b c v n : Int} (hn : (Instr.i16 a b c n).wellFormed = true)
    (hv : v = n ∨ v = n + 65536 ∧ n < 0) : Spells (.i16 a b c v) (.i16 a b c n) where
  wellFormed := hn
  encodable := by
    simp only [Instr.wellFormed, Instr.encodable, Bool.and_eq_true, below_eq_true, between_eq_true] at hn ⊢
    omega
  format := rfl
  pack := by
    have hp : place 15 0 v = place 15 0 n := place_congr (by decide) (by decide) (by omega)
    rw [Instr.pack, Instr.pack, packI16, packI16, hp]

theorem spells_i21 {a b v n : Int} (hn : (Instr.i21 a b n).wellFormed = true)
    (hv : v = n ∨ v = n + 2097152 ∧ n < 0) : Spells (.i21 a b v) (.i21 a b n) where
  wellFormed := hn
  encodable := by
    simp only [Instr.wellFormed, Instr.encodable, Bool.and_eq_true, below_eq_true, between_eq_true] at hn ⊢
    omega
  format := rfl
  pack := by
    have hp : place 20 0 v = place 20 0 n := place_congr (by decide) (by decide) (by omega)
    rw [Instr.pack, Instr.pack, packI21, packI21, hp]

theorem spells_i26 {a v n : Int} (hn : (Instr.i26 a n).wellFormed = true)
    (hv : v = n ∨ v = n + 67108864 ∧ n < 0) : Spells (.i26 a v) (.i26 a n) where
  wellFormed := hn
  encodable := by
    simp only [Instr.wellFormed, Instr.encodable, Bool.and_eq_true, below_eq_true, between_eq_true] at hn ⊢
    omega
  format := rfl
  pack := by
    have hp : place 25 0 v = place 25 0 n := place_congr (by decide) (by decide) (by omega)
    rw [Instr.pack, Instr.pack, packI26, packI26, hp]

theorem spells_pcrel19 {a b c v n : Int} (hn : (Instr.pcrel19 a b c n).wellFormed = true)
    (hv : v = n ∨ v = n + 524288 ∧ n < 0) : Spells (.pcrel19 a b c v) (.pcrel19 a b c n) where
  wellFormed := hn
  encodable := by
    simp only [Instr.wellFormed, Instr.encodable, Bool.and_eq_true, below_eq_true, between_eq_true] at hn ⊢
    omega
  format := rfl
  pack := by
    have hp : place 18 0 v = place 18 0 n := place_congr (by decide) (by decide) (by omega)
    rw [Instr.pack, Instr.pack, packPcrel19, packPcrel19, hp]

/-! ## The obligations -/

/-- Settles O12: the three formats have one layout and no accessor. -/
theorem registerFormatsRun : Obligations.RegisterFormatsRun := by
  intro a b c d e f s ha ha' hb hb' hc hc' hd hd' he he' hf hf'
  have h : (Instr.r a b c d e f).wellFormed = true := by simp [Instr.wellFormed, *]
  exact ⟨packR a b c d e f, by rw [packR_toNat]; omega,
    exec_plain (.refl h) rfl rfl s,
    exec_plain (.refl (i := .rsop a b c d e f) h) rfl rfl s,
    exec_plain (.refl (i := .rfpu a b c d e f) h) rfl rfl s⟩

/-- Settles O13: the three formats have one layout, and the low half of its word is both the field and the unsigned
immediate. -/
theorem sixteenBitFormatsRun : Obligations.SixteenBitFormatsRun := by
  intro a b c v n s ha ha' hb hb' hc hc' hn hn' hv
  have h : Spells (.i16 a b c v) (.i16 a b c n) := spells_i16 (by simp [Instr.wellFormed, *]; omega) hv
  have hri : Spells (.ri a b c v) (.ri a b c n) := ⟨h.encodable, h.wellFormed, rfl, h.pack⟩
  have hpcrel : Spells (.pcrel16 a b c v) (.pcrel16 a b c n) := ⟨h.encodable, h.wellFormed, rfl, h.pack⟩
  have hu := uimm_packI16 a b c n
  exact ⟨packI16 a b c n, by rw [packI16_toNat]; omega,
    exec_immediate h rfl rfl hu s, exec_immediate hri rfl rfl hu s, exec_immediate hpcrel rfl rfl hu s⟩

/-- Settles O14: neither format has an accessor, so the immediate is the field, unscaled. -/
theorem wideImmediateFormatsRun : Obligations.WideImmediateFormatsRun := by
  constructor
  · intro a b v n s ha ha' hb hb' hn hn' hv
    have h : Spells (.i21 a b v) (.i21 a b n) := spells_i21 (by simp [Instr.wellFormed, *]; omega) hv
    exact ⟨packI21 a b n, by rw [packI21_toNat]; omega, exec_plain h rfl rfl s⟩
  · intro a b c v n s ha ha' hb hb' hc hc' hn hn' hv
    have h : Spells (.pcrel19 a b c v) (.pcrel19 a b c n) := spells_pcrel19 (by simp [Instr.wellFormed, *]; omega) hv
    exact ⟨packPcrel19 a b c n, by rw [packPcrel19_toNat]; omega, exec_plain h rfl rfl s⟩

/-- Settles O15: I26 and J have one layout; the target's low bits depend on the field modulo 2^26 alone. -/
theorem jumpFormatsRun : Obligations.JumpFormatsRun := by
  intro a v n s ha ha' hn hn' hv
  have h : Spells (.i26 a v) (.i26 a n) := spells_i26 (by simp [Instr.wellFormed, *]; omega) hv
  have hj : Spells (.j a v) (.j a n) := ⟨h.encodable, h.wellFormed, rfl, h.pack⟩
  have hword := packI26_toNat a n
  have htarget := absTarget_toNat (packI26 a n) s.regs.pc
  have hrel := rel_packI26 h.wellFormed
  exact ⟨packI26 a n, absTarget (packI26 a n) s.regs.pc, by omega, by omega,
    exec_jump h rfl rfl hrel s, exec_jump hj rfl rfl hrel s⟩

/-- Settles O16: the signed reading of the offset stands beside the unsigned field. -/
theorem offsetFormatRuns : Obligations.OffsetFormatRuns := by
  intro a b c o z f s ha ha' hb hb' hc hc' ho ho' hz hz' hf hf'
  have h : (Instr.i9 a b c o z f).wellFormed = true := by simp [Instr.wellFormed, *]
  exact ⟨packI9 a b c o z f, by rw [packI9_toNat]; omega, exec_offset (.refl h) rfl rfl (soffsetI9_packI9 h) s⟩

/-- Settles O17: RIFPU has no accessor, and its eleven low bits are a field. -/
theorem fpuMoveFormatRuns : Obligations.FpuMoveFormatRuns := by
  intro a b c d z s ha ha' hb hb' hc hc' hd hd' hz hz'
  have h : (Instr.rifpu a b c d z).wellFormed = true := by simp [Instr.wellFormed, *]
  exact ⟨packRifpu a b c d z, by rw [packRifpu_toNat]; omega, exec_plain (.refl h) rfl rfl s⟩

end Sys2Proof.Machine
end

section
/-! The codec by its formats' tables: what a row decodes to, what it packs to and when `encode` refuses it, and by
induction over the rows the same of a record (R101, R140 to R142); and the obligations that follow. -/

namespace Sys2Proof

/-! ## The tables -/

theorem decode_values (F : Format) (w : Word) : (decode F w).values = F.fields.map (·.decode w) := by
  cases F <;> rfl

theorem length_values (i : Instr) : i.values.length = i.format.fields.length := by cases i <;> rfl

theorem pack_eq_packFields (i : Instr) : i.pack = packFields i.format.fields i.values := by
  cases i <;> simp [Instr.pack, packR, packRsop, packI16, packI21, packI26, packJ, packI9, packRfpu, packRifpu, packRi,
    packPcrel16, packPcrel19, Instr.format, Format.fields, Instr.values, packFields, BitVec.or_assoc]

/-- R101: every field lies in the word. -/
theorem fields_inWord (F : Format) : ∀ f ∈ F.fields, f.lo ≤ f.hi ∧ f.hi < 32 := by
  cases F <;> decide

/-- R101: each field lies below the ones before it, so no two overlap. -/
theorem fields_descend (F : Format) : F.fields.Pairwise fun f g => g.hi < f.lo := by
  cases F <;> decide

/-! ## The range check (R142) -/

theorem Field.inRange_iff (f : Field) (v : Int) :
    f.inRange v = true ↔ (if f.kind = .s then -(2 ^ (f.width - 1)) else (0 : Int)) ≤ v ∧ v ≤ 2 ^ f.width - 1 := by
  unfold Field.inRange
  cases f.kind <;> simp

/-- The check passes when every field that has a value is in its range. -/
theorem firstOutOfRange_eq_none_iff (F : Format) (fs : List Field) (vs : List Int) :
    firstOutOfRange F fs vs = none ↔
      ∀ (k : Nat) (f : Field) (v : Int), fs[k]? = some f → vs[k]? = some v → f.inRange v = true := by
  induction fs generalizing vs with
  | nil => simp [firstOutOfRange]
  | cons f fs ih =>
    cases vs with
    | nil => simp [firstOutOfRange]
    | cons v vs =>
      rw [firstOutOfRange_cons, ih]
      constructor
      · rintro ⟨hv, hvs⟩ (_ | k) g x hg hx
        · cases hg; cases hx; exact hv
        · exact hvs k g x hg hx
      · intro h
        exact ⟨h 0 f v rfl rfl, fun k => h (k + 1)⟩

/-- The check names a field outside its range. -/
theorem of_firstOutOfRange_eq_some {F : Format} {fs : List Field} {vs : List Int} {e : CodecFieldRange}
    (h : firstOutOfRange F fs vs = some e) :
    e.format = F ∧ ∃ (k : Nat) (f : Field),
      fs[k]? = some f ∧ vs[k]? = some e.value ∧ f.name = e.field ∧ ¬ f.inRange e.value = true := by
  induction fs generalizing vs with
  | nil => simp [firstOutOfRange] at h
  | cons f fs ih =>
    cases vs with
    | nil => simp [firstOutOfRange] at h
    | cons v vs =>
      rw [firstOutOfRange] at h
      split at h
      case isTrue =>
        obtain ⟨hF, k, hk⟩ := ih h
        exact ⟨hF, k + 1, hk⟩
      case isFalse hv =>
        cases h
        exact ⟨rfl, 0, f, rfl, rfl, rfl, hv⟩

theorem encode_eq_ok_iff (i : Instr) (w : Word) :
    encode i = .ok w ↔ firstOutOfRange i.format i.format.fields i.values = none ∧ i.pack = w := by
  unfold encode
  cases firstOutOfRange i.format i.format.fields i.values <;> simp

theorem encode_eq_error_iff (i : Instr) (e : CodecFieldRange) :
    encode i = .error e ↔ firstOutOfRange i.format i.format.fields i.values = some e := by
  unfold encode
  cases firstOutOfRange i.format i.format.fields i.values <;> simp

/-! ## Packing (R141) -/

/-- Two spellings of the fields pack to one word. -/
theorem packFields_congr {fs : List Field} {vs vs' : List Int} (hw : ∀ f ∈ fs, f.lo ≤ f.hi ∧ f.hi < 32)
    (hl : vs.length = fs.length) (hl' : vs'.length = fs.length)
    (h : ∀ (k : Nat) (f : Field) (v v' : Int), fs[k]? = some f → vs[k]? = some v → vs'[k]? = some v' →
      v % 2 ^ f.width = v' % 2 ^ f.width) :
    packFields fs vs = packFields fs vs' := by
  induction fs generalizing vs vs' with
  | nil => rfl
  | cons f fs ih =>
    obtain ⟨v, vs, rfl⟩ := List.exists_cons_of_length_eq_add_one hl
    obtain ⟨v', vs', rfl⟩ := List.exists_cons_of_length_eq_add_one hl'
    obtain ⟨hf, hfs⟩ := List.forall_mem_cons.mp hw
    rw [packFields, packFields, place_congr hf.2 hf.1 (h 0 f v v' rfl rfl rfl),
      ih hfs (Nat.succ.inj hl) (Nat.succ.inj hl') fun k => h (k + 1)]

/-- Fields below bit `n` pack to a number below `2 ^ n`. -/
theorem packFields_lt {fs : List Field} {n : Nat} (hn : n ≤ 32) (h : ∀ f ∈ fs, f.lo ≤ f.hi ∧ f.hi < n) (vs : List Int) :
    (packFields fs vs).toNat < 2 ^ n := by
  induction fs generalizing vs with
  | nil => exact Nat.two_pow_pos n
  | cons f fs ih =>
    cases vs with
    | nil => exact Nat.two_pow_pos n
    | cons v vs =>
      obtain ⟨⟨hl, hlt⟩, hfs⟩ := List.forall_mem_cons.mp h
      have hplace : (place f.hi f.lo v).toNat < 2 ^ n :=
        (place_lt f.hi f.lo v (by omega) hl).trans_le (Nat.pow_le_pow_right (by decide) hlt)
      rw [packFields, BitVec.toNat_or]
      exact Nat.or_lt_two_pow hplace (ih hfs vs)

/-- The OR of fields that do not overlap is their sum. -/
theorem packFields_toNat {fs : List Field} (hd : fs.Pairwise fun f g => g.hi < f.lo)
    (hw : ∀ f ∈ fs, f.lo ≤ f.hi ∧ f.hi < 32) (vs : List Int) :
    ((packFields fs vs).toNat : Int) =
      (List.zipWith (fun (f : Field) (v : Int) => v % 2 ^ f.width * 2 ^ f.lo) fs vs).sum := by
  induction fs generalizing vs with
  | nil => rfl
  | cons f fs ih =>
    cases vs with
    | nil => rfl
    | cons v vs =>
      obtain ⟨⟨hl, hlt⟩, hfs⟩ := List.forall_mem_cons.mp hw
      obtain ⟨hbelow, hd⟩ := List.pairwise_cons.mp hd
      have hplace := place_toNat f.hi f.lo v hlt hl
      have hrest : (packFields fs vs).toNat < 2 ^ f.lo :=
        packFields_lt (by omega) (fun g hg => ⟨(hfs g hg).1, hbelow g hg⟩) vs
      obtain ⟨q, hq⟩ : 2 ^ f.lo ∣ (place f.hi f.lo v).toNat :=
        Int.natCast_dvd_natCast.mp (hplace ▸ by push_cast; exact Int.dvd_mul_left ..)
      have hor : (packFields (f :: fs) (v :: vs)).toNat = (place f.hi f.lo v).toNat + (packFields fs vs).toNat := by
        rw [packFields, BitVec.toNat_or, hq, Nat.two_pow_add_eq_or_of_lt hrest]
      rw [hor, Int.natCast_add, hplace, ih hd hfs, List.zipWith_cons_cons, List.sum_cons]
      rfl

/-! ## Decoding and packing again -/

/-- A field decodes to its bits, less two to its width where it is signed and its top bit is set (R11, R140). -/
theorem Field.decode_eq {f : Field} (h : f.width ≤ 32) (w : Word) :
    f.decode w = if f.kind = .s ∧ 2 ^ (f.width - 1) ≤ fieldBits w f.hi f.lo
      then (fieldBits w f.hi f.lo : Int) - 2 ^ f.width else (fieldBits w f.hi f.lo : Int) := by
  unfold Field.decode
  cases f.kind with
  | u => simp [ufield, zext]
  | z => simp [ufield, zext]
  | s =>
    rw [sfield, sext_eq (Nat.le_add_left ..) h (fieldBits_lt ..)]
    simp only [true_and, ← Nat.not_lt, ite_not]
    rfl

theorem Field.width_le {f : Field} (hw : f.lo ≤ f.hi ∧ f.hi < 32) : f.width ≤ 32 := by
  unfold Field.width; omega

/-- Both readings of a field have the field's bits. -/
theorem Field.decode_emod {f : Field} (h : f.width ≤ 32) (w : Word) :
    f.decode w % 2 ^ f.width = fieldBits w f.hi f.lo := by
  have hlt : (fieldBits w f.hi f.lo : Int) < 2 ^ f.width := by exact_mod_cast fieldBits_lt w f.hi f.lo
  have hmod : (fieldBits w f.hi f.lo : Int) % 2 ^ f.width = fieldBits w f.hi f.lo :=
    Int.emod_eq_of_lt (Int.natCast_nonneg _) hlt
  rw [Field.decode_eq h]
  split
  · rw [Int.sub_emod_right, hmod]
  · exact hmod

/-- A decoded field goes back to the bits it came from. -/
theorem place_decode {f : Field} (h : f.lo ≤ f.hi ∧ f.hi < 32) (w : Word) :
    place f.hi f.lo (f.decode w) = w &&& (maskBits f.width <<< f.lo) := by
  have hbits : place f.hi f.lo (f.decode w) = place f.hi f.lo ((w >>> f.lo).toNat : Int) := by
    refine place_congr h.2 h.1 ((Field.decode_emod (Field.width_le h) w).trans ?_)
    rw [BitVec.toNat_ushiftRight, fieldBits]
    push_cast
    rfl
  rw [hbits, place, BitVec.ofInt_natCast, BitVec.ofNat_toNat, BitVec.setWidth_eq, BitVec.shiftLeft_and_distrib]
  refine BitVec.eq_of_getLsbD_eq fun i hi => ?_
  simp only [BitVec.getLsbD_and, BitVec.getLsbD_shiftLeft, BitVec.getLsbD_ushiftRight, hi]
  by_cases hlo : i < f.lo
  · simp [hlo]
  · simp [hlo, Nat.add_sub_cancel' (Nat.le_of_not_lt hlo), Field.width]

/-- The bits of a word that fields cover. -/
def coverage : List Field → Word
  | [] => 0
  | f :: fs => (maskBits f.width <<< f.lo) ||| coverage fs

/-- R101: the fields of a format cover the word. -/
theorem coverage_fields (F : Format) : coverage F.fields = BitVec.allOnes 32 := by
  cases F <;> decide

theorem packFields_decode {fs : List Field} (hw : ∀ f ∈ fs, f.lo ≤ f.hi ∧ f.hi < 32) (w : Word) :
    packFields fs (fs.map (·.decode w)) = w &&& coverage fs := by
  induction fs with
  | nil => simp [packFields, coverage]
  | cons f fs ih =>
    obtain ⟨hf, hfs⟩ := List.forall_mem_cons.mp hw
    rw [List.map_cons, packFields, place_decode hf, ih hfs, coverage, BitVec.and_or_distrib_left]

/-- R143 law 3 on the packing: a word is what its decoding packs to. -/
theorem pack_decode (F : Format) (w : Word) : (decode F w).pack = w := by
  rw [pack_eq_packFields, decode_values, decode_format, packFields_decode (fields_inWord F), coverage_fields,
    BitVec.and_allOnes]

/-- R143 law 3: a decoded record is well formed, so it encodes, to the word it came from. -/
theorem encode_decode (F : Format) (w : Word) : encode (decode F w) = .ok w := by
  rw [encode_of_encodable (encodable_of_wellFormed (decode_wellFormed F w)), pack_decode]

/-! ## The obligations -/

/-- Settles O1, by evaluation: the words are the spec's examples. -/
theorem specWordsDecode : Obligations.SpecWordsDecode := by
  unfold Obligations.SpecWordsDecode
  decide

/-- Settles O2: a well-formed record passes the range check, and decodes from the word it packs to. -/
theorem decodeEncodeRoundTrip : Obligations.DecodeEncodeRoundTrip := fun i h =>
  ⟨i.pack, encode_of_encodable (encodable_of_wellFormed h), decode_pack h⟩

/-- Settles O4: a decoded record encodes to the word it came from, so the word is known from it. -/
theorem encodeDecodeRoundTrip : Obligations.EncodeDecodeRoundTrip := by
  refine ⟨encode_decode, fun F w w' h => Except.ok.inj (ε := CodecFieldRange) ?_⟩
  calc .ok w = encode (decode F w) := (encode_decode F w).symm
    _ = encode (decode F w') := by rw [h]
    _ = .ok w' := encode_decode F w'

/-- Settles O5, row by row of the format's table. -/
theorem decodeFollowsTheTables : Obligations.DecodeFollowsTheTables := by
  refine fun F w => ⟨decode_format F w, (decode_values F w).trans (List.map_congr_left fun f hf => ?_)⟩
  rw [Field.decode_eq (Field.width_le (fields_inWord F f hf)), fieldBits_eq]
  rfl

/-- Settles O6: the range check passes, and the fields of a format do not overlap. -/
theorem encodePlacesTheFields : Obligations.EncodePlacesTheFields := by
  intro i h
  simp only [← Field.inRange_iff] at h
  exact ⟨(encode_eq_ok_iff i _).mpr ⟨(firstOutOfRange_eq_none_iff ..).mpr h, pack_eq_packFields i⟩,
    packFields_toNat (fields_descend _) (fields_inWord _) _⟩

/-- Settles O7: the range check row by row, and packing, which reads a field modulo two to its width. -/
theorem encodeChecksEveryRange : Obligations.EncodeChecksEveryRange := by
  unfold Obligations.EncodeChecksEveryRange
  simp only [← Field.inRange_iff]
  refine ⟨fun i => ⟨?word, fun e he => of_firstOutOfRange_eq_some ((encode_eq_error_iff i e).mp he)⟩, ?spellings⟩
  case word => simp [encode_eq_ok_iff, firstOutOfRange_eq_none_iff]
  case spellings =>
    intro i j w w' hij hi hj h
    obtain ⟨-, rfl⟩ := (encode_eq_ok_iff i w).mp hi
    obtain ⟨-, rfl⟩ := (encode_eq_ok_iff j w').mp hj
    rw [pack_eq_packFields, pack_eq_packFields, ← hij]
    exact packFields_congr (fields_inWord _) (length_values i) (hij ▸ length_values j) h

/-- Settles O8: `absTarget_toNat` is the formula, from which the multiple of four and the dropped carry follow. -/
theorem absoluteTarget : Obligations.AbsoluteTarget := by
  refine ⟨fun w pc => ⟨absTarget_toNat w pc, ?_⟩, fun w pc hw => BitVec.eq_of_toNat_eq ?_, by decide⟩
  · rw [absTarget_toNat]; omega
  · rw [absTarget_toNat, toNat_and_regionMask, hw]; norm_num

/-- Settles O10: the formats of each group have the same rows but for the names. -/
theorem formatsShareBoundaries : Obligations.FormatsShareBoundaries := fun _ => ⟨rfl, rfl, rfl, rfl, rfl⟩

/-- Settles O11: `rel` is the signed field itself, `uimm` its bits, and `soffset` the other reading of an unsigned
field. -/
theorem accessorsAgreeWithFields : Obligations.AccessorsAgreeWithFields := by
  refine ⟨fun w => ?_, by decide, by decide⟩
  have huimm : uimm w = sfield w 15 0 % 65536 :=
    (Field.decode_emod (f := ⟨.imm, 15, 0, .s⟩) (by decide) w).symm
  have hsoffset : soffsetI9 w = if ufield w 15 7 < 256 then ufield w 15 7 else ufield w 15 7 - 512 := by
    rw [ufield_eq]; exact sfield_eq w 15 7 (by decide)
  refine ⟨⟨_, rfl⟩, ⟨_, rfl⟩, ?_, ⟨_, _, _, _, rfl, huimm⟩, ⟨_, _, _, _, rfl, huimm⟩, ⟨_, _, _, _, rfl, huimm⟩,
    ⟨_, _, _, _, _, _, rfl, hsoffset⟩⟩
  simp [uimm, zext, fieldBits_eq]

end Sys2Proof
end

section
/-! The obligation on the two spellings of a signed field. -/

namespace Sys2Proof.Machine

/-- R143 law 2 for a spelling. -/
theorem encode_of_spells {i j : Instr} (h : Spells i j) :
    encode i = encode j ∧ ∃ w, encode i = .ok w ∧ decode j.format w = j := by
  have hi : encode i = .ok j.pack := by rw [encode_of_encodable h.encodable, h.pack]
  have hj : encode j = .ok j.pack := encode_of_encodable (encodable_of_wellFormed h.wellFormed)
  exact ⟨hi.trans hj.symm, j.pack, hi, decode_pack h.wellFormed⟩

/-- RI and PCREL16 have the layout of I16 (R163). -/
theorem spells_ri {a b c v n : Int} (h : Spells (.i16 a b c v) (.i16 a b c n)) : Spells (.ri a b c v) (.ri a b c n) :=
  ⟨h.encodable, h.wellFormed, rfl, h.pack⟩

theorem spells_pcrel16 {a b c v n : Int} (h : Spells (.i16 a b c v) (.i16 a b c n)) :
    Spells (.pcrel16 a b c v) (.pcrel16 a b c n) :=
  ⟨h.encodable, h.wellFormed, rfl, h.pack⟩

/-- J has the layout of I26 (R163). -/
theorem spells_j {a v n : Int} (h : Spells (.i26 a v) (.i26 a n)) : Spells (.j a v) (.j a n) :=
  ⟨h.encodable, h.wellFormed, rfl, h.pack⟩

/-- Settles O3: in the upper half of the unsigned range, `v` spells `v` less two to the width. -/
theorem unsignedSpellingDecodesSigned : Obligations.UnsignedSpellingDecodesSigned := by
  refine ⟨?i16, ?i21, ?i26, ?j, ?ri, ?pcrel16, ?pcrel19⟩
  case i16 => exact fun _ _ _ v h _ _ => encode_of_spells (spells_i16 h (by omega))
  case i21 => exact fun _ _ v h _ _ => encode_of_spells (spells_i21 h (by omega))
  case i26 => exact fun _ v h _ _ => encode_of_spells (spells_i26 h (by omega))
  case j => exact fun _ v h _ _ => encode_of_spells (spells_j (spells_i26 h (by omega)))
  case ri => exact fun _ _ _ v h _ _ => encode_of_spells (spells_ri (spells_i16 h (by omega)))
  case pcrel16 => exact fun _ _ _ v h _ _ => encode_of_spells (spells_pcrel16 (spells_i16 h (by omega)))
  case pcrel19 => exact fun _ _ _ v h _ _ => encode_of_spells (spells_pcrel19 h (by omega))

end Sys2Proof.Machine
end

section
/-! The frame of an instruction: what its landed effects leave alone, and how its run ends (R144, R330, R345, R349). -/

namespace Sys2Proof.Machine

/-! ## What effects leave alone -/

theorem foldl_applyEffect_field {α : Type} (f : State → α) (he : ∀ s e, f (s.applyEffect e) = f s) (s : State)
    (es : List Effect) : f (es.foldl State.applyEffect s) = f s :=
  foldl_applyEffect_induct (P := fun u => f u = f s) (fun u h e => (he u e).trans h) rfl es

theorem applyEffect_unsynced (s : State) (e : Effect) (h : ∀ a w v q, e ≠ .memWrite a w v q) :
    (s.applyEffect e).unsynced = s.unsynced := by
  cases e with
  | memWrite a w v q => exact absurd rfl (h a w v q)
  | _ => simp [State.applyEffect]

/-- No effect reads the free-value counter. -/
theorem applyEffect_setFreeIndex (s : State) (n : Nat) (e : Effect) :
    ({ s with freeIndex := n } : State).applyEffect e = { s.applyEffect e with freeIndex := n } := by
  cases e with
  | exceptionReturn =>
    simp only [State.applyEffect, State.returnFromException]
    split <;> rfl
  | _ => rfl

theorem foldl_applyEffect_setFreeIndex (s : State) (n : Nat) (es : List Effect) :
    es.foldl State.applyEffect { s with freeIndex := n } = { es.foldl State.applyEffect s with freeIndex := n } := by
  induction es generalizing s with
  | nil => rfl
  | cons e es ih => rw [List.foldl_cons, applyEffect_setFreeIndex, ih, List.foldl_cons]

/-! What a list of effects leaves alone when none of them names it. -/

section
variable {s : State} (hw : Mem.wf s.mem = true) {es : List Effect}
include hw

theorem foldl_applyEffect_readGpr {r : Fin 32} (h : ∀ v, Effect.writeGpr r v ∉ es) :
    Regs.readGpr (es.foldl State.applyEffect s).regs r = Regs.readGpr s.regs r :=
  applyEffects_frame (fun u => Regs.readGpr u.regs r) (fun e => ∀ v, e ≠ .writeGpr r v)
    (fun u e _ => applyEffect_readGpr u e r) hw es fun _ he v hv => h v (hv ▸ he)

theorem foldl_applyEffect_fpr {r : Fin 32} (h : ∀ v, Effect.writeFpr r v ∉ es) :
    (es.foldl State.applyEffect s).regs.fpr[r] = s.regs.fpr[r] :=
  applyEffects_frame (fun u => u.regs.fpr[r]) (fun e => ∀ v, e ≠ .writeFpr r v)
    (fun u e _ => applyEffect_fpr u e r) hw es fun _ he v hv => h v (hv ▸ he)

theorem foldl_applyEffect_cop0 {c : Cop0Reg} (h : ∀ e ∈ es, e.writesCop0 c = false) :
    Cop0.read (es.foldl State.applyEffect s).regs.cop0 c = Cop0.read s.regs.cop0 c :=
  applyEffects_frame (fun u => Cop0.read u.regs.cop0 c) (fun e => e.writesCop0 c = false)
    (fun u e _ => applyEffect_cop0 u e c) hw es h

theorem foldl_applyEffect_pc (h : ∀ e ∈ es, e.writesPc = false) :
    (es.foldl State.applyEffect s).regs.pc = s.regs.pc :=
  applyEffects_frame (fun u => u.regs.pc) (fun e => e.writesPc = false) (fun u e _ => applyEffect_pc u e) hw es h

theorem foldl_applyEffect_readByte {y : Nat} (h : ∀ e ∈ es, ¬ e.storesAt y) :
    Mem.readByte (es.foldl State.applyEffect s).mem y = Mem.readByte s.mem y :=
  applyEffects_frame (fun u => Mem.readByte u.mem y) (fun e => ¬ e.storesAt y)
    (fun _ e hu => applyEffect_readByte hu e y) hw es h

/-- With no store the cache and the words out of step stay. -/
theorem foldl_applyEffect_cache (h : ∀ a w v q, Effect.memWrite a w v q ∉ es) :
    (es.foldl State.applyEffect s).cache = s.cache ∧ (es.foldl State.applyEffect s).unsynced = s.unsynced := by
  have frame {α : Type} (f : State → α)
      (hf : ∀ u e, (∀ a w v q, e ≠ .memWrite a w v q) → f (u.applyEffect e) = f u) :=
    applyEffects_frame f (fun e => ∀ a w v q, e ≠ .memWrite a w v q) (fun u e _ => hf u e) hw es
      fun e he a w v q hv => h a w v q (hv ▸ he)
  exact ⟨frame _ applyEffect_cache, frame _ applyEffect_unsynced⟩

theorem foldl_applyEffect_nextInDelaySlot (h : ∀ b, Effect.setNextInDelaySlot b ∉ es) :
    (es.foldl State.applyEffect s).nextInDelaySlot = s.nextInDelaySlot :=
  applyEffects_frame State.nextInDelaySlot (fun e => ∀ b, e ≠ .setNextInDelaySlot b)
    (fun u e _ => applyEffect_nextInDelaySlot u e) hw es fun _ he b hb => h b (hb ▸ he)

theorem foldl_applyEffect_swPending (h : ∀ q, Effect.requestSoftware q ∉ es) :
    (es.foldl State.applyEffect s).swPending = s.swPending :=
  applyEffects_frame State.swPending (fun e => ∀ q, e ≠ .requestSoftware q)
    (fun u e _ => applyEffect_swPending u e) hw es fun _ he q hq => h q (hq ▸ he)

/-- With no exit requested the exit code and the run state stay. -/
theorem foldl_applyEffect_end (h : ∀ c, Effect.requestExit c ∉ es) :
    (es.foldl State.applyEffect s).exitCode = s.exitCode ∧ (es.foldl State.applyEffect s).runState = s.runState := by
  have frame {α : Type} (f : State → α) (hf : ∀ u e, (∀ c, e ≠ .requestExit c) → f (u.applyEffect e) = f u) :=
    applyEffects_frame f (fun e => ∀ c, e ≠ .requestExit c) (fun u e _ => hf u e) hw es fun e he c hc => h c (hc ▸ he)
  exact ⟨frame _ fun u e he => (applyEffect_end u e he).1, frame _ fun u e he => (applyEffect_end u e he).2⟩

end

/-! ## How a run ends -/

/-- The end of a run whose landed effects have made `u`: its conclusion, or the wait for input (R345, R349). -/
def State.endRun (u : State) (i : Instr) : Ending → State
  | .completed k => u.conclude i (.completed k)
  | .needsInput => { u with runState := .lockedOnInput, executing := some i }
  | .raised k b => u.conclude i (.raised k b)

/-- The end of a run writes the engine's own fields alone. -/
theorem endRun_frame (u : State) (i : Instr) (x : Ending) :
    ∃ run item queue report, u.endRun i x =
      { u with runState := run, executing := item, inputQueue := queue, report := report } := by
  cases x <;> exact ⟨_, _, _, _, rfl⟩

/-- With no outside call to come, a run lands its effects and ends. -/
theorem settle_eq_endRun {s : State} (hs : s.interleaved = []) (i : Instr) (next : Continue) (x : Execution) :
    s.settle i next x = (x.landed.foldl State.applyEffect s).endRun i x.ending := by
  rw [Execution.landed]
  cases hx : x.ending with
  | needsInput => rw [State.settle, hx]; rfl
  | completed k => exact settle_of_nil hs i next (by rw [hx]; rfl)
  | raised k b => exact settle_of_nil hs i next (by rw [hx]; rfl)

theorem exec_eq_endRun {i : Instr} {s t : State} (hs : s.interleaved = []) (h : exec i s = .next t) {x : Execution}
    (hx : x = s.execution (operandsOf i.format i.pack s.regs.pc)) :
    t = ({ x.landed.foldl State.applyEffect s with freeIndex := s.freeIndex + 1 } : State).endRun i x.ending := by
  rcases exec_cases i s with ⟨_, he⟩ | ⟨_, e, _, he⟩ <;> rw [he] at h <;> cases h
  rw [State.runExecutable, ← hx, settle_eq_endRun (by exact hs), foldl_applyEffect_setFreeIndex]

theorem landed_of_completed {x : Execution} {k : Nat} (h : x.ending = .completed k) : x.landed = x.effects := by
  rw [Execution.landed, h]

/-- With outside calls to come, a run that has begun lands with them and concludes. -/
theorem exec_eq_conclude {i : Instr} {s t : State} {c : Conclusion} (h : exec i s = .next t) {ops : Operands}
    (ho : ops = operandsOf i.format i.pack s.regs.pc) (hc : (s.execution ops).ending.conclusion = some c)
    {r : State × Conclusion} (hr : r = ({ s with freeIndex := s.freeIndex + 1 } : State).runEffects
      (s.continuation ops) ⟨(s.execution ops).effects, c⟩) :
    t = r.1.conclude i r.2 := by
  rcases exec_cases i s with ⟨_, he⟩ | ⟨_, e, _, he⟩ <;> rw [he] at h <;> cases h
  rw [State.runExecutable, ← ho, State.settle, hc, hr]

/-- With no outside call to come, what each ending leaves in the engine's own fields. -/
theorem exec_endings {i : Instr} {s t : State} (hs : s.interleaved = []) (h : exec i s = .next t) {x : Execution}
    (hx : x = s.execution (operandsOf i.format i.pack s.regs.pc)) :
    (∀ k, x.ending = .completed k → t.executing = none ∧ t.inputQueue = s.inputQueue.drop k ∧ t.report = s.report ∧
      t.runState = (x.effects.foldl State.applyEffect s).runState) ∧
    (x.ending = .needsInput →
      t = { s with runState := .lockedOnInput, executing := some i, freeIndex := s.freeIndex + 1 }) ∧
    (∀ k b, x.ending = .raised k b → t.executing = some i ∧ t.inputQueue = s.inputQueue.drop k ∧
      t.runState = (if b then .finished else .ready) ∧ t.report = some .workerException) := by
  have ht := exec_eq_endRun hs h hx
  have hinput := foldl_applyEffect_field State.inputQueue applyEffect_inputQueue s x.effects
  have hreport := foldl_applyEffect_field State.report applyEffect_report s x.effects
  rw [Execution.landed] at ht
  refine ⟨fun k hk => ?completed, fun hk => ?needsInput, fun k b hk => ?raised⟩ <;> rw [hk] at ht <;> subst ht
  case completed => exact ⟨rfl, congrArg (List.drop k) hinput, hreport, rfl⟩
  case needsInput => rfl
  case raised => exact ⟨rfl, congrArg (List.drop k) hinput, rfl, rfl⟩

/-- With no outside call to come, every field but the engine's own is as the landed effects leave it. -/
theorem exec_landed {i : Instr} {s t : State} (hs : s.interleaved = []) (h : exec i s = .next t) :
    ∃ run item queue report, t =
      { (s.execution (operandsOf i.format i.pack s.regs.pc)).landed.foldl State.applyEffect s with
        freeIndex := s.freeIndex + 1, runState := run, executing := item, inputQueue := queue, report := report } := by
  rw [exec_eq_endRun hs h rfl]
  exact endRun_frame ..

/-- Settles O19: each field a kind of effect writes is framed by that kind; the engine's own fields are given by
`exec_endings`; and with outside calls to come the state is that of the run, concluded. -/
theorem execFrame : Obligations.ExecFrame := by
  constructor
  case left =>
    intro i s t hw hs h
    obtain ⟨hcompleted, hblocked, hraised⟩ := exec_endings hs h rfl
    obtain ⟨run, item, queue, report, rfl⟩ := exec_landed hs h
    have unchanged {α : Type} (f : State → α) (he : ∀ s e, f (s.applyEffect e) = f s) :=
      foldl_applyEffect_field f he s (s.execution (operandsOf i.format i.pack s.regs.pc)).landed
    refine ⟨_, _, rfl, rfl, rfl, rfl, rfl, rfl, rfl, rfl, rfl, rfl, fun _ => foldl_applyEffect_readGpr hw, rfl,
      fun _ => foldl_applyEffect_fpr hw, fun _ => foldl_applyEffect_cop0 hw, foldl_applyEffect_pc hw,
      fun _ => foldl_applyEffect_readByte hw, foldl_applyEffect_cache hw, foldl_applyEffect_nextInDelaySlot hw,
      foldl_applyEffect_swPending hw, fun hc => (foldl_applyEffect_end hw hc).1,
      unchanged (·.cache.textBase) fun s e => (applyEffect_textBase s e).1,
      unchanged (·.cache.textLimit) fun s e => (applyEffect_textBase s e).2, unchanged _ applyEffect_setup,
      unchanged _ applyEffect_snapshot, unchanged _ applyEffect_hwPending, unchanged _ applyEffect_cycles,
      unchanged _ applyEffect_execTime, unchanged _ applyEffect_breakpoints, unchanged _ applyEffect_undoLog,
      unchanged _ applyEffect_memoryLevels, unchanged _ applyEffect_singleStep, unchanged _ applyEffect_openEntry,
      unchanged _ applyEffect_commands, (unchanged _ applyEffect_interleaved).trans hs, rfl, fun k hk => ?_,
      hblocked, hraised⟩
    obtain ⟨hexecuting, hinput, hreport, hrun⟩ := hcompleted k hk
    exact ⟨hexecuting, hinput, hreport, by rwa [landed_of_completed hk],
      fun hc => hrun.trans (foldl_applyEffect_end hw hc).2⟩
  case right =>
    rintro i s t ops x c r h ho rfl hc hr
    rw [exec_eq_conclude h ho hc hr]
    refine ⟨conclude_regs .., conclude_mem .., conclude_cache .., conclude_unsynced .., conclude_swPending ..,
      conclude_hwPending .., conclude_nextInDelaySlot .., conclude_exitCode .., conclude_deltas .., conclude_breakpoints ..,
      conclude_memoryLevels .., conclude_interleaved .., fun k hk => ?completed, fun k b hk => ?raised⟩ <;> rw [hk]
    case completed => exact ⟨rfl, rfl, rfl⟩
    case raised => exact ⟨rfl, rfl, rfl⟩

end Sys2Proof.Machine
end

section
/-! The instruction cache: which entries a snoop empties, how it grows the array, the cases of a fetch, what undo's
snoop and a `clear()` leave. -/

namespace Sys2Proof.Machine

/-! ## The words of a write and their bytes (R218) -/

/-- A word holds exactly the four bytes from its address on. -/
theorem containingWord_eq_iff {x y : Word} (h4 : y.toNat % 4 = 0) :
    containingWord x = y ↔ ∃ j < 4, x = y + BitVec.ofNat 32 j := by
  have hx := x.isLt
  have hy := y.isLt
  constructor
  · intro h
    have hv : x.toNat / 4 * 4 = y.toNat := by rw [← containingWord_toNat, h]
    refine ⟨x.toNat % 4, by omega, BitVec.eq_of_toNat_eq ?_⟩
    rw [BitVec.toNat_add, BitVec.toNat_ofNat]
    omega
  · rintro ⟨j, hj, rfl⟩
    apply BitVec.eq_of_toNat_eq
    rw [containingWord_toNat, BitVec.toNat_add, BitVec.toNat_ofNat]
    omega

/-- The covered words are word addresses (R23). -/
theorem entryAddr_aligned {c : ICache} (h : c.Bounded) {i : Nat} (hi : i < c.size) : (c.entryAddr i).toNat % 4 = 0 := by
  obtain ⟨hv, _⟩ := entryAddr_spec h hi
  obtain ⟨h4, _⟩ := h
  omega

/-- A text word with an index in the array is the word of that entry (R23). -/
theorem entryAddr_index_of_isText {c : ICache} (h : c.Bounded) {wa : Word} (h4 : wa.toNat % 4 = 0)
    (ht : c.isText wa = true) (hi : c.index wa < c.size) : c.entryAddr (c.index wa) = wa := by
  simp only [ICache.isText, decide_eq_true_eq] at ht
  exact entryAddr_index h h4 (by simp [ICache.inBounds, ht.1, hi])

/-- A write touches a covered word exactly when one of its bytes is a byte of the word. -/
theorem entryAddr_mem_touchedWords_iff {c : ICache} (h : c.Bounded) {i : Nat} (hi : i < c.size) (a : Word) (w : Width) :
    c.entryAddr i ∈ touchedWords a w.bytes ↔
      ∃ k < w.bytes, ∃ j < 4, a + BitVec.ofNat 32 k = c.entryAddr i + BitVec.ofNat 32 j := by
  simp only [mem_touchedWords_iff (Width.bytes_pos w) ((Width.bytes_le w).trans (by norm_num)),
    eq_comm (a := c.entryAddr i), containingWord_eq_iff (entryAddr_aligned h hi)]

/-- A covered entry is filled after a snoop when it was filled and its word is not touched. -/
theorem snoopWrite_entry_iff {c : ICache} (h : c.Bounded) {i : Nat} (hi : i < c.size) (a : Word) (n : Nat) (e : Entry) :
    (c.snoopWrite a n).entries[i]? = some (some e) ↔
      c.entries[i]? = some (some e) ∧ c.entryAddr i ∉ touchedWords a n := by
  constructor
  · intro hs
    obtain ⟨hold, hno⟩ := snoopWrite_entry hs
    exact ⟨hold, fun hmem => hno _ hmem (entryAddr_spec h hi).2⟩
  · rintro ⟨hold, hno⟩
    refine snoopWrite_keeps hold fun wa hwa ⟨ht, hidx⟩ => hno ?_
    subst hidx
    rwa [entryAddr_index_of_isText h (touchedWords_aligned hwa) ht hi]

/-- Settles O22: an entry stays when its word is not touched, and a word is touched by its bytes. -/
theorem snoopEmptiesExactlyTheTouchedEntries : Obligations.SnoopEmptiesExactlyTheTouchedEntries := by
  intro c a w i e hb hi
  rw [snoopWrite_entry_iff hb hi, entryAddr_mem_touchedWords_iff hb hi]
  push Not
  rfl

/-! ## Growth (R211) -/

/-- A growth for an index beyond the end makes the array end there. -/
theorem grow_size {c : ICache} {i : Nat} (h : c.size ≤ i) (a : Word) : (c.grow i a).size = i + 1 := by
  simp only [ICache.size, ICache.grow, List.length_append, List.length_replicate] at h ⊢
  omega

/-- A growth keeps the entries there are. -/
theorem grow_entries_old {c : ICache} {i k : Nat} (hk : k < c.size) (a : Word) :
    (c.grow i a).entries[k]? = c.entries[k]? :=
  List.getElem?_append_left hk

/-- A growth adds empty entries. -/
theorem grow_entries_new {c : ICache} {i k : Nat} (hk : c.size ≤ k) (hki : k ≤ i) (a : Word) :
    (c.grow i a).entries[k]? = some none := by
  rw [ICache.grow, List.getElem?_append_right hk, List.getElem?_replicate, if_pos]
  unfold ICache.size at hk ⊢
  omega

/-- The snoop of a text word at or beyond the array's end grows the array for it. -/
theorem snoopWord_of_beyond {c : ICache} {a wa : Word} (ht : c.isText wa = true) (hi : c.size ≤ c.index wa) :
    c.snoopWord a wa = c.grow (c.index wa) (growthEnd a wa) := by
  simp [ICache.snoopWord, ht, hi]

/-- The snoop of a covered word leaves the array's size. -/
theorem snoopWord_size_of_covered {c : ICache} {a wa : Word} (hi : c.index wa < c.size) :
    (c.snoopWord a wa).size = c.size := by
  rcases snoopWord_cases c a wa with ⟨_, heq⟩ | ⟨_, _, heq⟩ | ⟨_, hge, _⟩
  · rw [heq]
  · rw [heq]; exact List.length_set
  · omega

/-- The snoop of a word below `textBase` or at or above `textLimit` changes nothing (R212). -/
theorem snoopWord_of_not_text {c : ICache} {a wa : Word} (ht : c.isText wa = false) : c.snoopWord a wa = c := by
  simp [ICache.snoopWord, ht]

/-- The snoop of a word leaves which words are text. -/
theorem snoopWord_isText (c : ICache) (a wa x : Word) : (c.snoopWord a wa).isText x = c.isText x := by
  simp [ICache.isText]

/-- The snoop of a word leaves where text words' entries are. -/
theorem snoopWord_index (c : ICache) (a wa x : Word) : (c.snoopWord a wa).index x = c.index x := by
  simp [ICache.index]

/-- A write that stays in its first word touches that word. -/
theorem touchedWords_of_le_four {a : Word} {n : Nat} (h0 : 0 < n) (h : a.toNat % 4 + n ≤ 4) :
    touchedWords a n = [containingWord a] := by
  have hcount : (a.toNat % 4 + n + 3) / 4 = 1 := by omega
  simp [touchedWords, hcount]

/-- A write that crosses into its second word and no further touches the two, in this order. -/
theorem touchedWords_of_le_eight {a : Word} {n : Nat} (h4 : 4 < a.toNat % 4 + n) (h8 : a.toNat % 4 + n ≤ 8) :
    touchedWords a n = [containingWord a, containingWord a + 4#32] := by
  have hcount : (a.toNat % 4 + n + 3) / 4 = 2 := by omega
  simp [touchedWords, hcount, List.range_succ]

/-- The boundary moves to the write address for the word that contains it. -/
theorem growthEnd_containingWord (a : Word) : growthEnd a (containingWord a) = a := if_pos rfl

/-- The boundary moves to the second word itself for the second word of a write. -/
theorem growthEnd_secondWord (a : Word) : growthEnd a (containingWord a + 4#32) = containingWord a + 4#32 :=
  if_neg (by simp)

/-- The word after a text word, short of the wrap, has the next index. -/
theorem index_add_four {c : ICache} {wa : Word} (ht : c.isText wa = true) (h : wa.toNat + 4 < 2 ^ 32) :
    c.index (wa + 4#32) = c.index wa + 1 := by
  simp only [ICache.isText, decide_eq_true_eq] at ht
  simp only [ICache.index, Nat.shiftRight_eq_div_pow, BitVec.toNat_add, BitVec.toNat_ofNat]
  omega

/-- After the snoop of the first word of a write the array does not cover a second word that it did not cover before. -/
theorem snoopWord_size_le_index {c : ICache} {a wa : Word}
    (h : c.isText wa = false ∨ c.index wa < c.size ∨ wa.toNat + 4 < 2 ^ 32) (hi : c.size ≤ c.index (wa + 4#32)) :
    (c.snoopWord a wa).size ≤ c.index (wa + 4#32) := by
  by_cases ht : c.isText wa = true
  case neg => rwa [snoopWord_of_not_text (by simpa using ht)]
  by_cases hlt : c.index wa < c.size
  · rwa [snoopWord_size_of_covered hlt]
  · have hwrap : wa.toNat + 4 < 2 ^ 32 := by simpa [ht, hlt] using h
    rw [snoopWord_of_beyond ht (by omega), grow_size (by omega), index_add_four ht hwrap]

/-- Settles O23: a write within one word is one snooped word, a crossing one is two, and the last grows the array. -/
theorem snoopGrowsPastTheEnd : Obligations.SnoopGrowsPastTheEnd := by
  refine ⟨fun c a w h4 ht hi => ?within, fun c a w _ h4 h8 hfirst ht hi => ?crossing⟩
  case within =>
    have hsnoop : c.snoopWrite a w.bytes = c.grow (c.index (containingWord a)) a := by
      rw [ICache.snoopWrite, touchedWords_of_le_four (Width.bytes_pos w) h4, List.foldl_cons, List.foldl_nil,
        snoopWord_of_beyond ht hi, growthEnd_containingWord]
    rw [hsnoop]
    exact ⟨grow_size hi a, rfl, fun k hk => grow_entries_old hk a, fun k hk hki => grow_entries_new hk hki a⟩
  case crossing =>
    have hsnoop : c.snoopWrite a w.bytes =
        (c.snoopWord a (containingWord a)).snoopWord a (containingWord a + 4#32) := by
      rw [ICache.snoopWrite, touchedWords_of_le_eight h4 h8, List.foldl_cons, List.foldl_cons, List.foldl_nil]
    have hcover : (c.snoopWord a (containingWord a)).size ≤ c.index (containingWord a + 4#32) := by
      refine snoopWord_size_le_index (hfirst.imp_right (Or.imp_right fun h => ?_)) hi
      rw [containingWord_toNat]
      omega
    rw [hsnoop, snoopWord_of_beyond (by rwa [snoopWord_isText]) (by rwa [snoopWord_index]), snoopWord_index,
      growthEnd_secondWord]
    exact ⟨grow_size hcover _, rfl⟩

/-! ## Memory outside the text segment (R212) -/

theorem isText_eq_false_iff {c : ICache} {wa : Word} :
    c.isText wa = false ↔ wa.toNat < c.textBase.toNat ∨ c.textLimit.toNat ≤ wa.toNat := by
  simp only [ICache.isText, decide_eq_false_iff_not]
  omega

/-- A write that touches no text word changes nothing in the cache. -/
theorem snoopWrite_of_not_text {c : ICache} {a : Word} {n : Nat} (h : ∀ wa ∈ touchedWords a n, c.isText wa = false) :
    c.snoopWrite a n = c :=
  snoopFold_induct (P := (· = c)) a _ (fun c' wa hwa hc => by subst hc; exact snoopWord_of_not_text (h wa hwa)) c rfl

/-- Settles O24: every touched word holds a byte of the write, and outside the text segment its snoop does nothing. -/
theorem snoopIgnoresOtherMemory : Obligations.SnoopIgnoresOtherMemory := by
  refine ⟨fun c a wa h => snoopWord_of_not_text (isText_eq_false_iff.mpr h), fun c a w h => ?_⟩
  refine snoopWrite_of_not_text fun wa hwa => ?_
  obtain ⟨k, hk, rfl⟩ := exists_of_mem_touchedWords (Width.bytes_pos w) hwa
  exact isText_eq_false_iff.mpr (h k hk)

/-! ## Fetch -/

/-- Settles O25: in a coherent cache a fetch succeeds, and fails, exactly where the fresh decode does. -/
theorem fetchEqualsFreshDecode : Obligations.FetchEqualsFreshDecode := by
  intro s pc hinv h4 hstep
  refine ⟨fun e => ⟨fun he => ?_, fun ⟨t, h⟩ => fetch_fresh hinv.bounded hinv.coherent hstep h⟩,
    fun raw => ⟨fetch_of_failed hinv.bounded hinv.coherent h4 hstep, fun h => ?_⟩⟩
  · obtain ⟨c, _, h⟩ := fetch_of_fresh hinv.bounded hinv.coherent h4 hstep he
    exact ⟨_, h⟩
  · obtain ⟨_, _, hfree | hfailed⟩ := fetch_failed h
    · exact absurd hfree hstep.1
    · exact hfailed

theorem fetch_of_misaligned {s : State} {pc : Word} (h : pc.toNat % 4 ≠ 0) : s.fetch pc = .misaligned := if_pos h

/-- A miss fills the entry with the fresh decode (R202). -/
theorem fetch_of_miss_ok {s : State} {pc : Word} {e : Entry} (h4 : pc.toNat % 4 = 0) (hu : pc ∉ s.unsynced.next)
    (hin : s.cache.inBounds pc = true) (hempty : s.cache.entries[s.cache.index pc]? = some none)
    (he : s.freshDecode pc = .ok e) :
    s.fetch pc = .fetched { s with cache := s.cache.fill (s.cache.index pc) e } e := by
  simp [State.fetch, h4, hu, hin, hempty, he]

/-- A miss whose fresh decode fails stores nothing (R202). -/
theorem fetch_of_miss_error {s : State} {pc raw : Word} (h4 : pc.toNat % 4 = 0) (hu : pc ∉ s.unsynced.next)
    (hin : s.cache.inBounds pc = true) (hempty : s.cache.entries[s.cache.index pc]? = some none)
    (he : s.freshDecode pc = .error raw) : s.fetch pc = .failed raw := by
  simp [State.fetch, h4, hu, hin, hempty, he]

theorem inBounds_iff {c : ICache} {pc : Word} :
    c.inBounds pc = true ↔ c.textBase.toNat ≤ pc.toNat ∧ (pc.toNat - c.textBase.toNat) / 4 < c.size := by
  simp [ICache.inBounds, ICache.index, Nat.shiftRight_eq_div_pow]

/-- Settles O27: one equation of `fetch` for each case. -/
theorem fetchCases : Obligations.FetchCases := by
  intro s pc hu
  exact ⟨fetch_of_misaligned, inBounds_iff, fun h4 hout _ he => fetch_of_outOfBounds_ok h4 hu hout he,
    fun h4 hout _ he => fetch_of_outOfBounds_error h4 hu hout he, fun h4 hin _ he => fetch_of_holds h4 hu ⟨hin, he⟩,
    fun h4 hin hempty _ he => fetch_of_miss_ok h4 hu hin hempty he,
    fun h4 hin hempty _ he => fetch_of_miss_error h4 hu hin hempty he⟩

/-! ## Undo (R214) -/

/-- A memory change taken back is snooped. -/
theorem undoDelta_mem_cache (s : State) (a : Word) (w : Width) (old : BitVec 64) :
    (s.undoDelta (.mem a w old)).cache = s.cache.snoopWrite a w.bytes := by
  rw [State.undoDelta, portWrite_cache, storedBytes_length]

/-- One change taken back never shrinks the array: only a memory change acts on the cache. -/
theorem undoDelta_size (s : State) (d : Delta) : s.cache.size ≤ (s.undoDelta d).cache.size := by
  cases d with
  | mem a w old =>
    rw [undoDelta_mem_cache]
    exact snoopWrite_size ..
  | _ => exact le_rfl

theorem undoDeltas_size (s : State) (ds : List Delta) : s.cache.size ≤ (s.undoDeltas ds).cache.size := by
  induction ds generalizing s with
  | nil => exact le_rfl
  | cons d ds ih => exact (undoDelta_size s d).trans (ih _)

theorem undoLastStep_size (s : State) : s.cache.size ≤ s.undoLastStep.cache.size := by
  unfold State.undoLastStep
  split
  · exact undoDeltas_size ..
  · exact le_rfl

/-- Settles O56: a memory change taken back is a write through the port, and no snoop shrinks the array. -/
theorem undoIsSnooped : Obligations.UndoIsSnooped :=
  ⟨fun s a w old => ⟨undoDelta_mem_cache s a w old, fun h => memRead_portWrite s h a w old⟩, undoLastStep_size⟩

/-! ## Clear and caches-reset (R213, R402) -/

theorem clear_size (c : ICache) (n : Nat) : (c.clear n).size = n := List.length_replicate

theorem clear_entries (c : ICache) {n i : Nat} (h : i < n) : (c.clear n).entries[i]? = some none :=
  List.getElem?_replicate_of_lt h

/-- Settles O28: a clear is a creation on the same bounds, and a caches-reset is that clear with every level reset. -/
theorem clearRestoresCreation : Obligations.ClearRestoresCreation := by
  refine ⟨fun c n => ⟨clear_size c n, fun i hi => clear_entries c hi, rfl, rfl, rfl⟩, fun s => ?_⟩
  refine ⟨s.cachesReset, rfl, rfl, ?names, ?resets, rfl, rfl, rfl, rfl⟩ <;>
    simp [State.cachesReset, Function.comp_def]

end Sys2Proof.Machine
end

section
/-! Where `exec` is refused, and what a trap entry leaves: the fields of Status and Cause, EPC, BadVAddr, the vector, the
end of the run at a zero word, and everything else unchanged (R302, R310 to R318). -/

namespace Sys2Proof.Machine

/-- Settles O18: on a record that encodes `exec` completes, and on any other it is refused with `encode`'s error. -/
theorem execRefusesOnlyOutOfRange : Obligations.ExecRefusesOnlyOutOfRange := by
  intro i s
  rcases exec_cases i s with ⟨hok, hnext⟩ | ⟨_, e, herror, hrefused⟩
  · rw [hnext, encode_of_encodable hok]
    simp
  · rw [hrefused, herror]
    simp

/-! ## The cause word of an entry (R311, R312) -/

/-- A level written to Cause leaves ExcCode. -/
theorem causeExcCode_setCauseLevel (c : Word) (l : Fin 64) : causeExcCode (setCauseLevel c l) = causeExcCode c := by
  refine BitVec.eq_of_getLsbD_eq fun k hk => ?_
  rw [causeExcCode, causeExcCode, BitVec.getLsbD_extractLsb', BitVec.getLsbD_extractLsb', setCauseLevel,
    setField_getLsbD _ _ (by omega) (by decide), if_neg (by omega)]

/-- ExcCode and the level are the only Cause bits their writes change. -/
theorem setCauseLevel_setCauseExcCode_getLsbD (c : Word) (code : BitVec 5) (l : Fin 64) {k : Nat} (hk : k < 32)
    (hcode : ¬ (2 ≤ k ∧ k ≤ 6)) (hlevel : ¬ (10 ≤ k ∧ k ≤ 15)) :
    (setCauseLevel (setCauseExcCode c code) l).getLsbD k = c.getLsbD k := by
  rw [setCauseLevel, setField_getLsbD _ _ hk (by decide), if_neg hlevel, setCauseExcCode,
    setField_getLsbD _ _ hk (by decide), if_neg hcode]

/-- R311 changes no Cause bit but BD. -/
theorem savedCause_getLsbD (c : Cop0) (ds : Bool) {k : Nat} (hk : k < 31) :
    (savedCause c ds).getLsbD k = c.cause.getLsbD k := by
  unfold savedCause
  split
  · rfl
  · rw [setCauseBD, setField_getLsbD _ _ (by omega) (by decide), if_neg (by omega)]

/-- R311: BD keeps its value in a nested entry, and else is the delay-slot flag. -/
theorem causeBD_savedCause (c : Cop0) (ds : Bool) :
    causeBD (savedCause c ds) = if statusEXL c.status then causeBD c.cause else ds := by
  unfold savedCause
  split
  · rfl
  · exact causeBD_setCauseBD _ _

/-- Writing EXL changes no other Status bit. -/
theorem setStatusEXL_getLsbD (w : Word) (b : Bool) {k : Nat} (hk : k < 32) (h : k ≠ 1) :
    (setStatusEXL w b).getLsbD k = w.getLsbD k := by
  rw [setStatusEXL, setField_getLsbD _ _ hk (by decide), if_neg (by omega)]

/-! ## One register of an entry at a time -/

section
variable (s : State) (code : BitVec 5) (bad : Option Word) (ds : Bool) (pc : Word) (level : Fin 64)

theorem epc_invokeInterrupt : (s.invokeInterrupt code bad ds pc level).regs.cop0.epc =
    if statusEXL s.regs.cop0.status then s.regs.cop0.epc else if ds then pc - 4#32 else pc := by
  rw [invokeInterrupt_regs]

theorem causeBD_invokeInterrupt : causeBD (s.invokeInterrupt code bad ds pc level).regs.cop0.cause =
    if statusEXL s.regs.cop0.status then causeBD s.regs.cop0.cause else ds := by
  rw [invokeInterrupt_regs, ← causeBD_savedCause s.regs.cop0 ds]
  exact setCauseLevel_setCauseExcCode_getLsbD _ _ _ (by decide) (by decide) (by decide)

theorem causeExcCode_invokeInterrupt : causeExcCode (s.invokeInterrupt code bad ds pc level).regs.cop0.cause = code := by
  rw [invokeInterrupt_regs, causeExcCode_setCauseLevel, causeExcCode_setCauseExcCode]

theorem causeLevel_invokeInterrupt :
    (causeLevel (s.invokeInterrupt code bad ds pc level).regs.cop0.cause).toNat = level.val := by
  rw [invokeInterrupt_regs, causeLevel_setCauseLevel]

theorem statusEXL_invokeInterrupt : statusEXL (s.invokeInterrupt code bad ds pc level).regs.cop0.status = true := by
  rw [invokeInterrupt_regs, statusEXL_setStatusEXL]

theorem pc_invokeInterrupt : (s.invokeInterrupt code bad ds pc level).regs.pc = vectorTarget s.regs.cop0 code level := by
  rw [invokeInterrupt_regs]

end

/-- Settles O35: both cases of `epc_invokeInterrupt` and `causeBD_invokeInterrupt`. -/
theorem trapSavesRestartUnlessNested : Obligations.TrapSavesRestartUnlessNested := by
  intro s code bad ds pc level
  rw [epc_invokeInterrupt, causeBD_invokeInterrupt]
  constructor <;> intro h <;> simp [h]

/-- Settles O36: each field written reads as written, and the other bits by the frames of the field writes. -/
theorem trapRecordsCause : Obligations.TrapRecordsCause := by
  rintro s _ code bad ds pc level rfl
  refine ⟨causeExcCode_invokeInterrupt .., causeLevel_invokeInterrupt .., statusEXL_invokeInterrupt ..,
    fun k hk h1 => ?status, fun k hk hcode hlevel => ?cause, ?gpr⟩ <;> rw [invokeInterrupt_regs]
  case status => exact setStatusEXL_getLsbD _ _ hk h1
  case cause =>
    exact (setCauseLevel_setCauseExcCode_getLsbD _ _ _ (by omega) hcode hlevel).trans (savedCause_getLsbD _ _ hk)

/-! ## The vector (R313) -/

/-- Clearing the low `n` bits of a word rounds it down to a multiple of `2 ^ n`. -/
theorem toNat_and_allOnes_shiftLeft (w : Word) (n : Nat) :
    (w &&& (BitVec.allOnes 32 <<< n)).toNat = w.toNat / 2 ^ n * 2 ^ n := by
  have hshift : w &&& (BitVec.allOnes 32 <<< n) = (w >>> n) <<< n := by
    refine BitVec.eq_of_getLsbD_eq fun i hi => ?_
    rw [BitVec.getLsbD_and, BitVec.getLsbD_shiftLeft, BitVec.getLsbD_shiftLeft, BitVec.getLsbD_ushiftRight,
      BitVec.getLsbD_allOnes]
    by_cases h : i < n
    · simp [h]
    · simp [h, hi, show i - n < 32 by omega, show n + (i - n) = i by omega]
  rw [hshift, BitVec.toNat_shiftLeft, BitVec.toNat_ushiftRight, Nat.shiftRight_eq_div_pow, Nat.shiftLeft_eq]
  exact Nat.mod_eq_of_lt ((Nat.div_mul_le_self ..).trans_lt w.isLt)

/-- EBase_base is EBase with its low twelve bits cleared (R36). -/
theorem eBaseBase_toNat (w : Word) : (eBaseBase w).toNat = w.toNat / 4096 * 4096 :=
  toNat_and_allOnes_shiftLeft w 12

/-- The spacing of the levels: VS times 32 (R37, R313). -/
theorem intCtlVS_spacing (w : Word) : intCtlVS w <<< 5 = w.toNat / 32 % 32 * 32 := by
  rw [intCtlVS, fieldBits_eq, Nat.shiftLeft_eq]
  rfl

/-- A level and a VS are small enough for the offset to be exact. -/
theorem level_spacing_lt (level : Fin 64) (w : Word) : 0x200 + level.val * (w.toNat / 32 % 32 * 32) < 2 ^ 32 := by
  have hlevel : level.val ≤ 63 := by omega
  have hspacing : w.toNat / 32 % 32 * 32 ≤ 992 := by omega
  have := Nat.mul_le_mul hlevel hspacing
  omega

theorem vectorOffset_toNat (wasEXL : Bool) (code : BitVec 5) (level : Fin 64) (intCtl : Word) :
    (vectorOffset wasEXL code level intCtl).toNat =
      if wasEXL then 0x180 else if code.toNat = 30 then 0x100
      else if code.toNat = 0 then 0x200 + level.val * (intCtl.toNat / 32 % 32 * 32) else 0x180 := by
  have hcode (n : Nat) (hn : n < 2 ^ 5) : code = BitVec.ofNat 5 n ↔ code.toNat = n := by
    rw [← BitVec.toNat_inj, BitVec.toNat_ofNat, Nat.mod_eq_of_lt hn]
  simp only [vectorOffset, hcode 30 (by decide), hcode 0 (by decide), intCtlVS_spacing]
  have hexact := level_spacing_lt level intCtl
  split
  · rfl
  · split
    · rfl
    · split
      · rw [BitVec.toNat_add, BitVec.toNat_ofNat, BitVec.toNat_ofNat, ← Nat.add_mod, Nat.mod_eq_of_lt hexact]
      · rfl

/-- Settles O37: the vector is the sum of its base and its offset, modulo 2^32. -/
theorem trapVector : Obligations.TrapVector := by
  intro s code bad ds pc level
  rw [pc_invokeInterrupt, vectorTarget, BitVec.toNat_add, eBaseBase_toNat, vectorOffset_toNat]

/-- Settles O38: the vector at the example's EBase, level and spacing. -/
theorem trapVectorExample : Obligations.TrapVectorExample := by
  intro s bad ds pc hbase hexl hvs
  rw [pc_invokeInterrupt, vectorTarget, vectorOffset, hbase, hexl, hvs]
  decide

/-- Settles O39: BadVAddr after an entry, with a bad address and without. -/
theorem trapBadAddress : Obligations.TrapBadAddress := by
  intro s code ds pc level
  simp only [invokeInterrupt_regs, Option.getD_some, Option.getD_none, implies_true, and_self]

/-! ## The end of an entry (R316), its frame, and a nested one (R318) -/

/-- A word read depends on memory and the byte order alone. -/
theorem readWord_congr {s u : State} (hm : u.mem = s.mem) (hs : u.setup = s.setup) (a : Word) :
    u.readWord a = s.readWord a := by
  rw [State.readWord, State.readWord, hm, hs]

/-- A nonzero word at the vector leaves the report; a zero one is reported (R316). -/
theorem report_invokeInterrupt (s : State) (code : BitVec 5) (bad : Option Word) (ds : Bool) (pc : Word) (level : Fin 64) :
    (s.invokeInterrupt code bad ds pc level).report =
      if s.readWord (vectorTarget s.regs.cop0 code level) = 0#32 then some (.unmappedVector code) else s.report := by
  rw [State.invokeInterrupt, State.checkVector, readWord_congr (s := s) (by simp) (by simp)]
  split <;> simp

/-- Settles O40: how an entry ends depends on the word at its vector; its registers depend on registers alone. -/
theorem unmappedVectorEndsTheRun : Obligations.UnmappedVectorEndsTheRun := by
  rintro s _ code bad ds pc level rfl
  obtain ⟨hrun, hexit⟩ := invokeInterrupt_end s code bad ds pc level
  rw [pc_invokeInterrupt, hrun, hexit, report_invokeInterrupt]
  refine ⟨fun h => by simp [h], fun h => by simp [h], invokeInterrupt_cache .., fun m c => ?_⟩
  rw [invokeInterrupt_regs, invokeInterrupt_regs]

/-- Settles O41: the registers by `invokeInterrupt_regs`, the other fields each by its own lemma. -/
theorem trapFrame : Obligations.TrapFrame := by
  rintro s _ code bad ds pc level rfl
  rw [invokeInterrupt_regs]
  exact ⟨rfl, rfl, rfl, rfl, rfl, rfl, rfl, invokeInterrupt_mem .., invokeInterrupt_cache .., invokeInterrupt_hwPending ..,
    invokeInterrupt_swPending .., invokeInterrupt_nextInDelaySlot .., invokeInterrupt_cycles ..⟩

/-- Settles O42: the nested case of each register; the second of two entries is nested, for the first set EXL. -/
theorem nestedTrapKeepsFirstEpc : Obligations.NestedTrapKeepsFirstEpc := by
  constructor
  · rintro s _ code bad ds pc level hexl rfl
    rw [epc_invokeInterrupt, causeBD_invokeInterrupt, pc_invokeInterrupt, vectorTarget, vectorOffset, if_pos hexl,
      if_pos hexl, if_pos hexl]
    exact ⟨rfl, rfl, causeExcCode_invokeInterrupt .., causeLevel_invokeInterrupt .., rfl⟩
  · rintro s _ c₁ c₂ b₁ b₂ d₁ d₂ p₁ p₂ l₁ l₂ rfl
    rw [epc_invokeInterrupt, if_pos (statusEXL_invokeInterrupt ..)]

/-! ## The return (R322) -/

/-- Writing ERL changes no other Status bit. -/
theorem setStatusERL_getLsbD (w : Word) (b : Bool) {k : Nat} (hk : k < 32) (h : k ≠ 2) :
    (setStatusERL w b).getLsbD k = w.getLsbD k := by
  rw [setStatusERL, setField_getLsbD _ _ hk (by decide), if_neg (by omega)]

/-- The return's registers, by ERL. -/
theorem returnFromException_regs (s : State) : s.returnFromException.regs =
    if statusERL s.regs.cop0.status then
      { s.regs with
        pc := s.regs.cop0.errorEPC, cop0 := { s.regs.cop0 with status := setStatusERL s.regs.cop0.status false } }
    else
      { s.regs with
        pc := s.regs.cop0.epc, cop0 := { s.regs.cop0 with status := setStatusEXL s.regs.cop0.status false } } := by
  unfold State.returnFromException
  split <;> rfl

/-- Settles O43: the registers in each case of ERL, the Status bits by the frame of the field's write. -/
theorem exceptionReturn : Obligations.ExceptionReturn := by
  intro s
  rw [returnFromException_regs]
  refine ⟨fun h => ?erl, fun h => ?exl, ?gpr, returnFromException_mem s⟩
  case erl =>
    rw [if_pos h]
    exact ⟨rfl, statusERL_setStatusERL _ _, fun k hk hne => setStatusERL_getLsbD _ _ hk hne⟩
  case exl =>
    rw [if_neg (by simp [h])]
    exact ⟨rfl, statusEXL_setStatusEXL _ _, fun k hk hne => setStatusEXL_getLsbD _ _ hk hne⟩
  case gpr => split <;> rfl

end Sys2Proof.Machine
end

section
/-! The interrupt controller: its sets and queue, what is pending, and which request the check takes (R331 to R334). -/

namespace Sys2Proof.Machine

/-! ## Requests (R331, R332) -/

/-- A level in the set is added without effect (R331: a set). -/
theorem insertLevel_of_mem {l : Fin 64} {ks : List (Fin 64)} (hks : ks.Pairwise (fun a b => a.val < b.val))
    (h : l ∈ ks) : insertLevel l ks = ks := by
  induction ks with
  | nil => cases h
  | cons k ks ih =>
    obtain ⟨hk, htail⟩ := List.pairwise_cons.mp hks
    rcases List.mem_cons.mp h with rfl | hmem
    · simp [insertLevel]
    · have hlt : k.val < l.val := hk l hmem
      rw [insertLevel, if_neg (Fin.not_lt.mpr (Nat.le_of_lt hlt)), if_neg (Fin.ne_of_gt hlt), ih htail hmem]

theorem requestHardware_of_lt (s : State) {l : Nat} (h : l < 64) :
    s.requestHardware l = { s with hwPending := insertLevel ⟨l, h⟩ s.hwPending } := dif_pos h

theorem requestHardware_of_ge (s : State) {l : Nat} (h : 64 ≤ l) :
    s.requestHardware l = { s with report := some (.levelRefused l) } := dif_neg (Nat.not_lt.mpr h)

/-- Settles O44: a level in range is inserted, a second time without effect, for it is then a member. -/
theorem hardwareRequestsAreASet : Obligations.HardwareRequestsAreASet := by
  intro s l hsets
  refine ⟨fun h => ?_, requestHardware_of_ge s⟩
  have hagain : insertLevel ⟨l, h⟩ (insertLevel ⟨l, h⟩ s.hwPending) = insertLevel ⟨l, h⟩ s.hwPending :=
    insertLevel_of_mem (insertLevel_ordered hsets.1) (mem_insertLevel.mpr (.inl rfl))
  rw [requestHardware_of_lt s h, requestHardware_of_lt _ h]
  exact ⟨fun x => mem_insertLevel, ⟨_, rfl⟩, by rw [hagain]⟩

/-- The bit a software request flags is set, and no other Cause bit changes (R332). -/
theorem setCauseBit_getLsbD (c : Word) (bit : Fin 32) {k : Nat} (hk : k < 32) :
    (setCauseBit c bit).getLsbD k = (decide (k = bit.val) || c.getLsbD k) := by
  rw [setCauseBit, setField_getLsbD _ _ hk le_rfl]
  by_cases h : k = bit.val
  · subst h
    simp
  · rw [if_neg (by omega)]
    simp [h]

/-- Settles O45: the flagged bit by `setCauseBit_getLsbD`, the other registers by the frame of a COP0 write. -/
theorem softwareRequestFlagsCause : Obligations.SoftwareRequestFlagsCause := by
  intro s q
  exact ⟨rfl, fun k hk => setCauseBit_getLsbD _ _ hk, rfl, rfl, rfl,
    fun c hc => cop0_read_writeCop0_of_ne _ _ (by simpa using hc.symm), rfl⟩

/-! ## What is pending (R333) -/

theorem hasPending_iff (s : State) :
    s.hasPending = true ↔ s.swPending ≠ [] ∨ ∃ l ∈ s.hwPending, s.interruptEnabled l = true := by
  simp [State.hasPending]

theorem swPending_of_idle {s : State} (h : s.hasPending = false) : s.swPending = [] := by
  by_contra hne
  simp [(hasPending_iff s).mpr (.inl hne)] at h

/-- The MIPS32 condition, bit by bit. -/
theorem interruptEnabled_mips32 {s : State} (h : s.setup.interruptPolicy = .mips32) (l : Fin 64) :
    s.interruptEnabled l = true ↔
      s.regs.cop0.status.getLsbD 0 = true ∧ s.regs.cop0.status.getLsbD 1 = false ∧
      s.regs.cop0.status.getLsbD 2 = false ∧ l.val ≤ 7 ∧ s.regs.cop0.status.getLsbD (8 + l.val) = true := by
  simp [State.interruptEnabled, h, statusIE, statusEXL, statusERL, statusIM, and_assoc]

/-- Settles O46: `hasPending` as a disjunction, and the policy's condition bit by bit. -/
theorem pendingRequests : Obligations.PendingRequests :=
  fun s => ⟨hasPending_iff s, interruptEnabled_mips32⟩

/-! ## The request the check takes (R334) -/

/-- The last member of a rising list is above every other, so a member above every other is the last. -/
theorem getLast?_of_greatest {ls : List (Fin 64)} (hls : ls.Pairwise (fun a b => a.val < b.val)) {l : Fin 64}
    (hl : l ∈ ls) (hmax : ∀ k ∈ ls, k ≤ l) : ls.getLast? = some l := by
  obtain ⟨front, k, rfl⟩ := (List.eq_nil_or_concat' ls).resolve_left (List.ne_nil_of_mem hl)
  rw [List.getLast?_concat]
  rcases List.mem_append.mp hl with hfront | hlast
  · have hlt : l.val < k.val := (List.pairwise_append.mp hls).2.2 l hfront k (by simp)
    exact absurd (hmax k (by simp)) (Nat.not_le.mpr hlt)
  · rw [List.mem_singleton.mp hlast]

/-- In an ordered set the level R334 takes is the greatest enabled one. -/
theorem highestEnabled_of_greatest {s : State} (hs : s.hwPending.Pairwise (fun a b => a.val < b.val)) {l : Fin 64}
    (hl : l ∈ s.hwPending) (hen : s.interruptEnabled l = true)
    (hmax : ∀ k ∈ s.hwPending, s.interruptEnabled k = true → k ≤ l) : s.highestEnabled = some l :=
  getLast?_of_greatest (hs.filter _) (List.mem_filter.mpr ⟨hl, hen⟩) fun k hk =>
    hmax k (List.mem_filter.mp hk).1 (List.mem_filter.mp hk).2

theorem nodup_of_ordered {ls : List (Fin 64)} (h : ls.Pairwise (fun a b => a.val < b.val)) : ls.Nodup :=
  h.imp fun hlt => Fin.ne_of_lt hlt

/-- A level is in an ordered set once, so what is left without it holds every other and it no more. -/
theorem erase_eq_filter_of_ordered {ls : List (Fin 64)} (h : ls.Pairwise (fun a b => a.val < b.val)) (l : Fin 64) :
    ls.erase l = ls.filter (fun k => decide (k ≠ l)) := by
  rw [(nodup_of_ordered h).erase_eq_filter]
  exact List.filter_congr fun k _ => by by_cases hk : k = l <;> simp [hk]

/-- Settles O47: the two kinds of request as the check takes them; a level leaves its set once, for the set has no
repeats. -/
theorem interruptCheckPriority : Obligations.InterruptCheckPriority := by
  intro s hsets
  refine ⟨fun q qs hq => interruptCheck_software hq, fun l hq hl hen hmax => ?hardware, fun hq hnone => ?idle⟩
  case hardware =>
    rw [interruptCheck_hardware hq (highestEnabled_of_greatest hsets.1 hl hen hmax),
      erase_eq_filter_of_ordered hsets.1]
    rfl
  case idle =>
    refine interruptCheck_of_idle (Bool.eq_false_iff.mpr fun hp => ?_)
    rcases (hasPending_iff s).mp hp with hne | ⟨l, hl, hen⟩
    · exact hne hq
    · rw [hnone l hl] at hen
      cases hen

end Sys2Proof.Machine
end

section
/-! A step and a cycle: what they run, how often they count, where they stop, and how a cycle ends (R301, R303, R316,
R330, R341, R345, R346). -/

namespace Sys2Proof.Machine

/-! ## What a step and a cycle run -/

/-- With no call waiting, READY and RUNNING run a cycle: of a `step()` call, or of the run. -/
theorem step_eq_cycle {s : State} (hc : s.commands = []) (hr : s.runState = .ready ∨ s.runState = .running) :
    step s = s.cycle (decide (s.runState = .ready)) := by
  rcases hr with hr | hr
  · rw [step_ready hc hr, hr]; rfl
  · rw [step_running hc hr, hr]; rfl

theorem fetchAndExecute_of_fetched {s t : State} {e : Entry} (h : s.fetch s.regs.pc = .fetched t e) :
    s.fetchAndExecute = finishResult (exec (decode e.defn.format e.raw.value) t.gap) := by
  rw [State.fetchAndExecute, h]

theorem fetchAndExecute_of_failed {s : State} {raw : Word} (h : s.fetch s.regs.pc = .failed raw) :
    s.fetchAndExecute = .fault (.decodeFailure s.regs.pc raw (({ s with runState := .finished }).closeCycle false)) := by
  rw [State.fetchAndExecute, h]

theorem fetchAndExecute_of_misaligned {s : State} (h : s.fetch s.regs.pc = .misaligned) :
    s.fetchAndExecute = .next (s.requestSoftware s.fetchAddressError).countCycle.endStep := by
  rw [State.fetchAndExecute, h]

theorem cycleBody_of_not_finished {s : State} (h : s.runState ≠ .finished) : s.cycleBody = s.gap.fetchAndExecute :=
  if_neg h

/-- With nothing to take a cycle goes on from its start (R333). -/
theorem cycle_eq_cycleBody {s : State} {b : Bool} (hp : s.hasPending = false) : s.cycle b = (s.beginCycle b).cycleBody := by
  rw [State.cycle, interruptCheck_of_idle (by simpa using hp)]

/-- A word with a definition and an executable decodes (R203). -/
theorem decodeRaw_of_lookup {table : DecodeTable} {pc raw : Word} {d : Def} {x : Executable}
    (hd : table.lookup raw = some d) (hx : table.generateExecution d raw pc = some x) :
    decodeRaw table pc raw = .ok ⟨assembleFromCode d raw, d, x⟩ := by
  simp only [decodeRaw, hd, hx]

/-- Settles O48: in step with the cache a fetch gives memory's word; with calls to land, each gap lies where the cycle
puts it. -/
theorem stepRunsDecodedInstruction : Obligations.StepRunsDecodedInstruction := by
  constructor
  · intro s d x hinv hc hr hp hi h4 hstep hd hx
    obtain ⟨c, hcache, hfetch⟩ := fetch_of_fresh (s := s.beginCycle (decide (s.runState = .ready))) hinv.bounded
      hinv.coherent h4 hstep (decodeRaw_of_lookup hd hx)
    refine ⟨c, hcache, ?_⟩
    rw [step_eq_cycle hc hr, cycle_fetched hp hi hfetch]
    rfl
  · rintro s _ t e hc hr hp rfl hfetch
    rw [step_eq_cycle hc hr, cycle_eq_cycleBody hp, cycleBody_of_not_finished (by simp)]
    exact fetchAndExecute_of_fetched hfetch

/-- Settles O53: the call queues the item and resumes the open execute. -/
theorem inputResumesTheExecute : Obligations.InputResumesTheExecute := by
  intro s x rest i hc hr hi
  rw [step_command hc]
  simp only [State.perform, OutsideCall.isInput, if_true, State.outside, State.resume, hr, hi]

/-- Settles O54: the two run states in which the worker does nothing. -/
theorem waitingAndFinishedRuns : Obligations.WaitingAndFinishedRuns :=
  fun _ hc => ⟨step_waiting hc, step_finished hc⟩

/-! ## The end of a cycle (R330, R341, R344) -/

theorem finishCycle_of_completed {s : State} (h : s.executing = none) : s.finishCycle = s.countCycle.checkBreakpoints :=
  if_pos h

theorem finishCycle_of_blocked {s : State} (h : s.executing ≠ none) (hr : s.runState = .lockedOnInput) :
    s.finishCycle = s := by
  rw [State.finishCycle, if_neg h, if_pos hr]

theorem finishCycle_of_raised {s : State} (h : s.executing ≠ none) (hr : s.runState ≠ .lockedOnInput) :
    s.finishCycle = ({ s with executing := none } : State).closeCycle false := by
  rw [State.finishCycle, if_neg h, if_neg hr]

/-- A run goes on or stops at a breakpoint; a `step()` call goes back to READY (R344, R346). -/
theorem runState_checkBreakpoints_of_running {s : State} (h : s.runState = .running) :
    s.checkBreakpoints.runState = if s.singleStep = true ∨ s.regs.pc ∈ s.breakpoints then .ready else .running := by
  simp only [State.checkBreakpoints, h, true_and]
  split
  · rfl
  · exact h

theorem checkBreakpoints_of_not_running {s : State} (h : s.runState ≠ .running) : s.checkBreakpoints = s :=
  if_neg fun hc => h hc.1

/-- Settles O49: the three ends of a cycle; of a counted one only Count moves, and the breakpoint check sets at most the
run state. -/
theorem cycleEnd : Obligations.CycleEnd := by
  refine ⟨fun _ => rfl, fun t h => ?completed, fun t => finishCycle_of_blocked, fun t h hr => ?raised⟩
  case completed =>
    rw [finishCycle_of_completed h]
    simp only [checkBreakpoints_cycles, checkBreakpoints_mem, checkBreakpoints_cache, checkBreakpoints_regs]
    refine ⟨rfl, rfl, rfl, rfl, rfl, rfl, fun c hc => ?_, fun hr => ?_, fun hr => ?_⟩
    · exact cop0_read_writeCop0_of_ne _ _ (by simpa using hc.symm)
    · exact runState_checkBreakpoints_of_running (s := t.countCycle) hr
    · rw [checkBreakpoints_of_not_running (by exact hr), countCycle_runState]
  case raised =>
    rw [finishCycle_of_raised h hr]
    exact ⟨rfl, rfl, rfl, rfl, rfl⟩

/-! ## The count (R341) -/

theorem settle_cycles (s : State) (i : Instr) (next : Continue) (x : Execution) : (s.settle i next x).cycles = s.cycles := by
  rcases settle_cases s i next x with ⟨_, h⟩ | ⟨c, _, h⟩ <;> rw [h]
  simp

theorem exec_cycles {i : Instr} {s t : State} (h : exec i s = .next t) : t.cycles = s.cycles := by
  rcases exec_cases i s with ⟨_, he⟩ | ⟨_, e, _, he⟩ <;> rw [he] at h <;> cases h
  exact settle_cycles ..

theorem finishCycle_cycles (s : State) : s.finishCycle.cycles = s.cycles ∨ s.finishCycle.cycles = s.cycles + 1 := by
  unfold State.finishCycle
  split
  · exact .inr (by simp)
  · split <;> exact .inl rfl

theorem eq_finishCycle_of_finishResult {r : Result} {t : State} (h : finishResult r = .next t) :
    ∃ u, r = .next u ∧ t = u.finishCycle := by
  cases r <;> cases h
  exact ⟨_, rfl, rfl⟩

theorem fetchAndExecute_cycles {s t : State} (h : s.fetchAndExecute = .next t) :
    t.cycles = s.cycles ∨ t.cycles = s.cycles + 1 := by
  cases hf : s.fetch s.regs.pc with
  | misaligned =>
    rw [fetchAndExecute_of_misaligned hf] at h
    cases h
    exact .inr (endStep_cycles _)
  | failed raw =>
    rw [fetchAndExecute_of_failed hf] at h
    cases h
  | fetched u e =>
    rw [fetchAndExecute_of_fetched hf] at h
    obtain ⟨v, hv, rfl⟩ := eq_finishCycle_of_finishResult h
    have hcycles : v.cycles = s.cycles := by rw [exec_cycles hv, gap_cycles, fetch_frame hf]
    rw [← hcycles]
    exact finishCycle_cycles v

theorem cycle_cycles {s t : State} {b : Bool} (h : s.cycle b = .next t) :
    t.cycles = s.cycles ∨ t.cycles = s.cycles + 1 := by
  by_cases hfatal : (s.beginCycle b).interruptCheck.runState = .finished
  · rw [cycle_fatal hfatal] at h
    cases h
    exact .inl (by simp)
  · rw [State.cycle, cycleBody_of_not_finished hfatal] at h
    simpa using fetchAndExecute_cycles h

/-- Settles O34: READY and RUNNING run a cycle, which counts at most once; LOCKED_ON_INPUT waits. -/
theorem stepCountsAtMostOneCycle : Obligations.StepCountsAtMostOneCycle := by
  intro s t hc h
  cases hr : s.runState with
  | ready => exact cycle_cycles (step_ready hc hr ▸ h)
  | running => exact cycle_cycles (step_running hc hr ▸ h)
  | lockedOnInput =>
    rw [step_waiting hc hr] at h
    cases h
    exact .inl rfl
  | finished =>
    rw [step_finished hc hr] at h
    cases h

/-! ## Where a step stops (R301, R346) -/

/-- What a DecodeFailure says is so: an aligned pc, a word the table does not decode there, which is memory's or the
free one of R423, and a FINISHED run at that pc. -/
def Fault.NamesUndecodedWord : Fault → Prop
  | .decodeFailure pc raw t =>
    pc.toNat % 4 = 0 ∧ decodeRaw t.setup.table pc raw = .error raw ∧ (raw = t.readWord pc ∨ pc ∈ t.unsynced.next) ∧
      t.regs.pc = pc ∧ t.runState = .finished

/-- An outcome is no refusal, and a fault only for a word that does not decode. -/
def StopsOnlyOnUndecodedWord (r : Result) : Prop :=
  (∀ x, r ≠ .refused x) ∧ ∀ f, r = .fault f → f.NamesUndecodedWord

theorem stopsOnlyOnUndecodedWord_next (t : State) : StopsOnlyOnUndecodedWord (.next t) :=
  ⟨fun _ h => (by cases h), fun _ h => (by cases h)⟩

/-- The execute of a well-formed record, and the end of its cycle, complete. -/
theorem stopsOnlyOnUndecodedWord_exec {i : Instr} (h : i.wellFormed = true) (s : State) :
    StopsOnlyOnUndecodedWord (finishResult (exec i s)) := by
  rw [exec_of_encodable (encodable_of_wellFormed h)]
  exact stopsOnlyOnUndecodedWord_next _

theorem stopsOnlyOnUndecodedWord_fetchAndExecute (s : State) : StopsOnlyOnUndecodedWord s.fetchAndExecute := by
  cases hf : s.fetch s.regs.pc with
  | misaligned =>
    rw [fetchAndExecute_of_misaligned hf]
    exact stopsOnlyOnUndecodedWord_next _
  | failed raw =>
    rw [fetchAndExecute_of_failed hf]
    refine ⟨fun _ h => (by cases h), fun f h => ?_⟩
    cases h
    obtain ⟨h4, hraw, hwhence⟩ := fetch_failed hf
    exact ⟨h4, hraw, hwhence.symm.imp_left freshDecode_error, rfl, rfl⟩
  | fetched t e =>
    rw [fetchAndExecute_of_fetched hf]
    exact stopsOnlyOnUndecodedWord_exec (decode_wellFormed ..) _

theorem stopsOnlyOnUndecodedWord_cycle (s : State) (b : Bool) : StopsOnlyOnUndecodedWord (s.cycle b) := by
  rw [State.cycle, State.cycleBody]
  split
  · exact stopsOnlyOnUndecodedWord_next _
  · exact stopsOnlyOnUndecodedWord_fetchAndExecute _

/-- No call is refused, and only `step()` can fault (R344 to R349). -/
theorem stopsOnlyOnUndecodedWord_perform {s : State} (h : s.Inv) (c : Command) :
    StopsOnlyOnUndecodedWord (s.perform c) := by
  cases c <;> rw [State.perform]
  case step =>
    split
    · exact stopsOnlyOnUndecodedWord_cycle ..
    · exact stopsOnlyOnUndecodedWord_next _
  case outside c =>
    split
    · obtain ⟨t, ht⟩ := resume_next (inv_outside h c)
      rw [ht]
      exact stopsOnlyOnUndecodedWord_next t
    · exact stopsOnlyOnUndecodedWord_next _
  case stop => exact stopsOnlyOnUndecodedWord_next _
  case cancelBeforeCycle => exact stopsOnlyOnUndecodedWord_next _
  all_goals split <;> exact stopsOnlyOnUndecodedWord_next _

/-- A step is refused only as a FINISHED run with no call waiting; else it stops at most on an undecoded word. -/
theorem step_stops {s : State} (h : s.Inv) :
    (s.commands = [] ∧ s.runState = .finished ∧ step s = .refused .runFinished) ∨ StopsOnlyOnUndecodedWord (step s) := by
  cases hc : s.commands with
  | cons c rest =>
    rw [step_command hc]
    exact .inr (stopsOnlyOnUndecodedWord_perform (inv_setCommands h rest) c)
  | nil =>
    cases hr : s.runState with
    | ready => exact .inr (step_ready hc hr ▸ stopsOnlyOnUndecodedWord_cycle s true)
    | running => exact .inr (step_running hc hr ▸ stopsOnlyOnUndecodedWord_cycle s false)
    | lockedOnInput => exact .inr (step_waiting hc hr ▸ stopsOnlyOnUndecodedWord_next s)
    | finished => exact .inl ⟨rfl, rfl, step_finished hc hr⟩

/-- Settles O32: the two kinds of outcome of `step_stops`. -/
theorem stepStopsOnlyWhereTheSpecDoes : Obligations.StepStopsOnlyWhereTheSpecDoes := by
  intro s hinv
  rcases step_stops hinv with ⟨hc, hr, hrefused⟩ | ⟨hnever, hfault⟩
  · rw [hrefused]
    refine ⟨fun r h => ?_, fun f h => by cases h⟩
    cases h
    exact ⟨rfl, hc, hr⟩
  · refine ⟨fun r h => absurd h (hnever r), fun f h => ?_⟩
    have hnames := hfault f h
    cases f
    exact ⟨_, _, _, rfl, hnames⟩

/-! ## A fetch that gives no instruction (R301, R303) -/

/-- A cycle that gets to the fetch of a word with no decode ends the run and changes nothing else. -/
theorem cycleBody_of_undecoded {s : State} {raw : Word} (hb : s.cache.Bounded) (hco : s.Coherent)
    (hr : s.runState = .running) (hi : s.interleaved = []) (h4 : s.regs.pc.toNat % 4 = 0) (hstep : s.InStep s.regs.pc)
    (h : s.freshDecode s.regs.pc = .error raw) :
    s.cycleBody = .fault (.decodeFailure s.regs.pc raw (({ s with runState := .finished }).closeCycle false)) := by
  rw [cycleBody_of_not_finished (by simp [hr]), gap_of_nil hi, fetchAndExecute_of_failed (fetch_of_failed hb hco h4 hstep h)]

/-- Settles O50: a step that takes no request is a cycle from its start on, so both clauses are
`cycleBody_of_undecoded`. -/
theorem decodeFailureLeavesTheMachine : Obligations.DecodeFailureLeavesTheMachine := by
  constructor
  · intro s raw hinv hc hr hp hi h4 hstep hraw
    rw [step_eq_cycle hc hr, cycle_eq_cycleBody hp,
      cycleBody_of_undecoded (s := s.beginCycle _) hinv.bounded hinv.coherent rfl hi h4 hstep hraw]
    exact ⟨_, rfl, freshDecode_error hraw, rfl, rfl, rfl, rfl, rfl, rfl⟩
  · intro s raw hb hco hr hi h4 hstep hraw
    rw [cycleBody_of_undecoded hb hco hr hi h4 hstep hraw]
    exact ⟨_, rfl, rfl, rfl, rfl, rfl, rfl, rfl⟩

/-- After a misaligned fetch a `step()` call is READY again and a run goes on. -/
theorem runState_endStep_of_running {s : State} (h : s.runState = .running) :
    s.endStep.runState = if s.singleStep = true then .ready else .running := by
  simp only [State.endStep, h, true_and]
  split
  · rfl
  · exact h

/-- The end of a `step()` call sets at most the run state. -/
theorem endStep_eq (s : State) : s.endStep = { s with runState := s.endStep.runState } := by
  unfold State.endStep
  split <;> rfl

/-- Settles O51: the cycle queues the request and counts; the queue was empty, so the next check takes that request. -/
theorem misalignedFetchQueuesRequest : Obligations.MisalignedFetchQueuesRequest := by
  intro s hc hr hp hi h4
  have hempty := swPending_of_idle hp
  rw [step_eq_cycle hc hr, cycle_misaligned hp hi h4, endStep_eq, runState_endStep_of_running rfl]
  refine ⟨_, rfl, rfl, rfl, rfl, rfl, ?queue, ?run, rfl, rfl, interruptCheck_software ?head⟩
  case queue => exact congrArg (· ++ _) hempty
  case run => rcases hr with hr | hr <;> simp [hr]
  case head => exact congrArg (· ++ _) hempty

/-! ## A fatal entry (R316) -/

/-- A step whose check makes the entry `u.invokeInterrupt ..` to a zero word is that entry and the cycle's end. -/
theorem step_of_unmapped {s u : State} {code : BitVec 5} {bad : Option Word} {ds : Bool} {pc : Word} {level : Fin 64}
    (hc : s.commands = []) (hr : s.runState = .ready ∨ s.runState = .running)
    (hcheck : (s.beginCycle (decide (s.runState = .ready))).interruptCheck = u.invokeInterrupt code bad ds pc level)
    (h : u.readWord (vectorTarget u.regs.cop0 code level) = 0#32) :
    step s = .next ((u.invokeInterrupt code bad ds pc level).closeCycle false) ∧
    (u.invokeInterrupt code bad ds pc level).runState = .finished ∧
    (u.invokeInterrupt code bad ds pc level).exitCode = some (0x1000 + (code.toNat : Int)) := by
  obtain ⟨hrun, hexit⟩ := invokeInterrupt_end u code bad ds pc level
  rw [if_pos h] at hrun hexit
  refine ⟨?_, hrun, hexit⟩
  rw [step_eq_cycle hc hr, cycle_fatal (by rw [hcheck, hrun]), hcheck]

/-- Settles O52: the request the check takes, by its kind; its entry is fatal, and leaves everything but its registers
and its request. -/
theorem fatalEntryEndsTheCycle : Obligations.FatalEntryEndsTheCycle := by
  constructor
  · intro s q qs hc hr hq hzero
    obtain ⟨hstep, hrun, hexit⟩ := step_of_unmapped hc hr (interruptCheck_software (s := s.beginCycle _) hq) hzero
    exact ⟨_, hstep, hrun, hexit, by simp, by simp, by simp, by simp, by simp, pc_invokeInterrupt ..⟩
  · intro s l hsets hc hr hq hl hen hmax hzero
    have hgone : l ∉ s.hwPending.erase l := (nodup_of_ordered hsets.1).not_mem_erase
    obtain ⟨hstep, hrun, hexit⟩ := step_of_unmapped hc hr (interruptCheck_hardware (s := s.beginCycle _) hq
      (highestEnabled_of_greatest (s := s.beginCycle _) hsets.1 hl hen hmax)) hzero
    exact ⟨_, hstep, hrun, hexit, by simp, by simp, by simp, by simp [hq], by simpa using hgone, pc_invokeInterrupt ..⟩

end Sys2Proof.Machine
end

section
/-! The controller's calls between cycles: the breakpoint set (R344), undo (R348, R424), and `stop()` (R349). -/

namespace Sys2Proof.Machine

/-! ## Breakpoints (R344) -/

/-- A call that brings no input is performed by its one atomic step. -/
theorem perform_outside {c : OutsideCall} (h : c.isInput = false) (s : State) :
    s.perform (.outside c) = .next (s.outside c) := by
  simp [State.perform, h]

/-- An address in the set is added without effect. -/
theorem insertAddress_of_mem {a : Word} {bs : List Word} (hbs : bs.Pairwise (fun x y => x.toNat < y.toNat)) (h : a ∈ bs) :
    insertAddress a bs = bs := by
  induction bs with
  | nil => cases h
  | cons b bs ih =>
    obtain ⟨hb, htail⟩ := List.pairwise_cons.mp hbs
    rcases List.mem_cons.mp h with rfl | hmem
    · simp [insertAddress]
    · have hlt := hb a hmem
      have hne : a ≠ b := fun he => by simp [he] at hlt
      rw [insertAddress, if_neg (by omega), if_neg hne, ih htail hmem]

theorem nodup_of_rising {bs : List Word} (h : bs.Pairwise (fun x y => x.toNat < y.toNat)) : bs.Nodup :=
  h.imp fun hlt he => by simp [he] at hlt

/-- Adding an address twice is adding it once. -/
theorem insertAddress_insertAddress {a : Word} {bs : List Word} (h : bs.Pairwise (fun x y => x.toNat < y.toNat)) :
    insertAddress a (insertAddress a bs) = insertAddress a bs :=
  insertAddress_of_mem (insertAddress_ordered h) (mem_insertAddress.mpr (.inl rfl))

/-- Removing an address twice is removing it once. -/
theorem erase_erase {a : Word} {bs : List Word} (h : bs.Pairwise (fun x y => x.toNat < y.toNat)) :
    (bs.erase a).erase a = bs.erase a :=
  List.erase_of_not_mem (nodup_of_rising h).not_mem_erase

/-- What a toggle does is decided by the rest of the set, which a toggle leaves: so it is made once (log entry 27). -/
theorem toggled_toggled {a : Word} {bs : List Word} (h : bs.Pairwise (fun x y => x.toNat < y.toNat)) :
    toggled a (toggled a bs) = toggled a bs := by
  cases hc : Config.toggleBreakpoint a (bs.erase a) with
  | none => simp [toggled, hc]
  | some b =>
    cases b with
    | true => simp [toggled, hc, erase_insertAddress h, insertAddress_insertAddress h]
    | false => simp [toggled, hc, erase_erase h]

/-- Settles O59: each call is one step on the breakpoint set, which it changes as a set and once. -/
theorem breakpointsAreASet : Obligations.BreakpointsAreASet := by
  intro s a hs
  refine ⟨⟨_, perform_outside rfl s, rfl, fun x => mem_insertAddress, ?add⟩,
    ⟨_, perform_outside rfl s, rfl, fun x => (nodup_of_rising hs).mem_erase_iff, ?remove⟩,
    ⟨_, perform_outside rfl s, rfl, fun x hx => mem_toggled_of_ne hx, ?toggle⟩⟩ <;>
    rw [perform_outside rfl]
  case add => simp only [State.outside, insertAddress_insertAddress hs]
  case remove => simp only [State.outside, erase_erase hs]
  case toggle => simp only [State.outside, toggled_toggled hs]

/-! ## Undo (R348, R424) -/

theorem undoLastStep_of_disabled {s : State} (h : s.setup.undoEnabled = false) :
    s.undoLastStep = { s with report := some .undoUnavailable } := by
  simp [State.undoLastStep, h]

theorem undoLastStep_of_record {s : State} {r : CycleRecord} {older : List CycleRecord}
    (h : s.setup.undoEnabled = true) (hl : s.undoLog = r :: older) :
    s.undoLastStep =
      { s.undoDeltas r.deltas with undoLog := older, cycles := if r.counted then s.cycles - 1 else s.cycles } := by
  rw [State.undoLastStep, h, hl]

/-- Settles O57: a run without undo, and a number of cycles other than one. -/
theorem undoRefused : Obligations.UndoRefused := by
  refine fun s => ⟨fun h => undoLastStep_of_disabled ?_, fun n hn => if_neg hn⟩
  rcases h with h | h <;> simp [Setup.undoEnabled, h]

/-- The start of a cycle has recorded nothing yet. -/
theorem undoesTo_beginCycle {s : State} (hw : Mem.wf s.mem = true) (hen : s.setup.undoEnabled = true) (b : Bool) :
    (s.beginCycle b).UndoesTo s :=
  ⟨hen, hw, rfl, rfl, rfl⟩

/-- Undo of a record that stands on top of the log, in a state with the store it was closed in. -/
theorem State.UndoesTo.undoLastStep_of_closed {s t u : State} (h : t.UndoesTo s) (hu : t.SameStore u) {counted : Bool}
    {older : List CycleRecord} (hl : u.undoLog = ⟨t.deltas, counted⟩ :: older) :
    u.undoLastStep.regs = s.regs ∧ u.undoLastStep.mem = s.mem ∧
    u.undoLastStep.cycles = (if counted then u.cycles - 1 else u.cycles) ∧ u.undoLastStep.undoLog = older := by
  have hrestored := h.restore.trans (undoDeltas_congr hu t.deltas)
  rw [undoLastStep_of_record (by rw [hu.setup]; exact h.enabled) hl]
  exact ⟨hrestored.regs, hrestored.mem, rfl, rfl⟩

/-- Undo of a counted cycle: Count's advance is recorded with the rest (R341). -/
theorem State.UndoesTo.undoLastStep_countCycle {s t : State} (h : t.UndoesTo s) :
    t.countCycle.checkBreakpoints.undoLastStep.regs = s.regs ∧ t.countCycle.checkBreakpoints.undoLastStep.mem = s.mem ∧
    t.countCycle.checkBreakpoints.undoLastStep.cycles = t.cycles := by
  have hstore : t.advanceCount.SameStore t.countCycle.checkBreakpoints := ⟨by simp, by simp, by simp⟩
  have hlog : t.countCycle.checkBreakpoints.undoLog = ⟨t.advanceCount.deltas, true⟩ :: t.undoLog := by
    simp [h.enabled]
  obtain ⟨hregs, hmem, hcycles, _⟩ := (h.setCop0 .count _ : t.advanceCount.UndoesTo s).undoLastStep_of_closed hstore hlog
  exact ⟨hregs, hmem, by simp [hcycles]⟩

/-- Undo of a cycle whose execute completed with all its memory writes recorded. -/
theorem State.UndoesTo.undoLastStep_finishCycle {s u : State} (h : u.UndoesTo s) (i : Instr) (next : Continue)
    {x : Execution} {k : Nat} (hi : u.interleaved = []) (hx : x.ending = .completed k)
    (hrecorded : ∀ a w v, Effect.memWrite a w v true ∉ x.effects) :
    (u.settle i next x).finishCycle.undoLastStep.regs = s.regs ∧ (u.settle i next x).finishCycle.undoLastStep.mem = s.mem ∧
    (u.settle i next x).finishCycle.undoLastStep.cycles = u.cycles := by
  have hdone : (u.settle i next x).executing = none := by
    rw [settle_of_nil hi i next (c := .completed k) (by rw [hx]; rfl)]
    rfl
  rw [finishCycle_of_completed hdone, ← settle_cycles u i next x]
  exact (h.settle i next hi hx hrecorded).undoLastStep_countCycle

/-- Settles O55: everything a cycle does from its start is recorded, and its record is on top of the log at its end. -/
theorem undoRestoresTheCycle : Obligations.UndoRestoresTheCycle := by
  constructor
  · rintro s _ single c n k i next x hw hen hi hx hrecorded rfl
    have hcheck : ({ (s.beginCycle single).interruptCheck with cache := c, freeIndex := n } : State).UndoesTo s :=
      (undoesTo_beginCycle hw hen single).interruptCheck.congr rfl ⟨rfl, rfl, rfl⟩
    obtain ⟨hregs, hmem, hcycles⟩ := hcheck.undoLastStep_finishCycle i next (by simpa using hi) hx hrecorded
    exact ⟨hregs, hmem, hcycles.trans (by simp)⟩
  · intro s t single hw hen hfatal ht
    rw [cycle_fatal hfatal] at ht
    cases ht
    have hentry := (undoesTo_beginCycle hw hen single).interruptCheck
    obtain ⟨hregs, hmem, hcycles, hlog⟩ := hentry.undoLastStep_of_closed
      (u := (s.beginCycle single).interruptCheck.closeCycle false) ⟨rfl, rfl, rfl⟩ (if_pos hentry.enabled)
    exact ⟨hregs, hmem, by simpa using hcycles, by simpa using hlog⟩

/-! ## Stop (R349) -/

theorem stop_of_blocked {s : State} (h : s.runState = .lockedOnInput) :
    s.stop = { s.unwind with runState := .ready, report := some .cancelled } := if_pos h

theorem stop_of_running {s : State} (h : s.runState = .running) :
    s.stop = { s with runState := .ready, executing := none, report := some .cancelled } := by
  simp [State.stop, h]

theorem stop_of_idle {s : State} (h : s.runState = .ready ∨ s.runState = .finished) :
    s.stop = { s with report := some .cancelled } := by
  rcases h with h | h <;> simp [State.stop, h]

theorem unwind_of_noEntry {s : State} (h : s.openEntry = none) : s.unwind = { s with executing := none, deltas := [] } := by
  rw [State.unwind, h]

theorem unwind_of_entry {s : State} {o : OpenEntry} (h : s.openEntry = some o) :
    s.unwind = { s.putBack o.request with
      regs := { s.regs with cop0 := Cop0.withoutEntry s.regs.cop0 o.cop0, pc := o.pc }
      executing := none
      deltas := []
      openEntry := none } := by
  rw [State.unwind, h]

/-- What a cycle taken back leaves: nothing but registers, requests and the cycle's own fields changes. -/
theorem unwind_frame (s : State) :
    s.unwind.mem = s.mem ∧ s.unwind.cache = s.cache ∧ s.unwind.cycles = s.cycles ∧ s.unwind.executing = none ∧
    s.unwind.nextInDelaySlot = s.nextInDelaySlot ∧ s.unwind.inputQueue = s.inputQueue ∧ s.unwind.undoLog = s.undoLog := by
  unfold State.unwind
  split <;> simp

/-- The registers a trap entry wrote are as before it when it is taken back. -/
theorem regs_withoutEntry_invokeInterrupt (s : State) (code : BitVec 5) (bad : Option Word) (ds : Bool) (pc : Word)
    (level : Fin 64) :
    { (s.invokeInterrupt code bad ds pc level).regs with
      cop0 := Cop0.withoutEntry (s.invokeInterrupt code bad ds pc level).regs.cop0 s.regs.cop0, pc := s.regs.pc } =
      s.regs := by
  rw [withoutEntry_invokeInterrupt, invokeInterrupt_regs]

/-- A level taken out of an ordered set and put back. -/
theorem insertLevel_erase {l : Fin 64} {ks : List (Fin 64)} (hks : ks.Pairwise (fun a b => a.val < b.val)) (h : l ∈ ks) :
    insertLevel l (ks.erase l) = ks := by
  induction ks with
  | nil => cases h
  | cons k ks ih =>
    obtain ⟨hk, htail⟩ := List.pairwise_cons.mp hks
    rcases List.mem_cons.mp h with rfl | hmem
    · rw [List.erase_cons_head]
      cases ks with
      | nil => rfl
      | cons j ks => exact if_pos (hk j List.mem_cons_self)
    · have hlt : k.val < l.val := hk l hmem
      rw [List.erase_cons_tail (by simpa using Fin.ne_of_lt hlt), insertLevel, if_neg (Fin.not_lt.mpr (Nat.le_of_lt hlt)),
        if_neg (Fin.ne_of_gt hlt), ih htail hmem]

/-- A cycle taken back after its interrupt check gives back the registers and the requests, whatever it took. -/
theorem unwind_interruptCheck {s v : State} (hs : s.hwPending.Pairwise (fun a b => a.val < b.val))
    (hopen : s.openEntry = none) (hregs : v.regs = s.interruptCheck.regs) (hhw : v.hwPending = s.interruptCheck.hwPending)
    (hsw : v.swPending = s.interruptCheck.swPending) (hentry : v.openEntry = s.interruptCheck.openEntry) :
    v.unwind.regs = s.regs ∧ v.unwind.hwPending = s.hwPending ∧ v.unwind.swPending = s.swPending := by
  rcases interruptCheck_cases s with h | ⟨q, qs, hq, h⟩ | ⟨l, hl, h⟩ <;> rw [h] at hregs hhw hsw hentry
  · rw [unwind_of_noEntry (hentry.trans hopen)]
    exact ⟨hregs, hhw, hsw⟩
  · simp only [invokeInterrupt_openEntry, invokeInterrupt_hwPending, invokeInterrupt_swPending] at hentry hhw hsw
    rw [unwind_of_entry hentry, hregs]
    exact ⟨regs_withoutEntry_invokeInterrupt .., hhw, by rw [hq]; exact congrArg _ hsw⟩
  · simp only [invokeInterrupt_openEntry, invokeInterrupt_hwPending, invokeInterrupt_swPending] at hentry hhw hsw
    rw [unwind_of_entry hentry, hregs]
    exact ⟨regs_withoutEntry_invokeInterrupt .., (congrArg _ hhw).trans (insertLevel_erase hs hl), hsw⟩

/-- A cycle whose execute waits for input stays open with no effect of it (R345, log entry 12). -/
theorem finishCycle_settle_of_needsInput {s : State} {i : Instr} {next : Continue} {x : Execution}
    (hx : x.ending = .needsInput) :
    (s.settle i next x).finishCycle = { s with runState := .lockedOnInput, executing := some i } := by
  rw [State.settle, hx]
  exact finishCycle_of_blocked (Option.some_ne_none i) rfl

/-- Settles O60: the three kinds of `stop()`; that of a blocked cycle takes back the request its check took. -/
theorem stopUnwindsToReady : Obligations.StopUnwindsToReady := by
  constructor
  · intro s
    cases hr : s.runState with
    | lockedOnInput =>
      obtain ⟨hmem, hcache, hcycles, hexecuting, _⟩ := unwind_frame s
      rw [stop_of_blocked hr]
      exact ⟨hmem, hcycles, hcache, fun _ => ⟨rfl, hexecuting⟩, fun h => absurd rfl h, by simp⟩
    | running =>
      rw [stop_of_running hr]
      exact ⟨rfl, rfl, rfl, fun _ => ⟨rfl, rfl⟩, fun _ => ⟨rfl, rfl, rfl⟩, by simp⟩
    | ready =>
      rw [stop_of_idle (.inl hr)]
      exact ⟨rfl, rfl, rfl, by simp, fun _ => ⟨rfl, rfl, rfl⟩, fun _ => hr⟩
    | finished =>
      rw [stop_of_idle (.inr hr)]
      exact ⟨rfl, rfl, rfl, by simp, fun _ => ⟨rfl, rfl, rfl⟩, fun _ => hr⟩
  · intro s t single c n i next x hs hx ht
    rw [finishCycle_settle_of_needsInput hx] at ht
    obtain ⟨hregs, hhw, hsw⟩ := unwind_interruptCheck (s := s.beginCycle single) (v := t) hs.1 rfl (by rw [ht]) (by rw [ht])
      (by rw [ht]) (by rw [ht])
    obtain ⟨hmem, _, hcycles, _, hslot, hinput, hlog⟩ := unwind_frame t
    rw [stop_of_blocked (by rw [ht])]
    exact ⟨by rw [ht], hregs, hmem.trans (by simp [ht]), hhw, hsw, hslot.trans (by simp [ht]), hinput.trans (by simp [ht]),
      hcycles.trans (by simp [ht]), hlog.trans (by simp [ht])⟩

end Sys2Proof.Machine
end

section
/-! The jump field a wanted target needs (R420), and the controller's `reset()` (R400, R401). -/

namespace Sys2Proof

/-- The two sides of R420's equation as numbers; adding 2^32 - 4 subtracts 4 modulo 2^28. -/
theorem jumpField_toNat {w t : Word} (h : w &&& 0x3FFFFFF#32 = ((t - 4#32) &&& 0x0FFFFFFF#32) >>> 2) :
    w.toNat % 2 ^ 26 = (t.toNat + (2 ^ 32 - 4)) % 2 ^ 28 / 4 := by
  have h26 : (w &&& 0x3FFFFFF#32).toNat = w.toNat % 2 ^ 26 := Nat.and_two_pow_sub_one_eq_mod w.toNat 26
  have h28 : ((t - 4#32) &&& 0x0FFFFFFF#32).toNat = (t - 4#32).toNat % 2 ^ 28 := Nat.and_two_pow_sub_one_eq_mod _ 28
  have hsub : (t - 4#32).toNat = (2 ^ 32 - 4 + t.toNat) % 2 ^ 32 := BitVec.toNat_sub ..
  rw [← h26, h, BitVec.toNat_ushiftRight, Nat.shiftRight_eq_div_pow, h28, hsub]
  omega

/-- Settles O9: times four plus four takes the aligned target's field back to its low 28 bits, modulo 2^28. -/
theorem fieldForWantedTarget : Obligations.FieldForWantedTarget := by
  intro w pc t haligned hregion hw
  have hlow : (w.toNat % 2 ^ 26 * 4 + 4) % 2 ^ 28 = t.toNat % 2 ^ 28 := by
    rw [jumpField_toNat hw]
    omega
  refine BitVec.eq_of_toNat_eq ?_
  rw [absTarget_toNat, hlow, ← hregion]
  omega

end Sys2Proof

namespace Sys2Proof.Machine

/-- `reset()` outside an open cycle is performed at once (R401, log entry 13). -/
theorem perform_reset {s : State} (h : s.runState ≠ .lockedOnInput) : s.perform .reset = .next s.resetEngine := if_neg h

/-- Settles O58: the call leaves `State.resetEngine` of the state without it, whose fields stand in that definition; the
calls that wait are kept, and a FINISHED run is reset too (log entry 25); no word is left out of step (log entry 22). -/
theorem engineReset : Obligations.EngineReset := by
  intro s rest hc hr
  exact ⟨_, (step_command hc).trans (perform_reset hr), rfl, rfl, rfl, rfl, rfl, rfl, rfl, rfl, rfl, rfl, rfl, rfl, rfl⟩

end Sys2Proof.Machine
end
